-- ==== Sys2Proof/Word.lean ====
section
/-! DEFINITION. The words of the HZIP Huffman core and the 256-entry table its units are built on
(00_scope.md R6, R8). -/

namespace Sys2Proof

/-- A byte, and so a symbol: "symbols are byte values 0..255" (R6, NSYM). -/
abbrev Byte := BitVec 8

/-- A register, count, weight or code value: 64 bits (R6, CW and CODEW). -/
abbrev Word := BitVec 64

/-- A table of 256 entries indexed by symbol (R36, R40, R41), with the proof that it has 256. -/
structure Table (α : Type) where
  cells : List α
  size : cells.length = 256
deriving DecidableEq, Repr

/-- The table whose 256 entries are all `v`. -/
def Table.fill {α : Type} (v : α) : Table α := ⟨List.replicate 256 v, List.length_replicate⟩

end Sys2Proof
end

