-- ==== Sys2Proof/Config.lean ====
section
/-! DEFINITION. What one implementation fixes (00_scope.md R7, 10_state.md R51) and the values the
spec's own widths leave open. -/

namespace Sys2Proof

/-- The open parameter of the block: `IN_CAP`, "the capacity in bytes of the payload input buffer"
(R7). `REG_BASE` needs no field: "the model states every access as an offset from REG_BASE" (R76). -/
structure Config where
  inCap : Nat
deriving DecidableEq, Repr

/-- "`1 ≤ IN_CAP ≤ 2^61`" (R7). -/
abbrev Config.Wf (c : Config) : Prop := 1 ≤ c.inCap ∧ c.inCap ≤ 2 ^ 61

/-- "A model that wants DOC0's 'impose no artificial cap' sets `IN_CAP = 2^61`" (R7). -/
def Config.uncapped : Config := ⟨2 ^ 61⟩

/-- FREE VALUE, DESIGN CHOICE (notes/assumptions/3.md). What the 64-bit mirror UP_POS reads when the
number of bits consumed, its argument, is 2^64 or more and does not fit. -/
opaque Config.freeUpPos : Nat → Word

/-- FREE VALUE, DESIGN CHOICE (notes/assumptions/4.md). What the 64-bit mirror UP_VALID reads when the number of
valid bits, its argument, is 2^64 or more and does not fit. -/
opaque Config.freeUpValid : Nat → Word

end Sys2Proof
end

