-- ==== Sys2Proof/Syntax.lean ====
section
/-! DEFINITION. The command set HZC1: one constructor per row of the opcode map
(30_encoding.md R94). -/

namespace Sys2Proof

/-- A command. The arguments are the A and B operands, each an unsigned 8-bit value (R93). -/
inductive Instr where
  /-- `NOP` (R122). -/
  | nop
  /-- `RESET` (R121). -/
  | reset
  /-- `FC_CLEAR` (R130). -/
  | fcClear
  /-- `FC_BYTE b` (R131). -/
  | fcByte (b : Byte)
  /-- `RD_FREQ s` (R132). -/
  | rdFreq (s : Byte)
  /-- `TB_BUILD` (R141). -/
  | tbBuild
  /-- `LD_DERIVE` (R150). -/
  | ldDerive
  /-- `RD_LEN s` (R151). -/
  | rdLen (s : Byte)
  /-- `CA_FROM_LEN` (R160). -/
  | caFromLen
  /-- `EN_CLEAR` (R162). -/
  | enClear
  /-- `EN_PUSH s, l` (R163). -/
  | enPush (s : Byte) (l : Byte)
  /-- `RD_ENTRY i` (R164). -/
  | rdEntry (i : Byte)
  /-- `CA_FROM_ENTRIES` (R165). -/
  | caFromEntries
  /-- `RD_CODE s` (R166). -/
  | rdCode (s : Byte)
  /-- `PK_INIT` (R180). -/
  | pkInit
  /-- `PK_WBIT b` (R182). -/
  | pkWbit (b : Byte)
  /-- `PK_WBITS n`, the value in ARG (R183). -/
  | pkWbits (n : Byte)
  /-- `ENC_BYTE b` (R184). -/
  | encByte (b : Byte)
  /-- `PK_FINISH` (R185). -/
  | pkFinish
  /-- `IN_CLEAR` (R200). -/
  | inClear
  /-- `IN_PUSH b` (R201). -/
  | inPush (b : Byte)
  /-- `UP_OPEN p` (R202). -/
  | upOpen (p : Byte)
  /-- `UP_RBIT` (R203). -/
  | upRbit
  /-- `UP_RBITS n` (R204). -/
  | upRbits (n : Byte)
  /-- `DT_BUILD` (R220). -/
  | dtBuild
  /-- `DEC_SYM` (R224). -/
  | decSym
  /-- `DEC_RUN`, the count in ARG (R225). -/
  | decRun
deriving DecidableEq, Repr

end Sys2Proof
end

