-- ==== Sys2Proof/WellFormed.lean ====
section
/-! DEFINITION. Which operand values a command word alone shows to be legal (30_encoding.md R93).
Decoding does not ask for this ("The range checks of rule R93 are not part of decode", R95): a
command that is not well formed still decodes, and its own rule raises the fault. -/

namespace Sys2Proof

/-- R93: a PK_WBIT bit is 0 or 1, a bit count is 0..64, a pad count is 0..7; every other operand
is legal at every value. -/
def Instr.wellFormed : Instr → Bool
  | .pkWbit b => b.toNat ≤ 1
  | .pkWbits n => n.toNat ≤ 64
  | .upRbits n => n.toNat ≤ 64
  | .upOpen p => p.toNat ≤ 7
  | .nop | .reset | .fcClear | .fcByte _ | .rdFreq _ | .tbBuild | .ldDerive | .rdLen _
  | .caFromLen | .enClear | .enPush _ _ | .rdEntry _ | .caFromEntries | .rdCode _
  | .pkInit | .encByte _ | .pkFinish | .inClear | .inPush _ | .upRbit
  | .dtBuild | .decSym | .decRun => true

end Sys2Proof
end

