-- ==== Sys2Proof/Decode.lean ====
section
/-! DEFINITION. The command word: its decoder, its encoder and its assembly syntax
(30_encoding.md). -/

namespace Sys2Proof

/-- The four formats of R92, by the operand fields each uses. -/
inductive Format where
  | f0 | fa | fb | fab
deriving DecidableEq, Repr

/-- Whether a format leaves the A field unused: "fmt in {F0, FB}" (R95). -/
def Format.leavesA : Format → Bool
  | .f0 | .fb => true
  | .fa | .fab => false

/-- Whether a format leaves the B field unused: "fmt in {F0, FA}" (R95). -/
def Format.leavesB : Format → Bool
  | .f0 | .fa => true
  | .fb | .fab => false

/-- One row of the opcode map (R94): the opcode, the format, and the command that operands A and B
make. -/
structure OpcodeRow where
  opc : Byte
  format : Format
  make : Byte → Byte → Instr

/-- The opcode map of R94, row by row. -/
def opcodeTable : List OpcodeRow :=
  [ ⟨0x00, .f0, fun _ _ => .nop⟩,
    ⟨0x01, .f0, fun _ _ => .reset⟩,
    ⟨0x10, .f0, fun _ _ => .fcClear⟩,
    ⟨0x11, .fa, fun a _ => .fcByte a⟩,
    ⟨0x12, .fa, fun a _ => .rdFreq a⟩,
    ⟨0x20, .f0, fun _ _ => .tbBuild⟩,
    ⟨0x30, .f0, fun _ _ => .ldDerive⟩,
    ⟨0x31, .fa, fun a _ => .rdLen a⟩,
    ⟨0x40, .f0, fun _ _ => .caFromLen⟩,
    ⟨0x41, .f0, fun _ _ => .enClear⟩,
    ⟨0x42, .fab, fun a b => .enPush a b⟩,
    ⟨0x43, .fa, fun a _ => .rdEntry a⟩,
    ⟨0x44, .f0, fun _ _ => .caFromEntries⟩,
    ⟨0x45, .fa, fun a _ => .rdCode a⟩,
    ⟨0x50, .f0, fun _ _ => .pkInit⟩,
    ⟨0x51, .fa, fun a _ => .pkWbit a⟩,
    ⟨0x52, .fb, fun _ b => .pkWbits b⟩,
    ⟨0x53, .fa, fun a _ => .encByte a⟩,
    ⟨0x54, .f0, fun _ _ => .pkFinish⟩,
    ⟨0x60, .f0, fun _ _ => .inClear⟩,
    ⟨0x61, .fa, fun a _ => .inPush a⟩,
    ⟨0x62, .fa, fun a _ => .upOpen a⟩,
    ⟨0x63, .f0, fun _ _ => .upRbit⟩,
    ⟨0x64, .fb, fun _ b => .upRbits b⟩,
    ⟨0x70, .f0, fun _ _ => .dtBuild⟩,
    ⟨0x71, .f0, fun _ _ => .decSym⟩,
    ⟨0x72, .f0, fun _ _ => .decRun⟩ ]

/-- The row of an opcode; none where the opcode is unassigned (R96). -/
def opcodeRow (opc : Byte) : Option OpcodeRow := opcodeTable.find? (fun r => r.opc == opc)

/-- The tests a CMD write can fail in decode, in the order R95 makes them. Each is a CommandError
(R301). -/
inductive DecodeError where
  | highBits | unassignedOpcode | zField | aField | bField
deriving DecidableEq, Repr

/-- The command word's fields within the 64 bits of a CMD write (R90, R91). -/
def cmdHigh (x : Word) : BitVec 32 := x.extractLsb' 32 32
def cmdOpc (x : Word) : Byte := x.extractLsb' 24 8
def cmdA (x : Word) : Byte := x.extractLsb' 16 8
def cmdB (x : Word) : Byte := x.extractLsb' 8 8
def cmdZ (x : Word) : Byte := x.extractLsb' 0 8

/-- Decoding a CMD write (R95), its tests in the rule's order. -/
def decode (x : Word) : Except DecodeError Instr :=
  if cmdHigh x ≠ 0 then .error .highBits
  else match opcodeRow (cmdOpc x) with
    | none => .error .unassignedOpcode
    | some row =>
      if cmdZ x ≠ 0 then .error .zField
      else if row.format.leavesA ∧ cmdA x ≠ 0 then .error .aField
      else if row.format.leavesB ∧ cmdB x ≠ 0 then .error .bField
      else .ok (row.make (cmdA x) (cmdB x))

/-- The decoder on a word numbered as the opcode table numbers its bits: the command word is bits
[31:0] of the CMD write, and every bit above `nbits` is 0. -/
def decodeTableWord (nbits w : Nat) : Option Instr :=
  (decode (BitVec.ofNat 64 (w % 2 ^ nbits))).toOption

/-! The encoder (R91, R100). -/

/-- The OPC field of a command (R94). -/
def Instr.opcode : Instr → Byte
  | .nop => 0x00
  | .reset => 0x01
  | .fcClear => 0x10
  | .fcByte _ => 0x11
  | .rdFreq _ => 0x12
  | .tbBuild => 0x20
  | .ldDerive => 0x30
  | .rdLen _ => 0x31
  | .caFromLen => 0x40
  | .enClear => 0x41
  | .enPush _ _ => 0x42
  | .rdEntry _ => 0x43
  | .caFromEntries => 0x44
  | .rdCode _ => 0x45
  | .pkInit => 0x50
  | .pkWbit _ => 0x51
  | .pkWbits _ => 0x52
  | .encByte _ => 0x53
  | .pkFinish => 0x54
  | .inClear => 0x60
  | .inPush _ => 0x61
  | .upOpen _ => 0x62
  | .upRbit => 0x63
  | .upRbits _ => 0x64
  | .dtBuild => 0x70
  | .decSym => 0x71
  | .decRun => 0x72

/-- The A field of a command; "A field a format does not use must be 0" (R92). -/
def Instr.fieldA : Instr → Byte
  | .fcByte a | .rdFreq a | .rdLen a | .enPush a _ | .rdEntry a | .rdCode a
  | .pkWbit a | .encByte a | .inPush a | .upOpen a => a
  | .nop | .reset | .fcClear | .tbBuild | .ldDerive | .caFromLen | .enClear | .caFromEntries
  | .pkInit | .pkWbits _ | .pkFinish | .inClear | .upRbit | .upRbits _
  | .dtBuild | .decSym | .decRun => 0

/-- The B field of a command. -/
def Instr.fieldB : Instr → Byte
  | .enPush _ b | .pkWbits b | .upRbits b => b
  | .nop | .reset | .fcClear | .fcByte _ | .rdFreq _ | .tbBuild | .ldDerive | .rdLen _
  | .caFromLen | .enClear | .rdEntry _ | .caFromEntries | .rdCode _ | .pkInit | .pkWbit _
  | .encByte _ | .pkFinish | .inClear | .inPush _ | .upOpen _ | .upRbit
  | .dtBuild | .decSym | .decRun => 0

/-- The command word `{OPC, A, B, Z}` with Z = 0 (R91). -/
def encode (i : Instr) : BitVec 32 := i.opcode ++ i.fieldA ++ i.fieldB ++ (0 : Byte)

/-- The 64 bits the host writes to CMD for a command: bits [63:32] are 0 (R90). -/
def cmdWord (i : Instr) : Word := (encode i).setWidth 64

/-! The assembly syntax (R98). -/

/-- The mnemonic of a command (R94). -/
def Instr.mnemonic : Instr → String
  | .nop => "NOP"
  | .reset => "RESET"
  | .fcClear => "FC_CLEAR"
  | .fcByte _ => "FC_BYTE"
  | .rdFreq _ => "RD_FREQ"
  | .tbBuild => "TB_BUILD"
  | .ldDerive => "LD_DERIVE"
  | .rdLen _ => "RD_LEN"
  | .caFromLen => "CA_FROM_LEN"
  | .enClear => "EN_CLEAR"
  | .enPush _ _ => "EN_PUSH"
  | .rdEntry _ => "RD_ENTRY"
  | .caFromEntries => "CA_FROM_ENTRIES"
  | .rdCode _ => "RD_CODE"
  | .pkInit => "PK_INIT"
  | .pkWbit _ => "PK_WBIT"
  | .pkWbits _ => "PK_WBITS"
  | .encByte _ => "ENC_BYTE"
  | .pkFinish => "PK_FINISH"
  | .inClear => "IN_CLEAR"
  | .inPush _ => "IN_PUSH"
  | .upOpen _ => "UP_OPEN"
  | .upRbit => "UP_RBIT"
  | .upRbits _ => "UP_RBITS"
  | .dtBuild => "DT_BUILD"
  | .decSym => "DEC_SYM"
  | .decRun => "DEC_RUN"

/-- `n` hexadecimal digits of a number, the most significant first. -/
def hexDigits : Nat → Nat → List Char
  | 0, _ => []
  | n + 1, v => hexDigits n (v / 16) ++ [(Nat.digitChar (v % 16)).toUpper]

/-- A byte operand as `0x..`, two hexadecimal digits (R98's examples, R8; the case of the letters is a
DESIGN CHOICE, notes/assumptions/15.md). -/
def hexByte (b : Byte) : String := "0x" ++ String.ofList (hexDigits 2 b.toNat)

/-- "The encoding of a command is written as 8 hexadecimal digits" (R98). -/
def Instr.encodingText (i : Instr) : String := String.ofList (hexDigits 8 (encode i).toNat)

/-- The operands of a command in assembly: bytes and symbols in hexadecimal, counts, lengths,
indexes, bits and pad counts in decimal, "in the order A then B" (R98). -/
def Instr.operandText : Instr → List String
  | .fcByte a | .rdFreq a | .rdLen a | .rdCode a | .encByte a | .inPush a => [hexByte a]
  | .rdEntry a | .pkWbit a | .upOpen a => [Nat.repr a.toNat]
  | .pkWbits b | .upRbits b => [Nat.repr b.toNat]
  | .enPush a b => [hexByte a, Nat.repr b.toNat]
  | .nop | .reset | .fcClear | .tbBuild | .ldDerive | .caFromLen | .enClear | .caFromEntries
  | .pkInit | .pkFinish | .inClear | .upRbit | .dtBuild | .decSym | .decRun => []

/-- "A command is written as its mnemonic followed by its operands, comma-separated" (R98). -/
def Instr.assembly (i : Instr) : String :=
  match i.operandText with
  | [] => i.mnemonic
  | ops => i.mnemonic ++ " " ++ String.intercalate ", " ops

end Sys2Proof
end

