-- ==== Sys2Proof/Machine/State.lean ====
section
/-! DEFINITION. The state of the block (10_state.md), the host's side of its register window
(20_memory.md, 70_reset_and_hazards.md R342), and the ways a step can stop. -/

namespace Sys2Proof.Machine

/-- The fault kinds of R300. -/
inductive FaultKind where
  | malformedHeader
  | invalidCanonicalTable
  | truncatedBitstream
  | unencodableByte
  /-- The host's own; "never raised by any command" (R304). -/
  | ioFailure
  | unmappedCode
  | commandError
  | countOverflow
deriving DecidableEq, Repr

/-- A HuffmanNode (R38). -/
inductive HuffmanNode where
  | leaf (sym : Byte) (weight : Word)
  | internal (weight : Word) (minSym : Byte) (left right : HuffmanNode)
deriving DecidableEq, Repr

/-- A trie node (R48). -/
inductive TrieNode where
  | empty
  | leaf (sym : Byte)
  | inner (left right : TrieNode)
deriving DecidableEq, Repr

/-- The fault latch: STATUS.FAULT, STATUS.ERRKIND and STATUS.ERROP (R28, R50). -/
structure FaultLatch where
  fault : Bool
  errKind : BitVec 4
  errOp : Byte
deriving DecidableEq, Repr

/-- The frequency counter: FREQ (R36) and TOTAL (R37). -/
structure FreqCounter where
  freq : Table Word
  total : Word
deriving DecidableEq, Repr

/-- An entry of CODE (R41). -/
structure CodeEntry where
  present : Bool
  code : Word
  len : Byte
deriving DecidableEq, Repr

/-- A record of the ENTRY list (R42). -/
structure Entry where
  sym : Byte
  len : Byte
deriving DecidableEq, Repr

/-- The bit packer's six elements: PK_ACC, PK_NBITS, PK_PADBITS, PK_FIN, PK_BYTECOUNT, PK_OUT
(R43). -/
structure Packer where
  acc : Byte
  nbits : BitVec 3
  padBits : BitVec 3
  fin : Bool
  byteCount : Word
  out : List Byte
deriving DecidableEq, Repr

/-- The payload buffer IN_BUF (R44) and the unpacker's UP_PAD and UP_POS (R45). IN_LEN "is its
length in bytes" (R44): it is the length of `buf` and has no second home. UP_POS is held as the exact
"number of bits consumed" (R45), which can be 2^64 (DESIGN CHOICE, notes/assumptions/3.md). -/
structure Unpacker where
  buf : List Byte
  pad : BitVec 3
  pos : Nat
deriving DecidableEq, Repr

/-- The decoder's output: DEC_OUT and DEC_COUNT (R47). -/
structure DecodeOut where
  out : List Byte
  count : Word
deriving DecidableEq, Repr

/-- What the host can do to the block (R342). The widths are in bits. -/
inductive Access where
  /-- Read the register at an offset of the window (R63, R66). -/
  | read (offset width : Nat)
  /-- Write a value to the register at an offset of the window (R25, R63). -/
  | write (offset width : Nat) (value : Word)
  /-- Read the output stream PK_OUT (R61). -/
  | readPkOut
  /-- Read the output stream DEC_OUT (R61). -/
  | readDecOut
  /-- Apply the platform's reset signal (R330). -/
  | hardReset
deriving DecidableEq, Repr

/-- What the block gave the host for its latest access (R342, the column "block returns"). -/
inductive Answer where
  /-- No access has been made yet. -/
  | silent
  /-- A write or a reset is complete (R71). -/
  | complete
  /-- The 64 bits a register read returns. -/
  | value (v : Word)
  /-- The whole byte sequence a stream read returns. -/
  | stream (bytes : List Byte)
deriving DecidableEq, Repr

/-- The block never stops: a command that fails latches its fault and goes on (R305, R340), so no
step ends in a fault of the model (DEDUCED, notes/assumptions/6.md). The type has no constructor:
nobody raises one (safe). -/
inductive Fault where
deriving DecidableEq, Repr

/-- Why a step has no meaning. -/
inductive Refusal where
  /-- Raised by an arm of `exec` whose instruction has no meaning yet; none does (safe). -/
  | notModelled (mnemonic : String)
  /-- Raised by a host access "narrower or wider than 64 bits" (R65); safe. -/
  | accessWidth
  /-- Raised by a host access "at an offset that is not a multiple of 8" (R65); safe. -/
  | accessMisaligned
  /-- Raised by a host access "at an offset of 0x80 or above" (R65); safe. -/
  | accessReserved
  /-- Raised by "a write to any register other than CMD and ARG" (R65); safe. -/
  | accessReadOnly
deriving DecidableEq, Repr

/-- The state. `cfg`, `pending` and `answer` are the MODEL's own (DESIGN CHOICE,
notes/assumptions/1.md, 2.md);
every other field is the block's (10_state.md R20 to R48). -/
structure State where
  /-- The parameter IN_CAP (R7). No step changes it. -/
  cfg : Config
  /-- The host's accesses still to come, the next one first (R21, R72). -/
  pending : List Access
  /-- What the host last got back. -/
  answer : Answer
  /-- ARG (R22). -/
  arg : Word
  /-- RES (R23). -/
  res : Word
  /-- RESX (R24). -/
  resx : Word
  /-- STATUS.FAULT, ERRKIND, ERROP (R28 to R30). -/
  latch : FaultLatch
  /-- STATUS.END (R32). -/
  endFlag : Bool
  /-- FREQ and TOTAL (R36, R37). -/
  fc : FreqCounter
  /-- TREE (R38). -/
  tree : Option HuffmanNode
  /-- LEN (R40). -/
  len : Table Byte
  /-- CODE (R41). -/
  code : Table CodeEntry
  /-- ENTRY[0 .. EN_COUNT - 1], in arrival order (R42). EN_COUNT is its length. -/
  entries : List Entry
  /-- The bit packer (R43). -/
  pk : Packer
  /-- IN_BUF, IN_LEN, UP_PAD, UP_POS (R44, R45). -/
  up : Unpacker
  /-- DEC_OUT and DEC_COUNT (R47). -/
  dec : DecodeOut
  /-- TRIE (R48). -/
  trie : TrieNode
  /-- TRIE_NODES (R48). -/
  trieNodes : Word
deriving DecidableEq, Repr

/-- The block right after hardware reset (R49, R330), with no access made and none to come. -/
def State.reset : State where
  cfg := Config.uncapped
  pending := []
  answer := .silent
  arg := 0
  res := 0
  resx := 0
  latch := { fault := false, errKind := 0, errOp := 0 }
  endFlag := false
  fc := { freq := Table.fill 0, total := 0 }
  tree := none
  len := Table.fill 0
  code := Table.fill { present := false, code := 0, len := 0 }
  entries := []
  pk := { acc := 0, nbits := 0, padBits := 0, fin := false, byteCount := 0, out := [] }
  up := { buf := [], pad := 0, pos := 0 }
  dec := { out := [], count := 0 }
  trie := .inner .empty .empty
  trieNodes := 1

end Sys2Proof.Machine
end

