-- ==== Sys2Proof/Machine/Ops.lean ====
section
/-! DEFINITION. The operations every unit shares: the tables, the fault entry and reset
(00_scope.md R10, 60_exceptions.md R305, 40_control.md R121). -/

namespace Sys2Proof.Machine

/-! Tables (R10: `T[i]`, `T[i] <- v`). Every access is of a whole entry (R70). -/

/-- The symbols 0..255 in ascending order. -/
def symbols : List Byte := (List.range 256).map (BitVec.ofNat 8)

/-- `T[s]`. -/
def tget {α : Type} (t : Table α) (s : Byte) : α :=
  t.cells[s.toNat]'(by rw [t.size]; exact s.isLt)

/-- `T[s] <- v`. -/
def tset {α : Type} (t : Table α) (s : Byte) (v : α) : Table α :=
  ⟨t.cells.set s.toNat v, by rw [List.length_set]; exact t.size⟩

/-- The table with `f s` at each symbol `s`. -/
def tbuild {α : Type} (f : Byte → α) : Table α :=
  ⟨symbols.map f, by rw [symbols, List.length_map, List.length_map, List.length_range]⟩

/-- The largest value of a 64-bit count, 2^64 - 1 (R304: a count "would pass 2^64 − 1"). -/
def maxCount : Word := BitVec.allOnes 64

/-! Faults. -/

/-- The STATUS.ERRKIND code of a kind (R300). -/
def FaultKind.code : FaultKind → BitVec 4
  | .malformedHeader => 1
  | .invalidCanonicalTable => 2
  | .truncatedBitstream => 3
  | .unencodableByte => 4
  | .ioFailure => 5
  | .unmappedCode => 6
  | .commandError => 7
  | .countOverflow => 8

/-- Fault entry (R305): the latch is set with the kind and the opcode, and every other element
keeps the value `s` gives it. -/
def State.raise (s : State) (k : FaultKind) (opc : Byte) : State :=
  { s with latch := { fault := true, errKind := k.code, errOp := opc } }

/-- How a command ends (R71): it "either completes and writes all the state its rule writes, or it
faults and writes no data state". `s` is the state before the command. -/
def commit (i : Instr) (s : State) : Except FaultKind State → Host.Outcome State Fault Refusal
  | .ok t => .next t
  | .error k => .next (s.raise k i.opcode)

/-- Reset (R49, R121, R330): every element of the block takes its reset value. The model's own
fields, which are the parameter and the host's side, are not the block's and stay (DEDUCED,
notes/assumptions/13.md). -/
def State.resetBlock (s : State) : State :=
  { State.reset with cfg := s.cfg, pending := s.pending, answer := s.answer }

/-! Bits. -/

/-- The 64-bit value whose bits [k+w-1:k] are `v` and whose other bits are 0 (R8). -/
def fieldAt {w : Nat} (v : BitVec w) (k : Nat) : Word := v.setWidth 64 <<< k

/-- The low `n` bits of `v`, bit n-1 first: the MSB-first order of R67. -/
def bitsMsb (v : Word) : Nat → List Bool
  | 0 => []
  | n + 1 => v.getLsbD n :: bitsMsb v n

end Sys2Proof.Machine
end

