-- ==== Sys2Proof/Machine/Flags.lean ====
section
/-! DEFINITION. The STATUS fields and the mirrors: what each reads as a function of the state
(10_state.md R28 to R35, R42, R44, R46). -/

namespace Sys2Proof.Machine

/-- STATUS.ROOT_VALID "reads 1 when TREE is a tree" (R31). -/
def State.rootValid (s : State) : Bool := s.tree.isSome

/-- IN_LEN (R44), as a number of bytes. -/
def Unpacker.inLen (u : Unpacker) : Nat := u.buf.length

/-- UP_VALID (R46), as an exact number of bits. -/
def Unpacker.valid (u : Unpacker) : Nat :=
  if u.inLen = 0 then 0 else 8 * u.inLen - u.pad.toNat

/-- EN_COUNT (R42). -/
def State.enCount (s : State) : Nat := s.entries.length

/-- What the UP_VALID mirror reads: the count where it fits 64 bits, else a FREE VALUE
(notes/assumptions/4.md). -/
def Unpacker.validMirror (u : Unpacker) : Word :=
  if u.valid < 2 ^ 64 then BitVec.ofNat 64 u.valid else Config.freeUpValid u.valid

/-- What the UP_POS mirror reads (R45): the count of bits consumed where it fits 64 bits, else a FREE
VALUE (notes/assumptions/3.md). -/
def Unpacker.posMirror (u : Unpacker) : Word :=
  if u.pos < 2 ^ 64 then BitVec.ofNat 64 u.pos else Config.freeUpPos u.pos

/-- STATUS (R28): FAULT at [0], ERRKIND at [7:4], ERROP at [15:8], END at [16], ROOT_VALID at [17],
PK_FIN at [18]; the reserved bits [3:1] and [63:19] read 0. -/
def State.status (s : State) : Word :=
  fieldAt (BitVec.ofBool s.latch.fault) 0 ||| fieldAt s.latch.errKind 4 |||
    fieldAt s.latch.errOp 8 ||| fieldAt (BitVec.ofBool s.endFlag) 16 |||
    fieldAt (BitVec.ofBool s.rootValid) 17 ||| fieldAt (BitVec.ofBool s.pk.fin) 18

/-- PK_CTL (R34): PK_NBITS at [2:0], PK_ACC at [15:8], PK_PADBITS at [18:16], the rest 0. -/
def Packer.ctl (p : Packer) : Word :=
  fieldAt p.nbits 0 ||| fieldAt p.acc 8 ||| fieldAt p.padBits 16

/-- UP_CTL (R35): UP_PAD in bits [2:0], the rest 0. -/
def Unpacker.ctl (u : Unpacker) : Word := fieldAt u.pad 0

/-- The constant of the ID register (R2, R33). -/
def idConstant : Word := 0x0000000150495A48

end Sys2Proof.Machine
end

