-- ==== Sys2Proof/Machine/Operands.lean ====
section
/-! DEFINITION. The operand forms of R93 (30_encoding.md). A byte or symbol operand is the A field
itself, and a code-length operand the B field itself; the forms below are checked by the rule of
their command. -/

namespace Sys2Proof.Machine

/-- A bit operand (PK_WBIT): "Only 0 and 1 are legal, and other values raise CommandError". -/
def bitOperand (a : Byte) : Except FaultKind Bool :=
  if a.toNat ≤ 1 then .ok (a.getLsbD 0) else .error .commandError

/-- A pad-count operand (UP_OPEN): "Only 0..7 are legal, and other values raise MalformedHeader". -/
def padOperand (a : Byte) : Except FaultKind (BitVec 3) :=
  if a.toNat ≤ 7 then .ok (a.extractLsb' 0 3) else .error .malformedHeader

/-- A bit-count operand (PK_WBITS, UP_RBITS): "Only 0..64 are legal, and other values raise
CommandError". -/
def countOperand (b : Byte) : Except FaultKind Nat :=
  if b.toNat ≤ 64 then .ok b.toNat else .error .commandError

/-- An index operand (RD_ENTRY): an index at or beyond EN_COUNT raises CommandError (R164). -/
def entryOperand (s : State) (a : Byte) : Except FaultKind Entry :=
  match s.entries[a.toNat]? with
  | some e => .ok e
  | none => .error .commandError

/-- The 64-bit operand "read from ARG at the time the command executes" (R93, R339). -/
def argOperand (s : State) : Word := s.arg

end Sys2Proof.Machine
end

