-- ==== Sys2Proof/Machine/BitPacker.lean ====
section
/-! DEFINITION. The bit packer and symbol encoder (45_bit_packer.md). -/

namespace Sys2Proof.Machine

/-- The packer right after PK_INIT (R180). -/
def packerInit : Packer :=
  { acc := 0, nbits := 0, padBits := 0, fin := false, byteCount := 0, out := [] }

/-- `emit_PK` (R181). -/
def emitPk (b : Byte) (p : Packer) : Except FaultKind Packer :=
  if p.byteCount = maxCount then .error .countOverflow
  else .ok { p with out := p.out ++ [b], byteCount := p.byteCount + 1 }

/-- `{ PK_ACC[6:0], bit }` (R181): bits [6:0] move up by one and the new bit enters at bit 0. -/
def shiftIn (acc : Byte) (bit : Bool) : Byte := (acc <<< 1) ||| (BitVec.ofBool bit).setWidth 8

/-- `writeBit` (R181): the eighth bit completes the byte. -/
def writeBit (bit : Bool) (p : Packer) : Except FaultKind Packer :=
  if p.nbits = 7 then
    (emitPk (shiftIn p.acc bit) p).map fun q => { q with acc := 0, nbits := 0 }
  else .ok { p with acc := shiftIn p.acc bit, nbits := p.nbits + 1 }

/-- Writing a list of bits in order. -/
def writeBitList : List Bool → Packer → Except FaultKind Packer
  | [], p => .ok p
  | b :: bs, p =>
    match writeBit b p with
    | .ok q => writeBitList bs q
    | .error k => .error k

/-- `writeBits(v, n)` (R181): bit n-1 of `v` first, bit 0 last. -/
def writeBits (v : Word) (n : Nat) (p : Packer) : Except FaultKind Packer :=
  writeBitList (bitsMsb v n) p

/-- The final byte: "left-shift-pad with zero bits" (R185). -/
def paddedByte (p : Packer) : Byte := p.acc <<< (8 - p.nbits.toNat)

/-- Finishing the payload (R185), once PK_FIN is known to be 0. -/
def finishPacker (p : Packer) : Except FaultKind Packer :=
  if p.nbits = 0 then .ok { p with padBits := 0, acc := 0, nbits := 0, fin := true }
  else (emitPk (paddedByte p) p).map fun q =>
    { q with padBits := BitVec.ofNat 3 (8 - p.nbits.toNat), acc := 0, nbits := 0, fin := true }

/-- PK_INIT (R180). -/
def execPkInit (s : State) : Host.Outcome State Fault Refusal :=
  commit .pkInit s (.ok { s with pk := packerInit })

/-- The packer after PK_WBIT (R182). -/
def pkWbit (a : Byte) (p : Packer) : Except FaultKind Packer :=
  match bitOperand a with
  | .error k => .error k
  | .ok bit => if p.fin then .error .commandError else writeBit bit p

/-- PK_WBIT (R182). -/
def execPkWbit (a : Byte) (s : State) : Host.Outcome State Fault Refusal :=
  commit (.pkWbit a) s ((pkWbit a s.pk).map fun p => { s with pk := p })

/-- The packer after PK_WBITS of the value `v` (R183). -/
def pkWbits (b : Byte) (v : Word) (p : Packer) : Except FaultKind Packer :=
  match countOperand b with
  | .error k => .error k
  | .ok n => if p.fin then .error .commandError else writeBits v n p

/-- PK_WBITS (R183). -/
def execPkWbits (b : Byte) (s : State) : Host.Outcome State Fault Refusal :=
  commit (.pkWbits b) s ((pkWbits b (argOperand s) s.pk).map fun p => { s with pk := p })

/-- The packer after ENC_BYTE of a byte whose CODE entry is `c` (R184). -/
def encodeSymbol (c : CodeEntry) (p : Packer) : Except FaultKind Packer :=
  if p.fin then .error .commandError
  else if c.present = false then .error .unencodableByte
  else writeBits c.code c.len.toNat p

/-- ENC_BYTE (R184). -/
def execEncByte (b : Byte) (s : State) : Host.Outcome State Fault Refusal :=
  commit (.encByte b) s ((encodeSymbol (tget s.code b) s.pk).map fun p => { s with pk := p })

/-- The packer after PK_FINISH (R185). -/
def pkFinish (p : Packer) : Except FaultKind Packer :=
  if p.fin then .error .commandError else finishPacker p

/-- PK_FINISH (R185): RES = PK_BYTECOUNT and RESX = PK_PADBITS as they then are. -/
def execPkFinish (s : State) : Host.Outcome State Fault Refusal :=
  commit .pkFinish s ((pkFinish s.pk).map fun p => { s with
    pk := p
    res := p.byteCount
    resx := p.padBits.setWidth 64 })

end Sys2Proof.Machine
end

