-- ==== Sys2Proof/Machine/Canonical.lean ====
section
/-! DEFINITION. The canonical code assigner (44_canonical.md). -/

namespace Sys2Proof.Machine

/-- `count[L]`: how many symbols have length `l` (R161). -/
def lengthCount (lt : Table Byte) (l : Nat) : Nat := lt.cells.countP (fun x => x.toNat == l)

/-- `firstCode[L]` (R161): `firstCode[1] = 0`, and for L from 2
`firstCode[L] = (firstCode[L-1] +64 count[L-1]) << 1`, both mod 2^64 (R9). -/
def firstCode (lt : Table Byte) : Nat → Word
  | 0 => 0
  | 1 => 0
  | l + 2 => (firstCode lt (l + 1) + BitVec.ofNat 64 (lengthCount lt (l + 1))) <<< 1

/-- How many symbols below `s` have the same length as `s`: how often `next[L]` has been increased
when the loop of R161 comes to `s`. -/
def rankAmongEqual (lt : Table Byte) (s : Byte) : Nat :=
  (lt.cells.take s.toNat).countP (fun x => x == tget lt s)

/-- An absent entry of CODE (R41). -/
def absentCode : CodeEntry := { present := false, code := 0, len := 0 }

/-- The entry `C[s]` that R161 makes: `next[L]` starts at `firstCode[L]` and grows by 1 mod 2^64
with each symbol of length L, taken in ascending order. -/
def canonicalEntry (lt : Table Byte) (s : Byte) : CodeEntry :=
  if tget lt s = 0 then absentCode
  else
    { present := true
      code := firstCode lt (tget lt s).toNat + BitVec.ofNat 64 (rankAmongEqual lt s)
      len := tget lt s }

/-- The function `canonical(Lt)` (R161), as the code each symbol ends with. `canonicalLoop` below
is the rule's own loop (DEDUCED, notes/assumptions/5.md). -/
def canonical (lt : Table Byte) : Except FaultKind (Table CodeEntry) :=
  if lt.cells.any (fun l => 64 < l.toNat) then .error .invalidCanonicalTable
  else .ok (tbuild (canonicalEntry lt))

/-- The inner loop of R161 for one length `l`: over the symbols, `next` being `next[L]`. -/
def assignLength (lt : Table Byte) (l : Nat) : List Byte → Word → Table CodeEntry →
    Table CodeEntry
  | [], _, c => c
  | s :: rest, next, c =>
    if (tget lt s).toNat = l then
      assignLength lt l rest (next + 1)
        (tset c s { present := true, code := next, len := tget lt s })
    else assignLength lt l rest next c

/-- The two nested loops of R161 as they are written: "for L in 1..64 ascending", then "for s in
0..255 ascending with Lt[s] = L". -/
def canonicalLoop (lt : Table Byte) : Except FaultKind (Table CodeEntry) :=
  if lt.cells.any (fun l => 64 < l.toNat) then .error .invalidCanonicalTable
  else .ok ((List.range 64).foldl
    (fun c k => assignLength lt (k + 1) symbols (firstCode lt (k + 1)) c)
    (Table.fill absentCode))

/-- CA_FROM_LEN (R160). -/
def execCaFromLen (s : State) : Host.Outcome State Fault Refusal :=
  commit .caFromLen s ((canonical s.len).map fun c => { s with
    code := c
    res := BitVec.ofNat 64 (s.len.cells.countP (fun l => l ≠ 0)) })

/-- EN_CLEAR (R162). -/
def execEnClear (s : State) : Host.Outcome State Fault Refusal :=
  commit .enClear s (.ok { s with entries := [] })

/-- Appending an entry: "raises MalformedHeader when 256 entries are already held" (R163). -/
def pushEntry (e : Entry) (es : List Entry) : Except FaultKind (List Entry) :=
  if es.length = 256 then .error .malformedHeader else .ok (es ++ [e])

/-- EN_PUSH (R163). -/
def execEnPush (a b : Byte) (s : State) : Host.Outcome State Fault Refusal :=
  commit (.enPush a b) s
    ((pushEntry { sym := a, len := b } s.entries).map fun es => { s with entries := es })

/-- RD_ENTRY (R164): RES[15:8] = len, RES[7:0] = sym. -/
def execRdEntry (a : Byte) (s : State) : Host.Outcome State Fault Refusal :=
  commit (.rdEntry a) s
    ((entryOperand s a).map fun e => { s with res := (e.len ++ e.sym : BitVec 16).setWidth 64 })

/-- The length table of an entry list: `Lt[ENTRY[i].sym] := ENTRY[i].len` in order (R165). -/
def entryLengths (es : List Entry) : Table Byte :=
  es.foldl (fun t e => tset t e.sym e.len) (Table.fill 0)

/-- The codes of an entry list (R165): the length check over all entries, then the duplicate
check, then `canonical`. -/
def canonicalOfEntries (es : List Entry) : Except FaultKind (Table CodeEntry) :=
  if es.any (fun e => e.len = 0 ∨ 64 < e.len.toNat) then .error .invalidCanonicalTable
  else if ¬ (es.map Entry.sym).Nodup then .error .invalidCanonicalTable
  else canonical (entryLengths es)

/-- CA_FROM_ENTRIES (R165). -/
def execCaFromEntries (s : State) : Host.Outcome State Fault Refusal :=
  commit .caFromEntries s ((canonicalOfEntries s.entries).map fun c => { s with
    code := c
    res := BitVec.ofNat 64 s.enCount })

/-- RD_CODE (R166): RESX[8] = present, RESX[7:0] = len. -/
def execRdCode (a : Byte) (s : State) : Host.Outcome State Fault Refusal :=
  commit (.rdCode a) s (.ok { s with
    res := (tget s.code a).code
    resx := (BitVec.ofBool (tget s.code a).present ++ (tget s.code a).len).setWidth 64 })

end Sys2Proof.Machine
end

