-- ==== Sys2Proof/Machine/CodeLength.lean ====
section
/-! DEFINITION. The code-length derivator (43_code_length.md). -/

namespace Sys2Proof.Machine

/-- The walk of R150: each leaf below `n` writes its depth, `d` being the depth of `n`. The left
subtree is walked first; "The traversal order does not change the result". -/
def writeDepths : HuffmanNode → Byte → Table Byte → Table Byte
  | .leaf s _, d, t => tset t s d
  | .internal _ _ l r, d, t => writeDepths r (d + 1) (writeDepths l (d + 1) t)

/-- The length table of a tree, with the one-leaf tree's forced length 1 (R150). -/
def deriveLengths : Option HuffmanNode → Table Byte
  | none => Table.fill 0
  | some (.leaf s _) => tset (Table.fill 0) s 1
  | some (.internal w m l r) => writeDepths (.internal w m l r) 0 (Table.fill 0)

/-- "max over s of LEN[s]" (R150). -/
def maxLength (t : Table Byte) : Byte :=
  t.cells.foldl (fun m l => if m < l then l else m) 0

/-- LD_DERIVE (R150). -/
def execLdDerive (s : State) : Host.Outcome State Fault Refusal :=
  commit .ldDerive s (.ok { s with
    len := deriveLengths s.tree
    res := (maxLength (deriveLengths s.tree)).setWidth 64 })

/-- RD_LEN (R151). -/
def execRdLen (a : Byte) (s : State) : Host.Outcome State Fault Refusal :=
  commit (.rdLen a) s (.ok { s with res := (tget s.len a).setWidth 64 })

end Sys2Proof.Machine
end

