-- ==== Sys2Proof/Machine/Control.lean ====
section
/-! DEFINITION. The control commands (40_control.md). -/

namespace Sys2Proof.Machine

/-- NOP (R122). -/
def execNop (s : State) : Host.Outcome State Fault Refusal := commit .nop s (.ok s)

/-- RESET (R121). -/
def execReset (s : State) : Host.Outcome State Fault Refusal :=
  commit .reset s (.ok s.resetBlock)

end Sys2Proof.Machine
end

