-- ==== Sys2Proof/Machine/BitUnpacker.lean ====
section
/-! DEFINITION. The bit unpacker (46_bit_unpacker.md). -/

namespace Sys2Proof.Machine

/-- The bit at UP_POS: byte index `UP_POS >> 3`, mask `0x80 >> (UP_POS & 7)` (R45, R205). -/
def bitAtPos (u : Unpacker) : Bool := (u.buf.getD (u.pos / 8) 0).getLsbD (7 - u.pos % 8)

/-- `readBit()` (R205): none is END, which leaves UP_POS unchanged. -/
def readBit (u : Unpacker) : Option (Bool × Unpacker) :=
  if u.valid ≤ u.pos then none else some (bitAtPos u, { u with pos := u.pos + 1 })

/-- `n` turns of `v := (v << 1) | readBit()` (R204). -/
def accumulateBits : Nat → Word → Unpacker → Option (Word × Unpacker)
  | 0, v, u => some (v, u)
  | n + 1, v, u =>
    match readBit u with
    | none => none
    | some (b, u') => accumulateBits n ((v <<< 1) ||| (BitVec.ofBool b).setWidth 64) u'

/-- `readBits(n)` (R204): END, with nothing consumed, when fewer than `n` valid bits remain. -/
def readBits (n : Nat) (u : Unpacker) : Option (Word × Unpacker) :=
  if u.valid - u.pos < n then none else accumulateBits n 0 u

/-- What UP_RBIT and UP_RBITS write (R32, R203, R204): the value with END = 0, or RES = 0 with
END = 1. -/
def deliver (s : State) : Option (Word × Unpacker) → State
  | none => { s with res := 0, endFlag := true }
  | some (v, u) => { s with res := v, endFlag := false, up := u }

/-- IN_CLEAR (R200). -/
def execInClear (s : State) : Host.Outcome State Fault Refusal :=
  commit .inClear s (.ok { s with up := { buf := [], pad := 0, pos := 0 }, endFlag := false })

/-- The buffer after IN_PUSH (R201): CommandError when it holds IN_CAP bytes. -/
def pushByte (cfg : Config) (b : Byte) (u : Unpacker) : Except FaultKind Unpacker :=
  if u.inLen = cfg.inCap then .error .commandError else .ok { u with buf := u.buf ++ [b] }

/-- IN_PUSH (R201). -/
def execInPush (b : Byte) (s : State) : Host.Outcome State Fault Refusal :=
  commit (.inPush b) s ((pushByte s.cfg b s.up).map fun u => { s with up := u })

/-- UP_OPEN (R202). -/
def execUpOpen (a : Byte) (s : State) : Host.Outcome State Fault Refusal :=
  commit (.upOpen a) s ((padOperand a).map fun p =>
    { s with up := { s.up with pad := p, pos := 0 }, endFlag := false })

/-- UP_RBIT (R203). -/
def execUpRbit (s : State) : Host.Outcome State Fault Refusal :=
  commit .upRbit s (.ok (deliver s
    ((readBit s.up).map fun r => ((BitVec.ofBool r.1).setWidth 64, r.2))))

/-- UP_RBITS (R204). -/
def execUpRbits (b : Byte) (s : State) : Host.Outcome State Fault Refusal :=
  commit (.upRbits b) s ((countOperand b).map fun n => deliver s (readBits n s.up))

end Sys2Proof.Machine
end

