-- ==== Sys2Proof/Machine/DecodeTrie.lean ====
section
/-! DEFINITION. The decode trie and the symbol walker (47_decode_trie.md). -/

namespace Sys2Proof.Machine

/-- The empty trie (R48, R220). -/
def emptyTrie : TrieNode := .inner .empty .empty

/-- `insert` (R221), at the node reached so far with the bits still to come: the new node, and by
how many nodes `count` grows; none where the rule fails. An Empty place on the way becomes an
Inner, and an Empty place at the end becomes the leaf. -/
def insertAt (s : Byte) : List Bool → TrieNode → Option (TrieNode × Nat)
  | [], .empty => some (.leaf s, 1)
  | [], .leaf _ => none
  | [], .inner _ _ => none
  | false :: bs, .empty => (insertAt s bs .empty).map fun r => (.inner r.1 .empty, r.2 + 1)
  | true :: bs, .empty => (insertAt s bs .empty).map fun r => (.inner .empty r.1, r.2 + 1)
  | _ :: _, .leaf _ => none
  | false :: bs, .inner l r => (insertAt s bs l).map fun x => (.inner x.1 r, x.2)
  | true :: bs, .inner l r => (insertAt s bs r).map fun x => (.inner l x.1, x.2)

/-- The meaningful bits of a code entry, first bit first: c[len-1] .. c[0] (R168, R221). -/
def meaningfulBits (c : CodeEntry) : List Bool := bitsMsb c.code c.len.toNat

/-- The loop of DT_BUILD over the symbols still to insert (R220), with `T` and `count`. -/
def insertAll (code : Table CodeEntry) : List Byte → TrieNode × Nat →
    Except FaultKind (TrieNode × Nat)
  | [], acc => .ok acc
  | s :: rest, (t, count) =>
    if (tget code s).present then
      match insertAt s (meaningfulBits (tget code s)) t with
      | some (t', k) => insertAll code rest (t', count + k)
      | none => .error .invalidCanonicalTable
    else insertAll code rest (t, count)

/-- The trie of a CODE table and its node count (R220). -/
def buildTrie (code : Table CodeEntry) : Except FaultKind (TrieNode × Nat) :=
  insertAll code symbols (emptyTrie, 1)

/-- DT_BUILD (R220). -/
def execDtBuild (s : State) : Host.Outcome State Fault Refusal :=
  commit .dtBuild s ((buildTrie s.code).map fun r => { s with
    trie := r.1
    trieNodes := BitVec.ofNat 64 r.2
    res := BitVec.ofNat 64 r.2 })

/-- `emit_DEC` (R223). -/
def emitDec (b : Byte) (d : DecodeOut) : Except FaultKind DecodeOut :=
  if d.count = maxCount then .error .countOverflow
  else .ok { out := d.out ++ [b], count := d.count + 1 }

/-- The walk of R224, from the node the latest bit led to (at first the root, which is an Inner,
R48; DEDUCED, notes/assumptions/8.md): the symbol at the leaf reached, and the unpacker after the bits
read. -/
def walk : TrieNode → Unpacker → Except FaultKind (Byte × Unpacker)
  | .empty, _ => .error .unmappedCode
  | .leaf s, u => .ok (s, u)
  | .inner l r, u =>
    match readBit u with
    | none => .error .truncatedBitstream
    | some (false, u') => walk l u'
    | some (true, u') => walk r u'

/-- Decoding one symbol (R224): the walk from the root, then `emit_DEC`. -/
def decodeSymbol (t : TrieNode) (u : Unpacker) (d : DecodeOut) :
    Except FaultKind (Byte × Unpacker × DecodeOut) :=
  match walk t u with
  | .error k => .error k
  | .ok (b, u') => (emitDec b d).map fun d' => (b, u', d')

/-- `n` turns of DEC_RUN's loop (R225). DEC_COUNT starts at 0 and each turn adds 1, so the loop
"while DEC_COUNT < N" makes N turns (DEDUCED, notes/assumptions/16.md). -/
def decodeSymbols (t : TrieNode) : Nat → Unpacker → DecodeOut →
    Except FaultKind (Unpacker × DecodeOut)
  | 0, u, d => .ok (u, d)
  | n + 1, u, d =>
    match decodeSymbol t u d with
    | .error k => .error k
    | .ok (_, u', d') => decodeSymbols t n u' d'

/-- DEC_SYM (R224). -/
def execDecSym (s : State) : Host.Outcome State Fault Refusal :=
  commit .decSym s ((decodeSymbol s.trie s.up s.dec).map fun r =>
    { s with res := r.1.setWidth 64, up := r.2.1, dec := r.2.2 })

/-- DEC_RUN (R225): DEC_OUT emptied, DEC_COUNT zeroed, then ARG symbols. -/
def execDecRun (s : State) : Host.Outcome State Fault Refusal :=
  commit .decRun s
    ((decodeSymbols s.trie (argOperand s).toNat s.up { out := [], count := 0 }).map fun r =>
      { s with up := r.1, dec := r.2, res := r.2.count })

end Sys2Proof.Machine
end

