-- ==== Sys2Proof/Machine/FrequencyCounter.lean ====
section
/-! DEFINITION. The frequency counter (41_frequency_counter.md). -/

namespace Sys2Proof.Machine

/-- FREQ and TOTAL all zero (R130). -/
def freqCleared : FreqCounter := { freq := Table.fill 0, total := 0 }

/-- Counting one byte (R131). -/
def countByte (b : Byte) (f : FreqCounter) : Except FaultKind FreqCounter :=
  if f.total = maxCount then .error .countOverflow
  else .ok { freq := tset f.freq b (tget f.freq b + 1), total := f.total + 1 }

/-- FC_CLEAR (R130). -/
def execFcClear (s : State) : Host.Outcome State Fault Refusal :=
  commit .fcClear s (.ok { s with fc := freqCleared })

/-- FC_BYTE (R131). -/
def execFcByte (b : Byte) (s : State) : Host.Outcome State Fault Refusal :=
  commit (.fcByte b) s ((countByte b s.fc).map fun f => { s with fc := f })

/-- RD_FREQ (R132). -/
def execRdFreq (a : Byte) (s : State) : Host.Outcome State Fault Refusal :=
  commit (.rdFreq a) s (.ok { s with res := tget s.fc.freq a })

end Sys2Proof.Machine
end

