-- ==== Sys2Proof/Machine/TreeBuilder.lean ====
section
/-! DEFINITION. The Huffman tree builder (42_tree_builder.md). -/

namespace Sys2Proof.Machine

/-- The weight of a tree node (R38). -/
def nodeWeight : HuffmanNode → Word
  | .leaf _ w => w
  | .internal w _ _ _ => w

/-- The minSymbol of a tree node; "A leaf's minSym is its symbol" (R38, R140). -/
def nodeMinSym : HuffmanNode → Byte
  | .leaf s _ => s
  | .internal _ m _ _ => m

/-- The arbiter order (R140): `lex` on (weight, minSym), both unsigned (R9). -/
def keyLt (a b : HuffmanNode) : Bool :=
  nodeWeight a < nodeWeight b ∨ (nodeWeight a = nodeWeight b ∧ nodeMinSym a < nodeMinSym b)

/-- The node of smallest key among `a` and `rest`, and the other nodes. -/
def extractMin (a : HuffmanNode) : List HuffmanNode → HuffmanNode × List HuffmanNode
  | [] => (a, [])
  | b :: rest =>
    let (m, others) := extractMin b rest
    if keyLt m a then (m, a :: others) else (a, b :: rest)

/-- The node made from the first extracted (left) and the second (right) (R141). -/
def mergeNodes (a b : HuffmanNode) : HuffmanNode :=
  .internal (nodeWeight a + nodeWeight b)
    (if nodeMinSym a < nodeMinSym b then nodeMinSym a else nodeMinSym b) a b

/-- One turn of R141's loop: the two nodes of smallest key become one. -/
def mergeStep : List HuffmanNode → List HuffmanNode
  | a :: b :: rest =>
    match extractMin a (b :: rest) with
    | (x, c :: others) =>
      let (y, others') := extractMin c others
      mergeNodes x y :: others'
    | (x, []) => [x]
  | live => live

/-- `n` turns of the loop. A turn leaves a list of one node as it is, and "The loop runs exactly
n − 1 times" (R141). -/
def mergeTurns : Nat → List HuffmanNode → List HuffmanNode
  | 0, live => live
  | n + 1, live => mergeTurns n (mergeStep live)

/-- The leaves R141 begins with: one per symbol of non-zero frequency. -/
def presentLeaves (freq : Table Word) : List HuffmanNode :=
  symbols.filterMap fun s =>
    if tget freq s = 0 then none else some (.leaf s (tget freq s))

/-- The tree of a frequency table; none when no symbol is present (R141). -/
def buildTree (freq : Table Word) : Option HuffmanNode :=
  (mergeTurns ((presentLeaves freq).length - 1) (presentLeaves freq)).head?

/-- TB_BUILD (R141). -/
def execTbBuild (s : State) : Host.Outcome State Fault Refusal :=
  commit .tbBuild s (.ok { s with
    tree := buildTree s.fc.freq
    res := BitVec.ofNat 64 (presentLeaves s.fc.freq).length })

end Sys2Proof.Machine
end

