-- ==== Sys2Proof/Machine/Dispatch.lean ====
section
/-! DEFINITION. The meaning of each command: "execute the rule of d.OPC" (40_control.md R120). The
gate that R120 puts before it is Sys2Proof/Machine/CommandGate.lean. -/

namespace Sys2Proof.Machine

def exec (i : Instr) (s : State) : Host.Outcome State Fault Refusal :=
  match i with
  | .nop => Sys2Proof.Machine.execNop s
  | .reset => Sys2Proof.Machine.execReset s
  | .fcClear => Sys2Proof.Machine.execFcClear s
  | .fcByte b => Sys2Proof.Machine.execFcByte b s
  | .rdFreq a => Sys2Proof.Machine.execRdFreq a s
  | .tbBuild => Sys2Proof.Machine.execTbBuild s
  | .ldDerive => Sys2Proof.Machine.execLdDerive s
  | .rdLen a => Sys2Proof.Machine.execRdLen a s
  | .caFromLen => Sys2Proof.Machine.execCaFromLen s
  | .enClear => Sys2Proof.Machine.execEnClear s
  | .enPush a b => Sys2Proof.Machine.execEnPush a b s
  | .rdEntry a => Sys2Proof.Machine.execRdEntry a s
  | .caFromEntries => Sys2Proof.Machine.execCaFromEntries s
  | .rdCode a => Sys2Proof.Machine.execRdCode a s
  | .pkInit => Sys2Proof.Machine.execPkInit s
  | .pkWbit a => Sys2Proof.Machine.execPkWbit a s
  | .pkWbits b => Sys2Proof.Machine.execPkWbits b s
  | .encByte b => Sys2Proof.Machine.execEncByte b s
  | .pkFinish => Sys2Proof.Machine.execPkFinish s
  | .inClear => Sys2Proof.Machine.execInClear s
  | .inPush b => Sys2Proof.Machine.execInPush b s
  | .upOpen a => Sys2Proof.Machine.execUpOpen a s
  | .upRbit => Sys2Proof.Machine.execUpRbit s
  | .upRbits b => Sys2Proof.Machine.execUpRbits b s
  | .dtBuild => Sys2Proof.Machine.execDtBuild s
  | .decSym => Sys2Proof.Machine.execDecSym s
  | .decRun => Sys2Proof.Machine.execDecRun s

end Sys2Proof.Machine
end

