-- ==== Sys2Proof/Machine/Registers.lean ====
section
/-! DEFINITION. The register window: its map and what each register reads as (10_state.md R26,
20_memory.md R63 to R66). -/

namespace Sys2Proof.Machine

/-- The sixteen registers of the window (R26). -/
inductive Reg where
  | cmd | arg | res | resx | status | id | total | pkCtl
  | pkByteCount | inLen | upPos | upCtl | upValid | enCount | trieNodes | decCount
deriving DecidableEq, Repr

/-- The register at a byte offset (R26); none at a reserved one (R27). -/
def regAt : Nat → Option Reg
  | 0x00 => some .cmd
  | 0x08 => some .arg
  | 0x10 => some .res
  | 0x18 => some .resx
  | 0x20 => some .status
  | 0x28 => some .id
  | 0x30 => some .total
  | 0x38 => some .pkCtl
  | 0x40 => some .pkByteCount
  | 0x48 => some .inLen
  | 0x50 => some .upPos
  | 0x58 => some .upCtl
  | 0x60 => some .upValid
  | 0x68 => some .enCount
  | 0x70 => some .trieNodes
  | 0x78 => some .decCount
  | _ => none

/-- What a host read of a register returns (R26); "A read of CMD returns 0" (R66). -/
def State.readReg (s : State) : Reg → Word
  | .cmd => 0
  | .arg => s.arg
  | .res => s.res
  | .resx => s.resx
  | .status => s.status
  | .id => idConstant
  | .total => s.fc.total
  | .pkCtl => s.pk.ctl
  | .pkByteCount => s.pk.byteCount
  | .inLen => BitVec.ofNat 64 s.up.inLen
  | .upPos => s.up.posMirror
  | .upCtl => s.up.ctl
  | .upValid => s.up.validMirror
  | .enCount => BitVec.ofNat 64 s.enCount
  | .trieNodes => s.trieNodes
  | .decCount => s.dec.count

/-- The byte of the window at a byte address: "Byte k of the register at offset o is at byte
address o + k and holds bits [8k+7:8k]" (R64). No access is this narrow; it says how a register
lies in the window. -/
def State.windowByte (s : State) (address : Nat) : Option Byte :=
  (regAt (address - address % 8)).map fun r =>
    (s.readReg r).extractLsb' (8 * (address % 8)) 8

/-- The checks of R63 and R65 that every access passes or is refused by, in the order R65 lists
them: the width, the alignment, the offset (DESIGN CHOICE, notes/assumptions/11.md). -/
def checkAccess (offset width : Nat) : Except Refusal Reg :=
  if width ≠ 64 then .error .accessWidth
  else if offset % 8 ≠ 0 then .error .accessMisaligned
  else match regAt offset with
    | none => .error .accessReserved
    | some r => .ok r

end Sys2Proof.Machine
end

