-- ==== Sys2Proof/Machine/CommandGate.lean ====
section
/-! DEFINITION. The command gate (40_control.md R120) and one access of the host to the block
(20_memory.md R63 to R66, 70_reset_and_hazards.md R342). -/

namespace Sys2Proof.Machine

/-- The exact RESET word, `0x0000_0000_0100_0000` (R120). -/
def resetWord : Word := 0x0000000001000000

/-- A host write `x` to CMD: the function `step(x)` of R120. The gate is here and not in `exec`
(DESIGN CHOICE, notes/assumptions/7.md). -/
def writeCmd (x : Word) (s : State) : Host.Outcome State Fault Refusal :=
  if s.latch.fault then
    if x = resetWord then exec .reset s else .next s
  else match decode x with
    | .error _ => .next (s.raise .commandError (cmdOpc x))
    | .ok i => exec i s

/-- A host write of `v` to a register: CMD takes a command (R25), ARG all 64 bits (R22), and a
write to any other register is refused (R65). -/
def writeReg (r : Reg) (v : Word) (s : State) : Host.Outcome State Fault Refusal :=
  match r with
  | .cmd => writeCmd v s
  | .arg => .next { s with arg := v }
  | .res | .resx | .status | .id | .total | .pkCtl | .pkByteCount | .inLen | .upPos | .upCtl
  | .upValid | .enCount | .trieNodes | .decCount => .refused .accessReadOnly

/-- One access of the host. A read has no side effect (R66), a write is complete when its effect is
in place (R71), and a stream is seen "as the whole byte sequence since it was last emptied"
(R61). -/
def hostAccess (a : Access) (s : State) : Host.Outcome State Fault Refusal :=
  match a with
  | .read offset width =>
    match checkAccess offset width with
    | .ok r => .next { s with answer := .value (s.readReg r) }
    | .error e => .refused e
  | .write offset width v =>
    match checkAccess offset width with
    | .ok r => writeReg r v { s with answer := .complete }
    | .error e => .refused e
  | .readPkOut => .next { s with answer := .stream s.pk.out }
  | .readDecOut => .next { s with answer := .stream s.dec.out }
  | .hardReset => .next { s.resetBlock with answer := .complete }

/-- One step: the host's next access, taken off the list before it has its effect. With no access
to come the block "holds its state unchanged" (R316). -/
def nextAccess (s : State) : Host.Outcome State Fault Refusal :=
  match s.pending with
  | [] => .next s
  | a :: rest => hostAccess a { s with pending := rest }

/-- The access that writes command word `w`, its bits numbered as the opcode table numbers them and
every bit above `nbits` 0, to CMD at offset 0x00. -/
def tableWordAccess (nbits w : Nat) : Access := .write 0x00 64 (BitVec.ofNat 64 (w % 2 ^ nbits))

end Sys2Proof.Machine
end

