-- ==== Sys2Proof/Machine/Step.lean ====
section
/-! DEFINITION. One step of the machine. The block has no program counter and fetches nothing
(10_state.md R21, 20_memory.md R74): a step is the host's next access. -/

namespace Sys2Proof.Machine

/-- One step: the host's next access (R72). -/
def step (s : State) : Host.Outcome State Fault Refusal := nextAccess s

/-- The state in which the host's next access writes this command word to CMD. -/
def State.withFetchWord (s : State) (nbits w : Nat) : State :=
  { s with pending := tableWordAccess nbits w :: s.pending }

end Sys2Proof.Machine
end

