-- ==== Sys2Proof/Machine/Container.lean ====
section
/-! DEFINITION. The container the host writes and parses (48_host_container.md R240 to R244). "The
block never sees it": nothing in `step` uses this file. The caller's streams and the whole operations
(R245, R246) are in HostOperations.lean. -/

namespace Sys2Proof.Machine

/-- The fields of a container (R240) but for magic, version, extensionLength and symbolCount, which
the other fields and the format fix. -/
structure Container where
  originalSize : Word
  extension : List Byte
  table : List Entry
  padBits : Byte
  payload : List Byte
deriving DecidableEq, Repr

/-- The violations the host's parser reports (R243). -/
inductive ParseError where
  | truncatedField | badMagic | unsupportedVersion | symbolCount | codeLength | padBits
deriving DecidableEq, Repr

/-- The kind of a violation: the host "fails with MalformedHeader" at each (R243). -/
def parseErrorKind : ParseError → FaultKind
  | .truncatedField | .badMagic | .unsupportedVersion | .symbolCount | .codeLength
  | .padBits => .malformedHeader

/-- The magic, ASCII "HZIP" (R240). -/
def magicBytes : List Byte := [0x48, 0x5A, 0x49, 0x50]

/-- The version byte (R240). -/
def versionByte : Byte := 0x01

/-- The `n` bytes of a little-endian integer (R240). -/
def littleEndian : Nat → Nat → List Byte
  | 0, _ => []
  | n + 1, v => BitVec.ofNat 8 v :: littleEndian n (v / 256)

/-- The value of little-endian bytes. -/
def littleEndianValue : List Byte → Nat
  | [] => 0
  | b :: bs => b.toNat + 256 * littleEndianValue bs

/-- The table as bytes: "K pairs (symbol: 1 byte, codeLength: 1 byte)" (R240). -/
def tableBytes : List Entry → List Byte
  | [] => []
  | e :: es => e.sym :: e.len :: tableBytes es

/-- The pairs of a table read from its bytes. -/
def entriesOfBytes : List Byte → List Entry
  | s :: l :: rest => { sym := s, len := l } :: entriesOfBytes rest
  | _ => []

/-- What a container's fields satisfy (R240): the widths of extensionLength and symbolCount, the
range of each codeLength and of padBits. -/
abbrev Container.Wf (c : Container) : Prop :=
  c.extension.length ≤ 255 ∧ c.table.length ≤ 256 ∧
    (∀ e ∈ c.table, 1 ≤ e.len.toNat ∧ e.len.toNat ≤ 64) ∧ c.padBits.toNat ≤ 7

/-- Everything before the payload, "17 + E + 2·K bytes long" (R240). -/
def headerBytes (c : Container) : List Byte :=
  magicBytes ++ [versionByte] ++ littleEndian 8 c.originalSize.toNat ++
    littleEndian 1 c.extension.length ++ c.extension ++ littleEndian 2 c.table.length ++
    tableBytes c.table ++ [c.padBits]

/-- The container's bytes; none where the host refuses to write: an extension longer than 255 bytes
(R242), or a length outside the format, which R241 forbids. -/
def writeContainer (c : Container) : Option (List Byte) :=
  if c.Wf then some (headerBytes c ++ c.payload) else none

/-- The next field of `n` bytes, and the rest; "truncated field" where there are fewer (R243). -/
def takeField (n : Nat) (bytes : List Byte) : Except ParseError (List Byte × List Byte) :=
  if bytes.length < n then .error .truncatedField else .ok (bytes.take n, bytes.drop n)

/-- A check of R243. -/
def require (ok : Bool) (e : ParseError) : Except ParseError Unit :=
  if ok then .ok () else .error e

/-- The host's parser, in field order (R243). Field 7 is taken whole before its lengths are looked at
(DEDUCED, notes/assumptions/14.md). -/
def parseContainer (bytes : List Byte) : Except ParseError Container := do
  let (magic, r1) ← takeField 4 bytes
  require (magic == magicBytes) .badMagic
  let (version, r2) ← takeField 1 r1
  require (version == [versionByte]) .unsupportedVersion
  let (size, r3) ← takeField 8 r2
  let (extLen, r4) ← takeField 1 r3
  let (ext, r5) ← takeField (littleEndianValue extLen) r4
  let (count, r6) ← takeField 2 r5
  require (littleEndianValue count ≤ 256) .symbolCount
  let (table, r7) ← takeField (2 * littleEndianValue count) r6
  require ((entriesOfBytes table).all fun e => 1 ≤ e.len.toNat && e.len.toNat ≤ 64) .codeLength
  let (pad, payload) ← takeField 1 r7
  require (littleEndianValue pad ≤ 7) .padBits
  .ok { originalSize := BitVec.ofNat 64 (littleEndianValue size)
        extension := ext
        table := entriesOfBytes table
        padBits := BitVec.ofNat 8 (littleEndianValue pad)
        payload := payload }

end Sys2Proof.Machine
end

