-- ==== Sys2Proof/Machine/HostPrograms.lean ====
section
/-! DEFINITION. The sequences of accesses the host issues: the pseudo-instructions of R99 and the
mandatory orders of compression and decompression (70_reset_and_hazards.md R335, R338). -/

namespace Sys2Proof.Machine

/-- Writing a command to CMD (R25). -/
def command (i : Instr) : Access := .write 0x00 64 (cmdWord i)

/-- `ARG <- v` (R98). -/
def argWrite (v : Word) : Access := .write 0x08 64 v

/-- Reading the register at an offset (R98's `READ <register>`). -/
def registerRead (offset : Nat) : Access := .read offset 64

/-- A register's name (R26). -/
def Reg.name : Reg → String
  | .cmd => "CMD"
  | .arg => "ARG"
  | .res => "RES"
  | .resx => "RESX"
  | .status => "STATUS"
  | .id => "ID"
  | .total => "TOTAL"
  | .pkCtl => "PK_CTL"
  | .pkByteCount => "PK_BYTECOUNT"
  | .inLen => "IN_LEN"
  | .upPos => "UP_POS"
  | .upCtl => "UP_CTL"
  | .upValid => "UP_VALID"
  | .enCount => "EN_COUNT"
  | .trieNodes => "TRIE_NODES"
  | .decCount => "DEC_COUNT"

/-- A host access as a line of assembly (R98); none where the access has no such line: a word that is
no command, a write the block refuses, a stream read or a reset. -/
def accessLine : Access → Option String
  | .read offset 64 => (regAt offset).map fun r => "READ " ++ r.name
  | .write 0x08 64 v => some ("ARG <- 0x" ++ String.ofList (hexDigits 16 v.toNat))
  | .write 0x00 64 x => (decode x).toOption.map Instr.assembly
  | .read _ _ | .write _ _ _ | .readPkOut | .readDecOut | .hardReset => none

/-- The host's boot duties (R332): reset, then ID and STATUS. -/
def bootAccesses : List Access := [.hardReset, registerRead 0x28, registerRead 0x20]

/-! The pseudo-instructions (R99). -/

/-- `PK_WBITS_V v, n`. -/
def pkWbitsV (v : Word) (n : Byte) : List Access := [argWrite v, command (.pkWbits n)]

/-- `DEC_RUN_N n`. -/
def decRunN (n : Word) : List Access := [argWrite n, command .decRun]

/-- `COUNT_BYTES b0, …, bk`. -/
def countBytes (bs : List Byte) : List Access := bs.map fun b => command (.fcByte b)

/-- `ENC_BYTES b0, …, bk`. -/
def encBytes (bs : List Byte) : List Access := bs.map fun b => command (.encByte b)

/-- `LOAD_ENTRIES (s0,l0), …, (sk,lk)`. -/
def loadEntries (es : List Entry) : List Access :=
  command .enClear :: es.map fun e => command (.enPush e.sym e.len)

/-- `LOAD_PAYLOAD p, b0, …, bk`. -/
def loadPayload (p : Byte) (bs : List Byte) : List Access :=
  command .inClear :: (bs.map fun b => command (.inPush b)) ++ [command (.upOpen p)]

/-- `BUILD_CODES`. -/
def buildCodes : List Access := [command .tbBuild, command .ldDerive, command .caFromLen]

/-! The mandatory orders. -/

/-- Compression's first pass over `bytes` and the code build after it (R335). -/
def countingAccesses (bytes : List Byte) : List Access :=
  [command .reset] ++ countBytes bytes ++ buildCodes

/-- Compression's second pass over `bytes` (R187, R335). -/
def packingAccesses (bytes : List Byte) : List Access :=
  [command .pkInit] ++ encBytes bytes ++ [command .pkFinish]

/-- Compression of `bytes` (R335). -/
def compressAccesses (bytes : List Byte) : List Access :=
  countingAccesses bytes ++ packingAccesses bytes

/-- Decompression of a parsed container (R245, R338). -/
def decompressAccesses (c : Container) : List Access :=
  [command .reset] ++ loadEntries c.table ++ [command .caFromEntries, command .dtBuild] ++
    loadPayload c.padBits c.payload ++ decRunN c.originalSize

/-- The container of a finished compression (R241), from the state PK_FINISH leaves: originalSize
is TOTAL, the table the pairs (s, LEN[s]) of the present symbols in ascending order, padBits the
RESX of PK_FINISH, and the payload PK_OUT. -/
def compressedContainer (s : State) (extension : List Byte) : Container where
  originalSize := s.fc.total
  extension := extension
  table := (symbols.filter fun a => tget s.len a ≠ 0).map fun a => { sym := a, len := tget s.len a }
  padBits := s.resx.setWidth 8
  payload := s.pk.out

end Sys2Proof.Machine
end

