-- ==== Sys2Proof/Machine/HostOperations.lean ====
section
/-! DEFINITION. The host's two whole operations, with the caller's streams, which can fail
(48_host_container.md R241 to R246, 70_reset_and_hazards.md R335, R338, R341). Nothing in `step` uses
this file. -/

namespace Sys2Proof.Machine

/-- Whether a caller-provided stream gives or takes all its bytes, or fails on the way (R246). -/
inductive StreamOutcome where
  | delivers | fails
deriving DecidableEq, Repr

/-- Why a host operation ends without output. -/
inductive HostStop where
  /-- The host's own report: MalformedHeader (R243) or IOFailure (R246). -/
  | host (k : FaultKind)
  /-- The block latched a fault: STATUS.ERRKIND and STATUS.ERROP, which the host reads (R341). -/
  | block (errKind : BitVec 4) (errOp : Byte)
  /-- The host refuses to write the container (R242). -/
  | refusedContainer
  /-- The block refused an access; none of the host's own sequences makes such a one (R65). -/
  | refusedAccess (r : Refusal)
deriving DecidableEq, Repr

/-- Bytes that go through a caller's stream, read from it or written to it: "a failure of a
caller-provided stream, in either reading or writing" is IOFailure (R246). How many bytes went before
the failure does not matter: it "aborts the whole operation, and no partial output is valid". -/
def transfer (o : StreamOutcome) (bytes : List Byte) : Except HostStop (List Byte) :=
  match o with
  | .delivers => .ok bytes
  | .fails => .error (.host .ioFailure)

/-- The accesses in turn, each as a step makes it. -/
def runAccesses : List Access → State → Host.Outcome State Fault Refusal
  | [], s => .next s
  | a :: rest, s =>
    match hostAccess a s with
    | .next t => runAccesses rest t
    | .fault f => .fault f
    | .refused r => .refused r

/-- The state a run ends in when it is good: "only when STATUS.FAULT = 0 in its final state" (R341). -/
def goodRun (accesses : List Access) (s : State) : Except HostStop State :=
  match runAccesses accesses s with
  | .next t =>
    if t.latch.fault then .error (.block t.latch.errKind t.latch.errOp) else .ok t
  | .fault f => nomatch f
  | .refused r => .error (.refusedAccess r)

/-- Writing a container to the caller: the bytes written, or the stop. -/
def writeToCaller (o : StreamOutcome) (c : Container) : Except HostStop (List Byte) :=
  match writeContainer c with
  | none => .error .refusedContainer
  | some bytes => transfer o bytes

/-- Compression of a caller's stream (R241, R335): it is read once to count and once to pack, and the
container is written to the caller. -/
def compressFile (s : State) (input extension : List Byte) (first second output : StreamOutcome) :
    Except HostStop (List Byte) := do
  let pass1 ← transfer first input
  let counted ← goodRun (countingAccesses pass1) s
  let pass2 ← transfer second input
  let packed ← goodRun (packingAccesses pass2) counted
  writeToCaller output (compressedContainer packed extension)

/-- Decompression of a caller's container (R243, R245, R338): the extension, which "goes back to the
caller unchanged", and the decoded bytes. -/
def decompressFile (s : State) (input : List Byte) (source output : StreamOutcome) :
    Except HostStop (List Byte × List Byte) := do
  let bytes ← transfer source input
  match parseContainer bytes with
  | .error e => .error (.host (parseErrorKind e))
  | .ok c =>
    let t ← goodRun (decompressAccesses c) s
    let decoded ← transfer output t.dec.out
    .ok (c.extension, decoded)

end Sys2Proof.Machine
end

