-- ==== Sys2Proof/Safety.lean ====
section
/-! DEFINITION. What counts as a safe run and the terms the claims are stated in: the invariants
the spec gives the state (10_state.md), and the bit strings, depths and counts its rules speak of. -/

namespace Sys2Proof.Machine

/-- "A run is good only when STATUS.FAULT = 0 in its final state" (R341). -/
def GoodEnd (s : State) : Prop := s.latch.fault = false

/-! Trees and lengths. -/

/-- The symbols at the leaves of a tree, left to right. -/
def leafSyms : HuffmanNode → List Byte
  | .leaf s _ => [s]
  | .internal _ _ l r => leafSyms l ++ leafSyms r

/-- The leaves of a tree with their depths, `d` being the depth of the tree's root. -/
def leafDepths : HuffmanNode → Nat → List (Byte × Nat)
  | .leaf s _, d => [(s, d)]
  | .internal _ _ l r, d => leafDepths l (d + 1) ++ leafDepths r (d + 1)

/-- The symbols a frequency table counts at least once. -/
def presentSyms (freq : Table Word) : List Byte := symbols.filter fun s => tget freq s ≠ 0

/-- `Σ_{Lt[s] > 0} 2^(−Lt[s])` (R152, R167), counted in units of `2^(−255)`. -/
def kraftSum (lt : Table Byte) : Nat :=
  (lt.cells.map fun l => if l = 0 then 0 else 2 ^ (255 - l.toNat)).sum

/-! Bit strings. -/

/-- The bits of a byte, bit 7 first (R67). -/
def byteBits (b : Byte) : List Bool := bitsMsb (b.setWidth 64) 8

/-- Every bit written to the packer and still held: the whole bytes of PK_OUT, then the partial byte
(R43). -/
def packedBits (p : Packer) : List Bool :=
  p.out.flatMap byteBits ++ bitsMsb (p.acc.setWidth 64) p.nbits.toNat

/-- The bits the unpacker has still to give: those of IN_BUF from UP_POS up to UP_VALID (R46). -/
def upcomingBits (u : Unpacker) : List Bool :=
  ((u.buf.flatMap byteBits).take u.valid).drop u.pos

/-- The number whose bits, most significant first, are `bs`. -/
def bitsValue (bs : List Bool) : Nat := bs.foldl (fun v b => 2 * v + b.toNat) 0

/-- The node a bit string leads to: 0 goes left and 1 right (R221). -/
def nodeAt : TrieNode → List Bool → Option TrieNode
  | n, [] => some n
  | .inner l _, false :: bs => nodeAt l bs
  | .inner _ r, true :: bs => nodeAt r bs
  | .empty, _ :: _ => none
  | .leaf _, _ :: _ => none

/-- No meaningful bit string of a present code begins another one's (R167, R222). -/
def CodesPrefixFree (code : Table CodeEntry) : Prop :=
  ∀ a b : Byte, a ≠ b → (tget code a).present = true → (tget code b).present = true →
    ¬ meaningfulBits (tget code a) <+: meaningfulBits (tget code b)

/-- The packer after ENC_BYTE of each byte in turn (R187). -/
def encodeBytes (code : Table CodeEntry) : List Byte → Packer → Except FaultKind Packer
  | [], p => .ok p
  | b :: bs, p =>
    match encodeSymbol (tget code b) p with
    | .ok q => encodeBytes code bs q
    | .error k => .error k

/-- The frequency counter after FC_BYTE of each byte in turn (R133). -/
def countAll : List Byte → FreqCounter → Except FaultKind FreqCounter
  | [], f => .ok f
  | b :: bs, f =>
    match countByte b f with
    | .ok g => countAll bs g
    | .error k => .error k

/-- "the root and every `Inner` and `TLeaf` node; `Empty` is not counted" (R48). -/
def trieCount : TrieNode → Nat
  | .empty => 0
  | .leaf _ => 1
  | .inner l r => 1 + trieCount l + trieCount r

/-- How many bits lead from a node to the deepest place below it. -/
def trieDepth : TrieNode → Nat
  | .empty => 0
  | .leaf _ => 0
  | .inner l r => 1 + max (trieDepth l) (trieDepth r)

/-- A tree's nodes: its root and every node below it. -/
def treeNodes : HuffmanNode → List HuffmanNode
  | .leaf s w => [.leaf s w]
  | .internal w m l r => .internal w m l r :: (treeNodes l ++ treeNodes r)

/-- Key order (R140), spelt out: weight first, then minSym, as unsigned values. -/
def KeyBelow (a b : HuffmanNode) : Prop :=
  (nodeWeight a).toNat < (nodeWeight b).toNat ∨
    ((nodeWeight a).toNat = (nodeWeight b).toNat ∧
      (nodeMinSym a).toNat < (nodeMinSym b).toNat)

/-! Invariants. -/

/-- R29: "ERRKIND = 0 exactly when FAULT = 0", and a latched code is one that a command can raise
(R300, R304); R28: ERROP is 0 when FAULT = 0. -/
def LatchOk (l : FaultLatch) : Prop :=
  (l.errKind = 0 ↔ l.fault = false) ∧ (l.fault = false → l.errOp = 0) ∧
    (l.fault = true → l.errKind ∈ ([1, 2, 3, 4, 6, 7, 8] : List (BitVec 4)))

/-- R37: "TOTAL = Σ_s FREQ[s]". -/
def FreqOk (f : FreqCounter) : Prop := f.total.toNat = (f.freq.cells.map BitVec.toNat).sum

/-- R38: "The leaves carry distinct symbols". -/
def TreeOk (t : Option HuffmanNode) : Prop := ∀ n ∈ t, (leafSyms n).Nodup

/-- R41: "present = 1 implies 1 ≤ len ≤ 64; present = 0 implies code = 0 and len = 0". -/
def CodeOk (code : Table CodeEntry) : Prop :=
  ∀ e ∈ code.cells,
    (e.present = true → 1 ≤ e.len.toNat ∧ e.len.toNat ≤ 64) ∧
      (e.present = false → e.code = 0 ∧ e.len = 0)

/-- R42: "with `EN_COUNT` in 0..256". -/
def EntriesOk (es : List Entry) : Prop := es.length ≤ 256

/-- R43: "PK_BYTECOUNT = length(PK_OUT)", and of PK_ACC "The low PK_NBITS bits hold the bits written
so far … The other bits are 0". -/
def PackerOk (p : Packer) : Prop :=
  p.byteCount.toNat = p.out.length ∧ p.acc.toNat < 2 ^ p.nbits.toNat

/-- R44: "IN_LEN ≤ IN_CAP"; R46: "UP_POS ≤ UP_VALID". -/
def UnpackerOk (cfg : Config) (u : Unpacker) : Prop :=
  u.inLen ≤ cfg.inCap ∧ u.pos ≤ u.valid

/-- R47: "DEC_COUNT = length(DEC_OUT)". -/
def DecodeOk (d : DecodeOut) : Prop := d.count.toNat = d.out.length

/-- R48: "The root is always an `Inner`", and TRIE_NODES counts its nodes, "At most TRIECAP = 16385";
R224: "the trie has depth at most 64". -/
def TrieOk (t : TrieNode) (count : Word) : Prop :=
  (∃ l r, t = .inner l r) ∧ count.toNat = trieCount t ∧ trieCount t ≤ 16385 ∧ trieDepth t ≤ 64

/-- Whether `n` more bits fit the packer's count of bytes: no `emit_PK` then finds PK_BYTECOUNT at
2^64 - 1 (R181). -/
def RoomFor (p : Packer) (n : Nat) : Prop :=
  p.byteCount.toNat + (p.nbits.toNat + n) / 8 < 2 ^ 64

/-- `q` is `p` with `bits` written to it, and nothing else done. -/
def Appended (p q : Packer) (bits : List Bool) : Prop :=
  packedBits q = packedBits p ++ bits ∧ PackerOk q ∧ q.padBits = p.padBits ∧ q.fin = p.fin

/-- Every element of the block at the value of R49's table. -/
structure AtResetValues (s : State) : Prop where
  arg : s.arg = 0
  res : s.res = 0
  resx : s.resx = 0
  status : s.status = 0
  latch : s.latch = { fault := false, errKind := 0, errOp := 0 }
  endFlag : s.endFlag = false
  freq : ∀ a, tget s.fc.freq a = 0
  total : s.fc.total = 0
  tree : s.tree = none
  len : ∀ a, tget s.len a = 0
  code : ∀ a, tget s.code a = { present := false, code := 0, len := 0 }
  entries : s.entries = []
  packer : s.pk = { acc := 0, nbits := 0, padBits := 0, fin := false, byteCount := 0, out := [] }
  unpacker : s.up = { buf := [], pad := 0, pos := 0 }
  decoded : s.dec = { out := [], count := 0 }
  trie : s.trie = .inner .empty .empty
  trieNodes : s.trieNodes = 1
  id : s.readReg .id = 0x0000000150495A48

/-- Everything the spec says holds in every reachable state. -/
structure BlockOk (s : State) : Prop where
  cfg : s.cfg.Wf
  latch : LatchOk s.latch
  freq : FreqOk s.fc
  tree : TreeOk s.tree
  code : CodeOk s.code
  entries : EntriesOk s.entries
  packer : PackerOk s.pk
  unpacker : UnpackerOk s.cfg s.up
  decoded : DecodeOk s.dec
  trie : TrieOk s.trie s.trieNodes

end Sys2Proof.Machine
end

