-- ==== Sys2Proof/Certificates/Slice0/Obligations.lean ====
section
/-! DEFINITION. The statements for the provers. `OBLIGATIONS.json` gives each one's rule. -/

open Sys2Proof Sys2Proof.Machine

/-! ## Encoding -/

/-- Decoding the CMD write of a command gives the command back, at every operand value. -/
def Obligations.DecodeOfEncode : Prop :=
  ∀ i : Instr, decode (cmdWord i) = .ok i

/-- A CMD write that decodes is the one encoding of its command: no bit of it is free. -/
def Obligations.EncodeOfDecode : Prop :=
  ∀ (x : Word) (i : Instr), decode x = .ok i → cmdWord i = x

/-- R100: the encoding is `o << 24 | a << 16 | b << 8`, with its four examples. -/
def Obligations.EncodingIsOpcodeAndOperands : Prop :=
  (∀ i : Instr, encode i =
    (i.opcode.setWidth 32 <<< 24) ||| (i.fieldA.setWidth 32 <<< 16) |||
      (i.fieldB.setWidth 32 <<< 8)) ∧
  encode (.fcByte 0x41) = 0x11410000 ∧ encode (.enPush 0x42 1) = 0x42420100 ∧
  encode (.pkWbits 3) = 0x52000300 ∧ encode .reset = 0x01000000

/-- Words of 95_test_vectors.md, one or more per unit, decode to the command each is listed as. -/
def Obligations.ListedWordsDecode : Prop :=
  decodeTableWord 32 0x00000000 = some .nop ∧
  decodeTableWord 32 0x01000000 = some .reset ∧
  decodeTableWord 32 0x12410000 = some (.rdFreq 0x41) ∧
  decodeTableWord 32 0x20000000 = some .tbBuild ∧
  decodeTableWord 32 0x31420000 = some (.rdLen 0x42) ∧
  decodeTableWord 32 0x42420200 = some (.enPush 0x42 2) ∧
  decodeTableWord 32 0x45FF0000 = some (.rdCode 0xFF) ∧
  decodeTableWord 32 0x52004100 = some (.pkWbits 65) ∧
  decodeTableWord 32 0x62080000 = some (.upOpen 8) ∧
  decodeTableWord 32 0x64000600 = some (.upRbits 6) ∧
  decodeTableWord 32 0x72000000 = some .decRun ∧
  decodeTableWord 32 0x02000000 = none ∧
  decodeTableWord 32 0x00000001 = none

/-- R96, R97: an opcode of the listed unassigned values, a Z field that is not 0, and a non-zero field
the opcode's format does not use each raise CommandError, recording bits [31:24]; so do bits
[63:32] that are not 0 (R90). The all-zero word
is the only CMD write that decodes to NOP. -/
def Obligations.IllegalWordsRaiseCommandError : Prop :=
  (∀ (s : State) (rest : List Access) (x : Word),
    s.latch.fault = false → s.pending = .write 0x00 64 x :: rest →
    (let o := (x.extractLsb' 24 8).toNat
     (0x02 ≤ o ∧ o ≤ 0x0F) ∨ (0x13 ≤ o ∧ o ≤ 0x1F) ∨ (0x21 ≤ o ∧ o ≤ 0x2F) ∨
     (0x32 ≤ o ∧ o ≤ 0x3F) ∨ (0x46 ≤ o ∧ o ≤ 0x4F) ∨ (0x55 ≤ o ∧ o ≤ 0x5F) ∨
     (0x65 ≤ o ∧ o ≤ 0x6F) ∨ 0x73 ≤ o ∨
     x.extractLsb' 32 32 ≠ 0 ∨ x.extractLsb' 0 8 ≠ 0 ∨
     (o ∈ [0x00, 0x01, 0x10, 0x20, 0x30, 0x40, 0x41, 0x44, 0x50, 0x54, 0x60, 0x63, 0x70, 0x71,
        0x72, 0x52, 0x64] ∧ x.extractLsb' 16 8 ≠ 0) ∨
     (o ∈ [0x00, 0x01, 0x10, 0x20, 0x30, 0x40, 0x41, 0x44, 0x50, 0x54, 0x60, 0x63, 0x70, 0x71,
        0x72, 0x11, 0x12, 0x31, 0x43, 0x45, 0x51, 0x53, 0x61, 0x62] ∧ x.extractLsb' 8 8 ≠ 0)) →
    step s = .next { s with
      pending := rest
      answer := .complete
      latch := { fault := true, errKind := 7, errOp := x.extractLsb' 24 8 } }) ∧
  ∀ x : Word, decode x = .ok .nop ↔ x = 0

/-! ## The gate and the fault latch -/

/-- With no fault latched, a step whose access writes a command's word to CMD is `exec` of that
command, on the state with the access taken off the host's list and its completion noted. -/
def Obligations.StepRunsDecodedCommand : Prop :=
  ∀ (s : State) (rest : List Access) (x : Word) (i : Instr),
    s.latch.fault = false → s.pending = .write 0x00 64 x :: rest → decode x = .ok i →
    step s = exec i { s with pending := rest, answer := .complete }

/-- R308: while a fault is latched, every CMD write but the exact RESET word changes nothing, the
RESET word runs RESET, and register reads and ARG writes work as ever. -/
def Obligations.FaultedBlockDropsWrites : Prop :=
  ∀ (s : State) (rest : List Access), s.latch.fault = true →
    (∀ x : Word, x ≠ 0x0000000001000000 → s.pending = .write 0x00 64 x :: rest →
      step s = .next { s with pending := rest, answer := .complete }) ∧
    (s.pending = .write 0x00 64 0x0000000001000000 :: rest →
      step s = exec .reset { s with pending := rest, answer := .complete }) ∧
    (∀ v : Word, s.pending = .write 0x08 64 v :: rest →
      step s = .next { s with pending := rest, answer := .complete, arg := v }) ∧
    (∀ (o : Nat) (r : Reg), regAt o = some r → s.pending = .read o 64 :: rest →
      step s = .next { s with pending := rest, answer := .value (s.readReg r) })

/-- R305: a CMD write that latches a fault changes nothing else, and the latch holds the code of one
kind, never IOFailure's, and bits [31:24] of the write. -/
def Obligations.FaultsArePrecise : Prop :=
  ∀ (s t : State) (rest : List Access) (x : Word),
    s.latch.fault = false → s.pending = .write 0x00 64 x :: rest → step s = .next t →
    t.latch.fault = true →
    ∃ k : FaultKind, k ≠ .ioFailure ∧ t = { s with
      pending := rest
      answer := .complete
      latch := { fault := true, errKind := k.code, errOp := x.extractLsb' 24 8 } }

/-- R29: no step clears or rewrites a latched fault unless its access is the exact RESET word or a
hardware reset, and no step sets one unless its access is a CMD write. -/
def Obligations.FaultIsSticky : Prop :=
  ∀ (s t : State), step s = .next t →
    (s.latch.fault = true → t.latch ≠ s.latch →
      ∃ rest, s.pending = .hardReset :: rest ∨
        s.pending = .write 0x00 64 0x0000000001000000 :: rest) ∧
    (s.latch.fault = false → t.latch.fault = true →
      ∃ x rest, s.pending = .write 0x00 64 x :: rest)

/-! ## The register window -/

/-- R26, R66: a 64-bit read at each offset of the map returns that register's content and changes no
element of the block; a write to ARG changes ARG alone. R61: a stream read returns the whole of PK_OUT
or DEC_OUT and changes no element. R316: with no access to come the state stays. That UP_POS at 0x50 and
UP_VALID at 0x60 read their mirrors, free values where the counts do not fit 64 bits, is the model's
choice (DESIGN CHOICE, notes/assumptions/3.md and 4.md), and so is the stream read as one access (DEDUCED,
notes/assumptions/12.md). -/
def Obligations.RegisterReadsFollowTheMap : Prop :=
  (∀ (s : State) (rest : List Access) (o : Nat) (v : Word),
    (o, v) ∈ ([(0x00, 0), (0x08, s.arg), (0x10, s.res), (0x18, s.resx), (0x20, s.status),
      (0x28, 0x0000000150495A48), (0x30, s.fc.total), (0x38, s.pk.ctl), (0x40, s.pk.byteCount),
      (0x48, BitVec.ofNat 64 s.up.buf.length), (0x50, s.up.posMirror), (0x58, s.up.ctl),
      (0x60, s.up.validMirror), (0x68, BitVec.ofNat 64 s.entries.length), (0x70, s.trieNodes),
      (0x78, s.dec.count)] : List (Nat × Word)) →
    s.pending = .read o 64 :: rest →
    step s = .next { s with pending := rest, answer := .value v }) ∧
  (∀ (s : State) (rest : List Access) (v : Word), s.pending = .write 0x08 64 v :: rest →
    step s = .next { s with pending := rest, answer := .complete, arg := v }) ∧
  (∀ (s : State) (rest : List Access), s.pending = .readPkOut :: rest →
    step s = .next { s with pending := rest, answer := .stream s.pk.out }) ∧
  (∀ (s : State) (rest : List Access), s.pending = .readDecOut :: rest →
    step s = .next { s with pending := rest, answer := .stream s.dec.out }) ∧
  ∀ s : State, s.pending = [] → step s = .next s

/-- R28, R31: every field of STATUS lies in its bits, and the reserved bits read 0. -/
def Obligations.StatusFieldsInPlace : Prop :=
  ∀ s : State,
    s.status.extractLsb' 0 1 = BitVec.ofBool s.latch.fault ∧
    s.status.extractLsb' 1 3 = 0 ∧
    s.status.extractLsb' 4 4 = s.latch.errKind ∧
    s.status.extractLsb' 8 8 = s.latch.errOp ∧
    s.status.getLsbD 16 = s.endFlag ∧
    (s.status.getLsbD 17 = true ↔ s.tree ≠ none) ∧
    s.status.getLsbD 18 = s.pk.fin ∧
    s.status.extractLsb' 19 45 = 0

/-- R34, R35, R45, R46: the fields of PK_CTL and UP_CTL, and what UP_POS and UP_VALID read wherever
their counts fit the register. -/
def Obligations.MirrorFieldsInPlace : Prop :=
  ∀ s : State,
    s.pk.ctl.extractLsb' 0 3 = s.pk.nbits ∧
    s.pk.ctl.extractLsb' 3 5 = 0 ∧
    s.pk.ctl.extractLsb' 8 8 = s.pk.acc ∧
    s.pk.ctl.extractLsb' 16 3 = s.pk.padBits ∧
    s.pk.ctl.extractLsb' 19 45 = 0 ∧
    s.up.ctl.extractLsb' 0 3 = s.up.pad ∧
    s.up.ctl.extractLsb' 3 61 = 0 ∧
    (s.up.pos < 2 ^ 64 → s.up.posMirror.toNat = s.up.pos) ∧
    (s.up.buf = [] → s.up.validMirror = 0) ∧
    (s.up.buf ≠ [] → 8 * s.up.buf.length < 2 ^ 64 + s.up.pad.toNat →
      s.up.validMirror.toNat = 8 * s.up.buf.length - s.up.pad.toNat)

/-- R63, R65: a register access is refused exactly when it is not of 64 bits, its offset is not a
multiple of 8 or is 0x80 or above, or it writes a register other than CMD and ARG. -/
def Obligations.ProtocolViolationsRefused : Prop :=
  ∀ (s : State) (rest : List Access) (o w : Nat) (v : Word),
    (s.pending = .read o w :: rest →
      ((∃ r, step s = .refused r) ↔ (w ≠ 64 ∨ o % 8 ≠ 0 ∨ 0x80 ≤ o))) ∧
    (s.pending = .write o w v :: rest →
      ((∃ r, step s = .refused r) ↔
        (w ≠ 64 ∨ o % 8 ≠ 0 ∨ 0x80 ≤ o ∨ (o ≠ 0x00 ∧ o ≠ 0x08))))

/-- R64: byte k of the register at offset o lies at byte address o + k and holds bits [8k+7:8k], so
the eight bytes from o are the register's value, least significant first. -/
def Obligations.WindowIsLittleEndian : Prop :=
  ∀ (s : State) (o : Nat) (r : Reg), regAt o = some r →
    (∀ k, k < 8 → s.windowByte (o + k) = some ((s.readReg r).extractLsb' (8 * k) 8)) ∧
    ((List.range 8).map fun k =>
      ((s.windowByte (o + k)).getD 0).toNat * 256 ^ k).sum = (s.readReg r).toNat

/-! ## Reset and NOP -/

/-- R49, R330: the state after hardware reset, and after the platform's reset signal from any state,
has every element at its reset value, and is the state the RESET command makes. -/
def Obligations.ResetStateValues : Prop :=
  AtResetValues State.reset ∧
  ∀ (s : State) (rest : List Access), s.pending = .hardReset :: rest →
    ∃ t, step s = .next t ∧ exec .reset { s with pending := rest, answer := .complete } = .next t ∧
      AtResetValues t ∧ t.cfg = s.cfg ∧ t.pending = rest ∧ t.answer = .complete

/-- R121: RESET puts every element at its reset value from any state, with a fault latched or not,
keeps the model's own fields, and twice is the same as once. -/
def Obligations.ResetCommandResets : Prop :=
  ∀ s : State, ∃ t, exec .reset s = .next t ∧ AtResetValues t ∧
    t.cfg = s.cfg ∧ t.pending = s.pending ∧ t.answer = s.answer ∧ exec .reset t = .next t

/-- R122: NOP leaves the state unchanged. -/
def Obligations.NopChangesNothing : Prop :=
  ∀ s : State, exec .nop s = .next s

/-- R331: every command answers a next state on the reset state, and those it lists give the results
it gives. -/
def Obligations.CommandsDefinedAtReset : Prop :=
  (∀ i : Instr, ∃ t, exec i State.reset = .next t) ∧
  exec .tbBuild State.reset = .next State.reset ∧
  exec .ldDerive State.reset = .next State.reset ∧
  exec .caFromLen State.reset = .next State.reset ∧
  exec .dtBuild State.reset = .next { State.reset with res := 1 } ∧
  exec .upRbit State.reset = .next { State.reset with endFlag := true } ∧
  exec .decRun State.reset = .next State.reset

/-! ## Clear and read-back commands -/

/-- R130, R162, R180, R200: what each clear command writes; everything else stays. -/
def Obligations.ClearCommandsClear : Prop :=
  ∀ s : State,
    exec .fcClear s = .next { s with fc := { freq := Table.fill 0, total := 0 } } ∧
    exec .enClear s = .next { s with entries := [] } ∧
    exec .pkInit s = .next { s with
      pk := { acc := 0, nbits := 0, padBits := 0, fin := false, byteCount := 0, out := [] } } ∧
    exec .inClear s = .next { s with up := { buf := [], pad := 0, pos := 0 }, endFlag := false }

/-- R132, R151, R166: RD_FREQ and RD_LEN write RES alone, RD_CODE writes RES and RESX alone, with
RESX[7:0] the length, RESX[8] the presence bit and the rest 0, so that an absent symbol reads RES = 0
and RESX = 0. -/
def Obligations.ReadBackCommandsReadTables : Prop :=
  ∀ (s : State) (a : Byte),
    exec (.rdFreq a) s = .next { s with res := tget s.fc.freq a } ∧
    exec (.rdLen a) s = .next { s with res := (tget s.len a).setWidth 64 } ∧
    ∃ v x : Word, exec (.rdCode a) s = .next { s with res := v, resx := x } ∧
      v = (tget s.code a).code ∧
      x.extractLsb' 0 8 = (tget s.code a).len ∧ x.getLsbD 8 = (tget s.code a).present ∧
      x.extractLsb' 9 55 = 0 ∧
      (CodeOk s.code → (tget s.code a).present = false → v = 0 ∧ x = 0)

/-! ## Frequency counter -/

/-- R131: FC_BYTE adds 1 to FREQ[b] and to TOTAL and changes nothing else, unless TOTAL is 2^64 - 1,
when it raises CountOverflow. -/
def Obligations.FcByteCountsOneByte : Prop :=
  ∀ (s : State) (b : Byte),
    (s.fc.total ≠ 0xFFFFFFFFFFFFFFFF → ∃ f : FreqCounter,
      exec (.fcByte b) s = .next { s with fc := f } ∧
      tget f.freq b = tget s.fc.freq b + 1 ∧
      (∀ a, a ≠ b → tget f.freq a = tget s.fc.freq a) ∧ f.total = s.fc.total + 1) ∧
    (s.fc.total = 0xFFFFFFFFFFFFFFFF → exec (.fcByte b) s = .next { s with
      latch := { fault := true, errKind := 8, errOp := 0x11 } })

/-- R133: counting the bytes of a stream, from cleared tables, ends with FREQ[b] the number of places
where b stands and TOTAL the stream's length. -/
def Obligations.CountingPassCountsOccurrences : Prop :=
  ∀ bs : List Byte, bs.length < 2 ^ 64 →
    ∃ f, countAll bs { freq := Table.fill 0, total := 0 } = .ok f ∧
      (∀ b, (tget f.freq b).toNat = bs.count b) ∧ f.total.toNat = bs.length

/-! ## Tree builder -/

/-- R140: the arbiter yields one of the live nodes and leaves the others; where no two live nodes share
a minSym, the yielded node's weight is below every other node's, or equal to it with a smaller
minSym, both compared as unsigned values. -/
def Obligations.ArbiterYieldsSmallestKey : Prop :=
  ∀ (a : HuffmanNode) (rest : List HuffmanNode),
    ((extractMin a rest).1 :: (extractMin a rest).2).Perm (a :: rest) ∧
    (((a :: rest).map nodeMinSym).Nodup →
      ∀ n ∈ (extractMin a rest).2,
        (nodeWeight (extractMin a rest).1).toNat < (nodeWeight n).toNat ∨
        ((nodeWeight (extractMin a rest).1).toNat = (nodeWeight n).toNat ∧
          (nodeMinSym (extractMin a rest).1).toNat < (nodeMinSym n).toNat))

/-- R141: TB_BUILD writes TREE and RES alone. RES counts the present symbols; TREE is none when there
are none, and else a tree whose leaves are the present symbols, each once, each with its count. Every
internal node's weight is the sum of its children's and its minSym the lesser of theirs, and its left
child, extracted first, has the smaller key. TREE is the one node that n - 1 turns of the loop leave of
the n leaves, and a turn replaces the two live nodes of smallest key by the node made of them. That
weights are sums mod 2^64 is the model's choice (DEDUCED, notes/assumptions/10.md). -/
def Obligations.TbBuildMakesTreeOfPresentSymbols : Prop :=
  (∀ s : State, ∃ tree : Option HuffmanNode,
    exec .tbBuild s = .next { s with
      tree := tree
      res := BitVec.ofNat 64 (presentSyms s.fc.freq).length } ∧
    (tree = none ↔ presentSyms s.fc.freq = []) ∧
    (let live := (presentSyms s.fc.freq).map fun a => HuffmanNode.leaf a (tget s.fc.freq a)
     tree = (mergeTurns (live.length - 1) live).head?) ∧
    (∀ t ∈ tree, (leafSyms t).Perm (presentSyms s.fc.freq)) ∧
    (∀ t ∈ tree, ∀ a w, .leaf a w ∈ treeNodes t → w = tget s.fc.freq a) ∧
    (∀ t ∈ tree, ∀ w m l r, .internal w m l r ∈ treeNodes t →
      w = nodeWeight l + nodeWeight r ∧
      m.toNat = min (nodeMinSym l).toNat (nodeMinSym r).toNat ∧ KeyBelow l r) ∧
    (∀ a, presentSyms s.fc.freq = [a] → tree = some (.leaf a (tget s.fc.freq a)))) ∧
  (∀ (live : List HuffmanNode) (n : Nat), mergeTurns 0 live = live ∧
    mergeTurns (n + 1) live = mergeTurns n (mergeStep live)) ∧
  ∀ live : List HuffmanNode, 2 ≤ live.length → (live.map nodeMinSym).Nodup →
    ∃ (a b : HuffmanNode) (others : List HuffmanNode) (m : Byte),
      live.Perm (a :: b :: others) ∧ KeyBelow a b ∧ (∀ n ∈ others, KeyBelow b n) ∧
      m.toNat = min (nodeMinSym a).toNat (nodeMinSym b).toNat ∧
      (mergeStep live).Perm (.internal (nodeWeight a + nodeWeight b) m a b :: others)

/-- R142: what TB_BUILD writes depends on FREQ alone, and the tree does not depend on how the priority
structure arranges the live nodes. -/
def Obligations.TreeIgnoresArrangement : Prop :=
  (∀ s s' t t' : State, s.fc.freq = s'.fc.freq → exec .tbBuild s = .next t →
    exec .tbBuild s' = .next t' → t.tree = t'.tree ∧ t.res = t'.res) ∧
  ∀ live live' : List HuffmanNode, live.Perm live' → (live.map nodeMinSym).Nodup →
    (mergeTurns (live.length - 1) live).head? = (mergeTurns (live'.length - 1) live').head?

/-- R144: weights a = 1, b = 1, c = 2, d = 2 give lengths d = 1, c = 2, a = 3, b = 3. -/
def Obligations.TieBreakGivesLengths1233 : Prop :=
  let freq := tset (tset (tset (tset (Table.fill 0) 0x61 1) 0x62 1) 0x63 2) 0x64 2
  let lengths := deriveLengths (buildTree freq)
  tget lengths 0x64 = 1 ∧ tget lengths 0x63 = 2 ∧ tget lengths 0x61 = 3 ∧
    tget lengths 0x62 = 3

/-! ## Code lengths -/

/-- R150: LD_DERIVE writes LEN and RES alone: all lengths 0 for no tree, 1 for the symbol of a
one-leaf tree, else each leaf's depth, with 0 for every other symbol; RES is the largest length. -/
def Obligations.LdDeriveWritesDepths : Prop :=
  ∀ s : State, TreeOk s.tree → ∃ (lt : Table Byte) (m : Byte),
    exec .ldDerive s = .next { s with len := lt, res := m.setWidth 64 } ∧
    (∀ a, (tget lt a).toNat ≤ m.toNat) ∧ (∃ a, tget lt a = m) ∧
    (s.tree = none → ∀ a, tget lt a = 0) ∧
    (∀ a w, s.tree = some (.leaf a w) →
      tget lt a = 1 ∧ ∀ c, c ≠ a → tget lt c = 0) ∧
    (∀ w x l r, s.tree = some (.internal w x l r) →
      (∀ p ∈ leafDepths (.internal w x l r) 0, (tget lt p.1).toNat = p.2) ∧
      ∀ c, c ∉ leafSyms (.internal w x l r) → tget lt c = 0)

/-- R152: after TB_BUILD over at least two present symbols, LD_DERIVE's lengths meet the Kraft
equality (in units of 2^-255), exactly the present symbols have a length, and one present symbol
gives the sum 1/2. -/
def Obligations.DerivedLengthsMeetKraft : Prop :=
  ∀ s t u : State, exec .tbBuild s = .next t → exec .ldDerive t = .next u →
    (∀ a, tget u.len a ≠ 0 ↔ tget s.fc.freq a ≠ 0) ∧
    (2 ≤ (presentSyms s.fc.freq).length → kraftSum u.len = 2 ^ 255) ∧
    ((presentSyms s.fc.freq).length = 1 → kraftSum u.len = 2 ^ 254)

/-! ## Canonical codes -/

/-- R160, with R161's recurrence in closed form (DEDUCED, notes/assumptions/5.md). With every LEN at
most 64, CA_FROM_LEN writes CODE and RES alone. With count[L] the number of symbols of length L and
firstCode[1] = 0, firstCode[L + 1] = (firstCode[L] + count[L]) << 1 mod 2^64, symbol a's code is the
first code of its length plus the number of lower symbols of that length, and RES counts the present
symbols; a longer LEN raises InvalidCanonicalTable. -/
def Obligations.CaFromLenAssignsCodes : Prop :=
  ∀ s : State,
    ((∀ a, (tget s.len a).toNat ≤ 64) → ∃ (c : Table CodeEntry) (first : Nat → Word),
      exec .caFromLen s = .next { s with
        code := c
        res := BitVec.ofNat 64 (symbols.filter fun a => tget s.len a ≠ 0).length } ∧
      first 1 = 0 ∧
      (∀ l, 1 ≤ l → l < 64 → first (l + 1) =
        (first l +
          BitVec.ofNat 64 (symbols.filter fun a => (tget s.len a).toNat = l).length) <<< 1) ∧
      ∀ a, (tget s.len a = 0 → tget c a = { present := false, code := 0, len := 0 }) ∧
        (tget s.len a ≠ 0 → tget c a =
          { present := true
            code := first (tget s.len a).toNat +
              BitVec.ofNat 64
                (symbols.filter fun b => b.toNat < a.toNat ∧ tget s.len b = tget s.len a).length
            len := tget s.len a })) ∧
    ((∃ a, 64 < (tget s.len a).toNat) → exec .caFromLen s = .next { s with
      latch := { fault := true, errKind := 2, errOp := 0x40 } })

/-- R161: the closed form that the commands use (the model's choice, DEDUCED, notes/assumptions/5.md) is
the rule's own loop, lengths ascending and then symbols ascending. -/
def Obligations.CanonicalIsItsLoop : Prop :=
  ∀ lt : Table Byte, canonicalLoop lt = canonical lt

/-- R167, property 3: two symbols of equal length with none of that length between them have
consecutive codes, in symbol order. -/
def Obligations.EqualLengthCodesConsecutive : Prop :=
  ∀ (lt : Table Byte) (c : Table CodeEntry) (a b : Byte), canonical lt = .ok c →
    a.toNat < b.toNat → tget lt a ≠ 0 → tget lt a = tget lt b →
    (∀ m : Byte, a.toNat < m.toNat → m.toNat < b.toNat → tget lt m ≠ tget lt a) →
    (tget c b).code = (tget c a).code + 1

/-- R167, properties 1 and 2: with every length at most 64 and Σ 2^(-len) at most 1, every code fits
its length and no code's bits begin another's. -/
def Obligations.CanonicalCodesPrefixFree : Prop :=
  ∀ (lt : Table Byte) (c : Table CodeEntry), canonical lt = .ok c → kraftSum lt ≤ 2 ^ 255 →
    (∀ a, (tget c a).present = true → (tget c a).code.toNat < 2 ^ (tget c a).len.toNat) ∧
    CodesPrefixFree c

/-- R222: the codes of an oversubscribed length table are never prefix-free, so DT_BUILD raises
InvalidCanonicalTable on them. -/
def Obligations.OversubscribedTablesNeverBuild : Prop :=
  ∀ (s : State) (lt : Table Byte), canonical lt = .ok s.code → 2 ^ 255 < kraftSum lt →
    ¬ CodesPrefixFree s.code ∧
    exec .dtBuild s = .next { s with latch := { fault := true, errKind := 2, errOp := 0x70 } }

/-- R163, R164: EN_PUSH appends its entry while fewer than 256 are held and else raises
MalformedHeader; RD_ENTRY reads an entry into RES, length above symbol, and an index at or beyond
EN_COUNT raises CommandError. -/
def Obligations.EntryListPushAndRead : Prop :=
  ∀ s : State,
    (∀ a l : Byte, s.entries.length < 256 →
      exec (.enPush a l) s = .next { s with entries := s.entries ++ [{ sym := a, len := l }] }) ∧
    (∀ a l : Byte, s.entries.length = 256 → exec (.enPush a l) s = .next { s with
      latch := { fault := true, errKind := 1, errOp := 0x42 } }) ∧
    (∀ (i : Byte) (h : i.toNat < s.entries.length), ∃ x : Word,
      exec (.rdEntry i) s = .next { s with res := x } ∧
      x.extractLsb' 0 8 = (s.entries[i.toNat]'h).sym ∧
      x.extractLsb' 8 8 = (s.entries[i.toNat]'h).len ∧ x.extractLsb' 16 48 = 0) ∧
    (∀ i : Byte, s.entries.length ≤ i.toNat → exec (.rdEntry i) s = .next { s with
      latch := { fault := true, errKind := 7, errOp := 0x43 } })

/-- R165: with every entry's length in [1, 64] and no symbol twice, CA_FROM_ENTRIES writes CODE and
RES alone: the code table of those lengths, every other symbol absent, and RES the number of
entries; otherwise it raises InvalidCanonicalTable. -/
def Obligations.CaFromEntriesAssignsCodes : Prop :=
  ∀ s : State,
    ((∀ e ∈ s.entries, 1 ≤ e.len.toNat ∧ e.len.toNat ≤ 64) → (s.entries.map Entry.sym).Nodup →
      ∃ (lt : Table Byte) (c : Table CodeEntry),
        exec .caFromEntries s = .next { s with
          code := c
          res := BitVec.ofNat 64 s.entries.length } ∧
        (∀ e ∈ s.entries, tget lt e.sym = e.len) ∧
        (∀ a, a ∉ s.entries.map Entry.sym → tget lt a = 0) ∧ canonical lt = .ok c) ∧
    ((¬ (∀ e ∈ s.entries, 1 ≤ e.len.toNat ∧ e.len.toNat ≤ 64) ∨
      ¬ (s.entries.map Entry.sym).Nodup) → exec .caFromEntries s = .next { s with
        latch := { fault := true, errKind := 2, errOp := 0x44 } })

/-- R165: "The arrival order of entries has no effect on CODE". -/
def Obligations.ArrivalOrderIrrelevant : Prop :=
  ∀ es es' : List Entry, es.Perm es' → canonicalOfEntries es = canonicalOfEntries es'

/-! ## Bit packer -/

/-- R182: PK_WBIT of 0 or 1 writes that bit; another A, or a finished packer, raises CommandError; a
byte that would pass PK_BYTECOUNT's limit raises CountOverflow. -/
def Obligations.PkWbitWritesOneBit : Prop :=
  ∀ (s : State) (a : Byte), PackerOk s.pk →
    (a.toNat ≤ 1 → s.pk.fin = false → RoomFor s.pk 1 → ∃ q : Packer,
      exec (.pkWbit a) s = .next { s with pk := q } ∧ Appended s.pk q [a.toNat == 1]) ∧
    ((1 < a.toNat ∨ s.pk.fin = true) → exec (.pkWbit a) s = .next { s with
      latch := { fault := true, errKind := 7, errOp := 0x51 } }) ∧
    (a.toNat ≤ 1 → s.pk.fin = false → ¬ RoomFor s.pk 1 → exec (.pkWbit a) s = .next { s with
      latch := { fault := true, errKind := 8, errOp := 0x51 } })

/-- R183: PK_WBITS n writes the low n bits of ARG, bit n-1 first; n above 64, or a finished packer,
raises CommandError; too many bytes raise CountOverflow. -/
def Obligations.PkWbitsWritesLowBitsOfArg : Prop :=
  ∀ (s : State) (n : Byte), PackerOk s.pk →
    (n.toNat ≤ 64 → s.pk.fin = false → RoomFor s.pk n.toNat → ∃ q : Packer,
      exec (.pkWbits n) s = .next { s with pk := q } ∧
      Appended s.pk q ((List.range n.toNat).reverse.map fun k => s.arg.getLsbD k)) ∧
    ((64 < n.toNat ∨ s.pk.fin = true) → exec (.pkWbits n) s = .next { s with
      latch := { fault := true, errKind := 7, errOp := 0x52 } }) ∧
    (n.toNat ≤ 64 → s.pk.fin = false → ¬ RoomFor s.pk n.toNat →
      exec (.pkWbits n) s = .next { s with
        latch := { fault := true, errKind := 8, errOp := 0x52 } })

/-- R184: ENC_BYTE of a byte with a code writes the code's meaningful bits, at least one; a finished
packer raises CommandError, a byte with no code UnencodableByte, too many bytes CountOverflow, in that
order. -/
def Obligations.EncByteWritesCode : Prop :=
  ∀ (s : State) (b : Byte), PackerOk s.pk →
    (s.pk.fin = false → (tget s.code b).present = true →
      RoomFor s.pk (tget s.code b).len.toNat → ∃ q : Packer,
        exec (.encByte b) s = .next { s with pk := q } ∧
        Appended s.pk q ((List.range (tget s.code b).len.toNat).reverse.map fun k =>
          (tget s.code b).code.getLsbD k)) ∧
    (CodeOk s.code → (tget s.code b).present = true → 1 ≤ (tget s.code b).len.toNat) ∧
    (s.pk.fin = true → exec (.encByte b) s = .next { s with
      latch := { fault := true, errKind := 7, errOp := 0x53 } }) ∧
    (s.pk.fin = false → (tget s.code b).present = false → exec (.encByte b) s = .next { s with
      latch := { fault := true, errKind := 4, errOp := 0x53 } }) ∧
    (s.pk.fin = false → (tget s.code b).present = true →
      ¬ RoomFor s.pk (tget s.code b).len.toNat → exec (.encByte b) s = .next { s with
        latch := { fault := true, errKind := 8, errOp := 0x53 } })

/-- R185: PK_FINISH completes a partial byte with zero bits, records how many, clears the partial
byte, sets PK_FIN and writes RES and RESX; a finished packer raises CommandError, and a byte that
does not fit the count CountOverflow. -/
def Obligations.PkFinishPadsWithZeros : Prop :=
  ∀ s : State, PackerOk s.pk →
    (s.pk.fin = false → (s.pk.nbits = 0 ∨ s.pk.byteCount ≠ 0xFFFFFFFFFFFFFFFF) →
      ∃ q : Packer,
        exec .pkFinish s = .next { s with
          pk := q, res := q.byteCount, resx := q.padBits.setWidth 64 } ∧
        q.padBits.toNat = (8 - s.pk.nbits.toNat) % 8 ∧
        packedBits q = packedBits s.pk ++ List.replicate q.padBits.toNat false ∧
        q.acc = 0 ∧ q.nbits = 0 ∧ q.fin = true ∧ q.byteCount.toNat = q.out.length) ∧
    (s.pk.fin = true → exec .pkFinish s = .next { s with
      latch := { fault := true, errKind := 7, errOp := 0x54 } }) ∧
    (s.pk.fin = false → s.pk.nbits ≠ 0 → s.pk.byteCount = 0xFFFFFFFFFFFFFFFF →
      exec .pkFinish s = .next { s with
        latch := { fault := true, errKind := 8, errOp := 0x54 } })

/-- R186: T bits written since PK_INIT and finished, at any T whose bytes the count can hold, give PK_BYTECOUNT = ⌈T/8⌉, the pad count, and
PK_OUT the bits in write order, MSB-first, followed by the pad's zeros. -/
def Obligations.FinishedPayloadIsTheBits : Prop :=
  ∀ bits : List Bool, bits.length ≤ 8 * (2 ^ 64 - 1) →
    ∃ p q, writeBitList bits packerInit = .ok p ∧ finishPacker p = .ok q ∧
      q.byteCount.toNat = (bits.length + 7) / 8 ∧
      q.padBits.toNat = (if bits.length % 8 = 0 then 0 else 8 - bits.length % 8) ∧
      q.out.flatMap byteBits = bits ++ List.replicate q.padBits.toNat false

/-! ## Bit unpacker -/

/-- R201, R202: IN_PUSH appends its byte and leaves UP_POS and UP_PAD, or at IN_CAP bytes raises
CommandError; UP_OPEN of 0..7 sets UP_PAD and zeroes UP_POS and END, and a larger pad count raises
MalformedHeader. -/
def Obligations.PayloadPushAndOpen : Prop :=
  ∀ s : State,
    (∀ b : Byte, s.up.buf.length ≠ s.cfg.inCap → exec (.inPush b) s = .next { s with
      up := { buf := s.up.buf ++ [b], pad := s.up.pad, pos := s.up.pos } }) ∧
    (∀ b : Byte, s.up.buf.length = s.cfg.inCap → exec (.inPush b) s = .next { s with
      latch := { fault := true, errKind := 7, errOp := 0x61 } }) ∧
    (∀ p : Byte, p.toNat ≤ 7 → ∃ q : BitVec 3, q.toNat = p.toNat ∧
      exec (.upOpen p) s = .next { s with
        up := { buf := s.up.buf, pad := q, pos := 0 }, endFlag := false }) ∧
    (∀ p : Byte, 7 < p.toNat → exec (.upOpen p) s = .next { s with
      latch := { fault := true, errKind := 1, errOp := 0x62 } })

/-- R203, R205: UP_RBIT gives the next data bit, MSB-first, and moves UP_POS by one, or, with no data
bit left before the padding, RES = 0 and END = 1 with nothing consumed. -/
def Obligations.UpRbitReadsNextBit : Prop :=
  ∀ s : State,
    (upcomingBits s.up = [] → exec .upRbit s = .next { s with res := 0, endFlag := true }) ∧
    (∀ b bs, upcomingBits s.up = b :: bs → ∃ u : Unpacker,
      exec .upRbit s = .next { s with
        res := if b then 1 else 0
        endFlag := false
        up := u } ∧
      u.buf = s.up.buf ∧ u.pad = s.up.pad ∧ u.pos = s.up.pos + 1 ∧ upcomingBits u = bs)

/-- R204: UP_RBITS n gives the next n data bits as a number, first bit most significant, and moves
UP_POS by n; with fewer left, RES = 0 and END = 1 with nothing consumed; n above 64 raises
CommandError. -/
def Obligations.UpRbitsReadsNextBits : Prop :=
  ∀ (s : State) (n : Byte),
    (n.toNat ≤ 64 → n.toNat ≤ (upcomingBits s.up).length → ∃ v : Word,
      exec (.upRbits n) s = .next { s with
        res := v
        endFlag := false
        up := { s.up with pos := s.up.pos + n.toNat } } ∧
      v.toNat = bitsValue ((upcomingBits s.up).take n.toNat)) ∧
    (n.toNat ≤ 64 → (upcomingBits s.up).length < n.toNat →
      exec (.upRbits n) s = .next { s with res := 0, endFlag := true }) ∧
    (64 < n.toNat → exec (.upRbits n) s = .next { s with
      latch := { fault := true, errKind := 7, errOp := 0x64 } })

/-! ## Trie and walker -/

/-- R220, R222: DT_BUILD succeeds exactly on prefix-free codes. It then writes TRIE, TRIE_NODES and
RES alone: the trie's leaves are the present symbols, each at the end of its meaningful bits, its
Inner nodes are the root and the places on the way to a leaf, every other place is Empty, and both
registers count the trie's nodes. Otherwise it raises InvalidCanonicalTable. -/
def Obligations.DtBuildAcceptsPrefixFreeCodes : Prop :=
  ∀ s : State, CodeOk s.code →
    (CodesPrefixFree s.code → ∃ (t : TrieNode) (n : Nat),
      exec .dtBuild s = .next { s with
        trie := t, trieNodes := BitVec.ofNat 64 n, res := BitVec.ofNat 64 n } ∧
      n = trieCount t ∧ n ≤ 16385 ∧
      (∀ bits b, nodeAt t bits = some (.leaf b) ↔
        ((tget s.code b).present = true ∧ bits = meaningfulBits (tget s.code b))) ∧
      ∀ bits, (∃ l r, nodeAt t bits = some (.inner l r)) ↔
        (bits = [] ∨ ∃ b, (tget s.code b).present = true ∧
          bits <+: meaningfulBits (tget s.code b) ∧ bits ≠ meaningfulBits (tget s.code b))) ∧
    (¬ CodesPrefixFree s.code → exec .dtBuild s = .next { s with
      latch := { fault := true, errKind := 2, errOp := 0x70 } })

/-- R224: DEC_SYM follows the coming bits from the root to a leaf, 1 to 64 of them, emits its symbol,
writes it to RES and moves UP_POS past the bits; bits that end inside the trie raise
TruncatedBitstream, a bit to an Empty child UnmappedCode, and a full DEC_COUNT CountOverflow. -/
def Obligations.DecSymDecodesOneSymbol : Prop :=
  ∀ s : State, (∃ l r, s.trie = .inner l r) →
    (∀ bits b, nodeAt s.trie bits = some (.leaf b) →
      1 ≤ bits.length ∧ (TrieOk s.trie s.trieNodes → bits.length ≤ 64)) ∧
    (∀ bits b, nodeAt s.trie bits = some (.leaf b) → bits <+: upcomingBits s.up →
      (s.dec.count ≠ 0xFFFFFFFFFFFFFFFF → exec .decSym s = .next { s with
        res := b.setWidth 64
        up := { s.up with pos := s.up.pos + bits.length }
        dec := { out := s.dec.out ++ [b], count := s.dec.count + 1 } }) ∧
      (s.dec.count = 0xFFFFFFFFFFFFFFFF → exec .decSym s = .next { s with
        latch := { fault := true, errKind := 8, errOp := 0x71 } })) ∧
    (∀ l r, nodeAt s.trie (upcomingBits s.up) = some (.inner l r) →
      exec .decSym s = .next { s with
        latch := { fault := true, errKind := 3, errOp := 0x71 } }) ∧
    (∀ bits, nodeAt s.trie bits = some .empty → bits <+: upcomingBits s.up →
      exec .decSym s = .next { s with
        latch := { fault := true, errKind := 6, errOp := 0x71 } })

/-- R225: where the coming bits begin with the paths of ARG leaves, DEC_RUN's output is their symbols,
in place of what DEC_OUT held, DEC_COUNT and RES are ARG, and the bits left over stay unread. Where
fewer leaves come and then the bits end inside the trie, or lead to an Empty child, it raises
TruncatedBitstream or UnmappedCode and writes nothing. ARG = 0 reads nothing. -/
def Obligations.DecRunDecodesArgSymbols : Prop :=
  ∀ (s : State) (paths : List (List Bool × Byte)) (rest : List Bool),
    (∃ l r, s.trie = .inner l r) →
    (∀ p ∈ paths, nodeAt s.trie p.1 = some (.leaf p.2)) →
    upcomingBits s.up = paths.flatMap Prod.fst ++ rest →
    (s.arg.toNat = paths.length → exec .decRun s = .next { s with
      up := { s.up with pos := s.up.pos + (paths.flatMap Prod.fst).length }
      dec := { out := paths.map Prod.snd, count := s.arg }
      res := s.arg }) ∧
    (paths.length < s.arg.toNat →
      ∀ l r, nodeAt s.trie rest = some (.inner l r) → exec .decRun s = .next { s with
        latch := { fault := true, errKind := 3, errOp := 0x72 } }) ∧
    (paths.length < s.arg.toNat →
      ∀ bits, nodeAt s.trie bits = some .empty → bits <+: rest → exec .decRun s = .next { s with
        latch := { fault := true, errKind := 6, errOp := 0x72 } })

/-- R226, the block's part: a payload that ENC_BYTE and PK_FINISH made with a code table is decoded by
DEC_RUN, with the trie DT_BUILD makes of that table, to the bytes encoded, and every data bit is
read. -/
def Obligations.DecodingInvertsEncoding : Prop :=
  ∀ (s : State) (code : Table CodeEntry) (bs : List Byte) (p q : Packer) (n : Nat),
    encodeBytes code bs packerInit = .ok p → finishPacker p = .ok q →
    buildTrie code = .ok (s.trie, n) →
    s.up = { buf := q.out, pad := q.padBits, pos := 0 } → s.arg.toNat = bs.length →
    exec .decRun s = .next { s with
      up := { s.up with pos := s.up.valid }
      dec := { out := bs, count := s.arg }
      res := s.arg }

/-! ## Invariants of every step -/

/-- R29. -/
def Obligations.StepKeepsLatchOk : Prop :=
  ∀ s t : State, LatchOk s.latch → step s = .next t → LatchOk t.latch

/-- R37. -/
def Obligations.StepKeepsTotalOfFrequencies : Prop :=
  ∀ s t : State, FreqOk s.fc → step s = .next t → FreqOk t.fc

/-- R38. -/
def Obligations.StepKeepsLeavesDistinct : Prop :=
  ∀ s t : State, TreeOk s.tree → step s = .next t → TreeOk t.tree

/-- R41, R42. -/
def Obligations.StepKeepsCodesAndEntriesOk : Prop :=
  ∀ s t : State, CodeOk s.code ∧ EntriesOk s.entries → step s = .next t →
    CodeOk t.code ∧ EntriesOk t.entries

/-- R43. -/
def Obligations.StepKeepsPackerOk : Prop :=
  ∀ s t : State, PackerOk s.pk → step s = .next t → PackerOk t.pk

/-- R44, R46. -/
def Obligations.StepKeepsUnpackerOk : Prop :=
  ∀ s t : State, s.cfg.Wf ∧ UnpackerOk s.cfg s.up → step s = .next t →
    t.cfg = s.cfg ∧ UnpackerOk t.cfg t.up

/-- R47. -/
def Obligations.StepKeepsDecodeCount : Prop :=
  ∀ s t : State, DecodeOk s.dec → step s = .next t → DecodeOk t.dec

/-- R48, R224: the root an Inner, TRIE_NODES its node count and at most 16385, and a depth of at most
64. DT_BUILD makes the trie of CODE, whose own invariant (R41) is kept with it. -/
def Obligations.StepKeepsTrieOk : Prop :=
  ∀ s t : State, CodeOk s.code ∧ TrieOk s.trie s.trieNodes → step s = .next t →
    CodeOk t.code ∧ TrieOk t.trie t.trieNodes

/-- The reset state meets every invariant above. -/
def Obligations.ResetMeetsInvariants : Prop := BlockOk State.reset

/-! ## Whole-machine rules -/

/-- R77's column of writers, R22 to R24 and R32: a command that is not among an element's writers
leaves that element unchanged. The writers are given by opcode. -/
def Obligations.OnlyListedCommandsWrite : Prop :=
  ∀ (i : Instr) (s t : State), exec i s = .next t →
    (i.opcode ∉ ([0x10, 0x11, 0x01] : List Byte) → t.fc = s.fc) ∧
    (i.opcode ∉ ([0x20, 0x01] : List Byte) → t.tree = s.tree) ∧
    (i.opcode ∉ ([0x30, 0x01] : List Byte) → t.len = s.len) ∧
    (i.opcode ∉ ([0x41, 0x42, 0x01] : List Byte) → t.entries = s.entries) ∧
    (i.opcode ∉ ([0x40, 0x44, 0x01] : List Byte) → t.code = s.code) ∧
    (i.opcode ∉ ([0x50, 0x51, 0x52, 0x53, 0x54, 0x01] : List Byte) → t.pk = s.pk) ∧
    (i.opcode ∉ ([0x60, 0x61, 0x01] : List Byte) → t.up.buf = s.up.buf) ∧
    (i.opcode ∉ ([0x60, 0x62, 0x63, 0x64, 0x71, 0x72, 0x01] : List Byte) →
      t.up.pad = s.up.pad ∧ t.up.pos = s.up.pos) ∧
    (i.opcode ∉ ([0x70, 0x01] : List Byte) → t.trie = s.trie ∧ t.trieNodes = s.trieNodes) ∧
    (i.opcode ∉ ([0x71, 0x72, 0x01] : List Byte) → t.dec = s.dec) ∧
    (i.opcode ∉ ([0x01] : List Byte) → t.arg = s.arg) ∧
    (i.opcode ∉ ([0x12, 0x20, 0x30, 0x31, 0x40, 0x43, 0x44, 0x45, 0x54, 0x63, 0x64, 0x70, 0x71,
      0x72, 0x01] : List Byte) → t.res = s.res) ∧
    (i.opcode ∉ ([0x45, 0x54, 0x01] : List Byte) → t.resx = s.resx) ∧
    (i.opcode ∉ ([0x60, 0x62, 0x63, 0x64, 0x01] : List Byte) → t.endFlag = s.endFlag) ∧
    t.cfg = s.cfg ∧ t.pending = s.pending ∧ t.answer = s.answer

/-! ## The host's container -/

/-- R240, R243: the parser accepts exactly the byte sequences the host writes, and gives their fields
back. -/
def Obligations.ParseOfWrittenContainer : Prop :=
  ∀ (c : Container) (bytes : List Byte),
    (writeContainer c = some bytes → parseContainer bytes = .ok c) ∧
    (parseContainer bytes = .ok c → writeContainer c = some bytes)

/-- R240, R242: a container within the format's limits is written as its header, field by field, and the
payload after it; the header has 17 + E + 2·K bytes. One with an extension longer than 255 bytes is not
written (the writer's limits: DEDUCED, notes/assumptions/14.md). R243: bytes the parser rejects end
decompression in MalformedHeader. R246: a stream of the caller's that fails ends the host's operation
in IOFailure, with no output, where the operation has come to it (DEDUCED, notes/assumptions/17.md); the
block's own faults never are that kind. -/
def Obligations.HeaderLengthAndRefusal : Prop :=
  (∀ c : Container,
    (c.extension.length ≤ 255 → c.table.length ≤ 256 →
      (∀ e ∈ c.table, 1 ≤ e.len.toNat ∧ e.len.toNat ≤ 64) → c.padBits.toNat ≤ 7 →
      ∃ header : List Byte, writeContainer c = some (header ++ c.payload) ∧
        header = [0x48, 0x5A, 0x49, 0x50] ++ [0x01] ++
          ((List.range 8).map fun k => c.originalSize.extractLsb' (8 * k) 8) ++
          [BitVec.ofNat 8 c.extension.length] ++ c.extension ++
          [BitVec.ofNat 8 c.table.length, BitVec.ofNat 8 (c.table.length / 256)] ++
          (c.table.flatMap fun e => [e.sym, e.len]) ++ [c.padBits] ∧
        header.length = 17 + c.extension.length + 2 * c.table.length) ∧
    (255 < c.extension.length → writeContainer c = none)) ∧
  (∀ (s : State) (input : List Byte) (output : StreamOutcome) (e : ParseError),
    parseContainer input = .error e →
    decompressFile s input .delivers output = .error (.host .malformedHeader)) ∧
  (∀ (s : State) (input extension : List Byte) (second output : StreamOutcome),
    compressFile s input extension .fails second output = .error (.host .ioFailure)) ∧
  (∀ (s t : State) (input extension : List Byte) (output : StreamOutcome),
    goodRun (countingAccesses input) s = .ok t →
    compressFile s input extension .delivers .fails output = .error (.host .ioFailure)) ∧
  (∀ (s : State) (input extension file : List Byte),
    compressFile s input extension .delivers .delivers .delivers = .ok file →
    compressFile s input extension .delivers .delivers .fails = .error (.host .ioFailure)) ∧
  (∀ (s : State) (input : List Byte) (output : StreamOutcome),
    decompressFile s input .fails output = .error (.host .ioFailure)) ∧
  (∀ (s : State) (input : List Byte) (r : List Byte × List Byte),
    decompressFile s input .delivers .delivers = .ok r →
    decompressFile s input .delivers .fails = .error (.host .ioFailure)) ∧
  ∀ (i : Instr) (s t : State), exec i s = .next t → s.latch.errKind ≠ FaultKind.ioFailure.code →
    t.latch.errKind ≠ FaultKind.ioFailure.code
end

