-- ==== Sys2Proof/Laws/Commands.lean ====
section
/-! SUPPORT. How a command ends: what `commit` answers, what each command computes, and that every
command answers a next state. -/

namespace Sys2Proof.Machine

@[simp] theorem commit_ok (i : Instr) (s t : State) : commit i s (.ok t) = .next t := rfl

@[simp] theorem commit_error (i : Instr) (s : State) (k : FaultKind) :
    commit i s (.error k) = .next (s.raise k i.opcode) := rfl

/-- Everything `commit` can do: the state the rule writes, or the fault entry. -/
theorem commit_cases {i : Instr} {s t : State} {r : Except FaultKind State}
    (h : commit i s r = .next t) : r = .ok t ∨ ∃ k, r = .error k ∧ t = s.raise k i.opcode := by
  cases r with
  | ok u => simp only [commit_ok, Host.Outcome.next.injEq] at h; exact .inl (h ▸ rfl)
  | error k => simp only [commit_error, Host.Outcome.next.injEq] at h; exact .inr ⟨k, rfl, h.symm⟩

/-- What the rule of a command makes of the state, or the kind it raises. -/
def commandResult (i : Instr) (s : State) : Except FaultKind State :=
  match i with
  | .nop => .ok s
  | .reset => .ok s.resetBlock
  | .fcClear => .ok { s with fc := freqCleared }
  | .fcByte b => (countByte b s.fc).map fun f => { s with fc := f }
  | .rdFreq a => .ok { s with res := tget s.fc.freq a }
  | .tbBuild => .ok { s with
      tree := buildTree s.fc.freq
      res := BitVec.ofNat 64 (presentLeaves s.fc.freq).length }
  | .ldDerive => .ok { s with
      len := deriveLengths s.tree
      res := (maxLength (deriveLengths s.tree)).setWidth 64 }
  | .rdLen a => .ok { s with res := (tget s.len a).setWidth 64 }
  | .caFromLen => (canonical s.len).map fun c => { s with
      code := c
      res := BitVec.ofNat 64 (s.len.cells.countP (fun l => l ≠ 0)) }
  | .enClear => .ok { s with entries := [] }
  | .enPush a b => (pushEntry { sym := a, len := b } s.entries).map fun es =>
      { s with entries := es }
  | .rdEntry a => (entryOperand s a).map fun e =>
      { s with res := (e.len ++ e.sym : BitVec 16).setWidth 64 }
  | .caFromEntries => (canonicalOfEntries s.entries).map fun c =>
      { s with code := c, res := BitVec.ofNat 64 s.enCount }
  | .rdCode a => .ok { s with
      res := (tget s.code a).code
      resx := (BitVec.ofBool (tget s.code a).present ++ (tget s.code a).len).setWidth 64 }
  | .pkInit => .ok { s with pk := packerInit }
  | .pkWbit a => (pkWbit a s.pk).map fun p => { s with pk := p }
  | .pkWbits b => (pkWbits b (argOperand s) s.pk).map fun p => { s with pk := p }
  | .encByte b => (encodeSymbol (tget s.code b) s.pk).map fun p => { s with pk := p }
  | .pkFinish => (pkFinish s.pk).map fun p =>
      { s with pk := p, res := p.byteCount, resx := p.padBits.setWidth 64 }
  | .inClear => .ok { s with up := { buf := [], pad := 0, pos := 0 }, endFlag := false }
  | .inPush b => (pushByte s.cfg b s.up).map fun u => { s with up := u }
  | .upOpen a => (padOperand a).map fun p =>
      { s with up := { s.up with pad := p, pos := 0 }, endFlag := false }
  | .upRbit => .ok (deliver s
      ((readBit s.up).map fun r => ((BitVec.ofBool r.1).setWidth 64, r.2)))
  | .upRbits b => (countOperand b).map fun n => deliver s (readBits n s.up)
  | .dtBuild => (buildTrie s.code).map fun r =>
      { s with trie := r.1, trieNodes := BitVec.ofNat 64 r.2, res := BitVec.ofNat 64 r.2 }
  | .decSym => (decodeSymbol s.trie s.up s.dec).map fun r =>
      { s with res := r.1.setWidth 64, up := r.2.1, dec := r.2.2 }
  | .decRun =>
      (decodeSymbols s.trie (argOperand s).toNat s.up { out := [], count := 0 }).map fun r =>
        { s with up := r.1, dec := r.2, res := r.2.count }

/-- `exec` commits what the command's rule makes of the state. -/
theorem exec_eq_commit (i : Instr) (s : State) : exec i s = commit i s (commandResult i s) := by
  cases i <;> rfl

/-- Every command answers a next state: "every command ends" (93_implementation_defined.md). -/
theorem exec_answers_next (i : Instr) (s : State) : ∃ t, exec i s = .next t := by
  rw [exec_eq_commit]
  cases commandResult i s with
  | ok t => exact ⟨t, rfl⟩
  | error k => exact ⟨_, rfl⟩

/-- Everything a command can do: what its rule makes of the state, or the fault entry. -/
theorem exec_cases {i : Instr} {s t : State} (h : exec i s = .next t) :
    commandResult i s = .ok t ∨ ∃ k, commandResult i s = .error k ∧ t = s.raise k i.opcode :=
  commit_cases ((exec_eq_commit i s).symm.trans h)

/-- `Except.map` gives a value only from a value. -/
theorem map_eq_ok {ε α β : Type} {f : α → β} {x : Except ε α} {b : β} :
    x.map f = .ok b ↔ ∃ a, x = .ok a ∧ f a = b := by
  cases x <;> simp [Except.map]

/-- `Except.map` gives an error only from that error. -/
theorem map_eq_error {ε α β : Type} {f : α → β} {x : Except ε α} {e : ε} :
    x.map f = .error e ↔ x = .error e := by
  cases x <;> simp [Except.map]

@[simp] theorem map_ok {ε α β : Type} (f : α → β) (a : α) :
    (Except.ok a : Except ε α).map f = .ok (f a) := rfl

@[simp] theorem map_error {ε α β : Type} (f : α → β) (e : ε) :
    (Except.error e : Except ε α).map f = .error e := rfl

end Sys2Proof.Machine
end

