-- ==== Sys2Proof/Laws/State.lean ====
section
/-! SUPPORT. What each named update of the state does to each field it may touch, and that it leaves
the others. -/

namespace Sys2Proof.Machine

/-! Fault entry (R305): the latch and nothing else. -/

@[simp] theorem raise_latch (s : State) (k : FaultKind) (o : Byte) :
    (s.raise k o).latch = { fault := true, errKind := k.code, errOp := o } := rfl
@[simp] theorem raise_cfg (s : State) (k : FaultKind) (o : Byte) : (s.raise k o).cfg = s.cfg := rfl
@[simp] theorem raise_pending (s : State) (k : FaultKind) (o : Byte) :
    (s.raise k o).pending = s.pending := rfl
@[simp] theorem raise_answer (s : State) (k : FaultKind) (o : Byte) :
    (s.raise k o).answer = s.answer := rfl
@[simp] theorem raise_arg (s : State) (k : FaultKind) (o : Byte) : (s.raise k o).arg = s.arg := rfl
@[simp] theorem raise_res (s : State) (k : FaultKind) (o : Byte) : (s.raise k o).res = s.res := rfl
@[simp] theorem raise_resx (s : State) (k : FaultKind) (o : Byte) :
    (s.raise k o).resx = s.resx := rfl
@[simp] theorem raise_endFlag (s : State) (k : FaultKind) (o : Byte) :
    (s.raise k o).endFlag = s.endFlag := rfl
@[simp] theorem raise_fc (s : State) (k : FaultKind) (o : Byte) : (s.raise k o).fc = s.fc := rfl
@[simp] theorem raise_tree (s : State) (k : FaultKind) (o : Byte) :
    (s.raise k o).tree = s.tree := rfl
@[simp] theorem raise_len (s : State) (k : FaultKind) (o : Byte) : (s.raise k o).len = s.len := rfl
@[simp] theorem raise_code (s : State) (k : FaultKind) (o : Byte) :
    (s.raise k o).code = s.code := rfl
@[simp] theorem raise_entries (s : State) (k : FaultKind) (o : Byte) :
    (s.raise k o).entries = s.entries := rfl
@[simp] theorem raise_pk (s : State) (k : FaultKind) (o : Byte) : (s.raise k o).pk = s.pk := rfl
@[simp] theorem raise_up (s : State) (k : FaultKind) (o : Byte) : (s.raise k o).up = s.up := rfl
@[simp] theorem raise_dec (s : State) (k : FaultKind) (o : Byte) : (s.raise k o).dec = s.dec := rfl
@[simp] theorem raise_trie (s : State) (k : FaultKind) (o : Byte) :
    (s.raise k o).trie = s.trie := rfl
@[simp] theorem raise_trieNodes (s : State) (k : FaultKind) (o : Byte) :
    (s.raise k o).trieNodes = s.trieNodes := rfl

/-! Reset (R49): every element of the block; the model's own fields stay. -/

@[simp] theorem resetBlock_cfg (s : State) : s.resetBlock.cfg = s.cfg := rfl
@[simp] theorem resetBlock_pending (s : State) : s.resetBlock.pending = s.pending := rfl
@[simp] theorem resetBlock_answer (s : State) : s.resetBlock.answer = s.answer := rfl
@[simp] theorem resetBlock_arg (s : State) : s.resetBlock.arg = 0 := rfl
@[simp] theorem resetBlock_res (s : State) : s.resetBlock.res = 0 := rfl
@[simp] theorem resetBlock_resx (s : State) : s.resetBlock.resx = 0 := rfl
@[simp] theorem resetBlock_latch (s : State) :
    s.resetBlock.latch = { fault := false, errKind := 0, errOp := 0 } := rfl
@[simp] theorem resetBlock_endFlag (s : State) : s.resetBlock.endFlag = false := rfl
@[simp] theorem resetBlock_fc (s : State) :
    s.resetBlock.fc = { freq := Table.fill 0, total := 0 } := rfl
@[simp] theorem resetBlock_tree (s : State) : s.resetBlock.tree = none := rfl
@[simp] theorem resetBlock_len (s : State) : s.resetBlock.len = Table.fill 0 := rfl
@[simp] theorem resetBlock_code (s : State) :
    s.resetBlock.code = Table.fill { present := false, code := 0, len := 0 } := rfl
@[simp] theorem resetBlock_entries (s : State) : s.resetBlock.entries = [] := rfl
@[simp] theorem resetBlock_pk (s : State) : s.resetBlock.pk =
    { acc := 0, nbits := 0, padBits := 0, fin := false, byteCount := 0, out := [] } := rfl
@[simp] theorem resetBlock_up (s : State) :
    s.resetBlock.up = { buf := [], pad := 0, pos := 0 } := rfl
@[simp] theorem resetBlock_dec (s : State) : s.resetBlock.dec = { out := [], count := 0 } := rfl
@[simp] theorem resetBlock_trie (s : State) : s.resetBlock.trie = .inner .empty .empty := rfl
@[simp] theorem resetBlock_trieNodes (s : State) : s.resetBlock.trieNodes = 1 := rfl

/-! The delivery of an unpacker read (R203, R204): RES, END, and the unpacker on data. -/

@[simp] theorem deliver_none (s : State) :
    deliver s none = { s with res := 0, endFlag := true } := rfl
@[simp] theorem deliver_some (s : State) (v : Word) (u : Unpacker) :
    deliver s (some (v, u)) = { s with res := v, endFlag := false, up := u } := rfl
@[simp] theorem deliver_cfg (s : State) (r : Option (Word × Unpacker)) :
    (deliver s r).cfg = s.cfg := by cases r <;> rfl
@[simp] theorem deliver_pending (s : State) (r : Option (Word × Unpacker)) :
    (deliver s r).pending = s.pending := by cases r <;> rfl
@[simp] theorem deliver_answer (s : State) (r : Option (Word × Unpacker)) :
    (deliver s r).answer = s.answer := by cases r <;> rfl
@[simp] theorem deliver_arg (s : State) (r : Option (Word × Unpacker)) :
    (deliver s r).arg = s.arg := by cases r <;> rfl
@[simp] theorem deliver_resx (s : State) (r : Option (Word × Unpacker)) :
    (deliver s r).resx = s.resx := by cases r <;> rfl
@[simp] theorem deliver_latch (s : State) (r : Option (Word × Unpacker)) :
    (deliver s r).latch = s.latch := by cases r <;> rfl
@[simp] theorem deliver_fc (s : State) (r : Option (Word × Unpacker)) :
    (deliver s r).fc = s.fc := by cases r <;> rfl
@[simp] theorem deliver_tree (s : State) (r : Option (Word × Unpacker)) :
    (deliver s r).tree = s.tree := by cases r <;> rfl
@[simp] theorem deliver_len (s : State) (r : Option (Word × Unpacker)) :
    (deliver s r).len = s.len := by cases r <;> rfl
@[simp] theorem deliver_code (s : State) (r : Option (Word × Unpacker)) :
    (deliver s r).code = s.code := by cases r <;> rfl
@[simp] theorem deliver_entries (s : State) (r : Option (Word × Unpacker)) :
    (deliver s r).entries = s.entries := by cases r <;> rfl
@[simp] theorem deliver_pk (s : State) (r : Option (Word × Unpacker)) :
    (deliver s r).pk = s.pk := by cases r <;> rfl
@[simp] theorem deliver_dec (s : State) (r : Option (Word × Unpacker)) :
    (deliver s r).dec = s.dec := by cases r <;> rfl
@[simp] theorem deliver_trie (s : State) (r : Option (Word × Unpacker)) :
    (deliver s r).trie = s.trie := by cases r <;> rfl
@[simp] theorem deliver_trieNodes (s : State) (r : Option (Word × Unpacker)) :
    (deliver s r).trieNodes = s.trieNodes := by cases r <;> rfl
theorem deliver_up (s : State) (r : Option (Word × Unpacker)) :
    (deliver s r).up = (r.map Prod.snd).getD s.up := by cases r <;> rfl

/-! The placing of a command for the next step. -/

@[simp] theorem withFetchWord_pending (s : State) (n w : Nat) :
    (s.withFetchWord n w).pending = tableWordAccess n w :: s.pending := rfl
@[simp] theorem withFetchWord_latch (s : State) (n w : Nat) :
    (s.withFetchWord n w).latch = s.latch := rfl

end Sys2Proof.Machine
end

