-- ==== Sys2Proof/Laws/Access.lean ====
section
/-! SUPPORT. Everything one step can do: the host's access, the gate, and the command. -/

namespace Sys2Proof.Machine

/-- The registers' offsets: R26 lists a register at each multiple of 8 below 0x80 and nowhere else. -/
theorem regAt_isSome (o : Nat) : (regAt o).isSome ↔ o % 8 = 0 ∧ o < 0x80 := by
  constructor
  · intro h
    unfold regAt at h
    split at h <;> simp_all
  · rintro ⟨h8, hlt⟩
    obtain ⟨k, rfl⟩ : ∃ k, o = 8 * k := ⟨o / 8, by omega⟩
    have : k < 16 := by omega
    interval_cases k <;> rfl

/-- A register access passes its checks exactly at a mapped offset, with 64 bits (R63). -/
theorem checkAccess_ok {o w : Nat} {r : Reg} :
    checkAccess o w = .ok r ↔ w = 64 ∧ regAt o = some r := by
  unfold checkAccess
  by_cases hw : w = 64 <;> by_cases h8 : o % 8 = 0 <;> simp [hw, h8]
  · cases regAt o <;> simp
  · intro h
    exact h8 ((regAt_isSome o).mp (by simp [h])).1

/-- What a write to CMD can do (R120): be dropped, reset the block, raise CommandError, or run its
command. -/
theorem writeCmd_cases {x : Word} {s t : State} (h : writeCmd x s = .next t) :
    (s.latch.fault = true ∧ x ≠ resetWord ∧ t = s) ∨
    (s.latch.fault = true ∧ x = resetWord ∧ t = s.resetBlock) ∨
    (s.latch.fault = false ∧ (∃ e, decode x = .error e) ∧ t = s.raise .commandError (cmdOpc x)) ∨
    (s.latch.fault = false ∧ ∃ i, decode x = .ok i ∧ exec i s = .next t) := by
  unfold writeCmd at h
  split at h
  · next hf =>
    split at h
    · next hx =>
      refine .inr (.inl ⟨hf, hx, ?_⟩)
      have : exec .reset s = .next s.resetBlock := rfl
      rw [this] at h
      exact (Host.Outcome.next.inj h).symm
    · next hx => exact .inl ⟨hf, hx, (Host.Outcome.next.inj h).symm⟩
  · next hf =>
    have hf : s.latch.fault = false := by simpa using hf
    split at h
    · next e he => exact .inr (.inr (.inl ⟨hf, ⟨e, he⟩, (Host.Outcome.next.inj h).symm⟩))
    · next i hi => exact .inr (.inr (.inr ⟨hf, i, hi, h⟩))

/-- Everything a step can do. Write `u` for the state with the access taken off the host's list. -/
theorem step_cases {s t : State} (h : step s = .next t) :
    (s.pending = [] ∧ t = s) ∨
    ∃ a rest, s.pending = a :: rest ∧
      ((∃ o r, a = .read o 64 ∧ regAt o = some r ∧
          t = { s with pending := rest, answer := .value (s.readReg r) }) ∨
        (a = .readPkOut ∧ t = { s with pending := rest, answer := .stream s.pk.out }) ∨
        (a = .readDecOut ∧ t = { s with pending := rest, answer := .stream s.dec.out }) ∨
        (a = .hardReset ∧ t = { s.resetBlock with pending := rest, answer := .complete }) ∨
        (∃ v, a = .write 0x08 64 v ∧
          t = { s with pending := rest, answer := .complete, arg := v }) ∨
        (∃ x, a = .write 0x00 64 x ∧
          writeCmd x { s with pending := rest, answer := .complete } = .next t)) := by
  unfold step nextAccess at h
  split at h
  · next hp => exact .inl ⟨hp, (Host.Outcome.next.inj h).symm⟩
  · next a rest hp =>
    refine .inr ⟨a, rest, hp, ?_⟩
    cases a with
    | read o w =>
      simp only [hostAccess] at h
      split at h
      · next r hr =>
        obtain ⟨rfl, hm⟩ := checkAccess_ok.mp hr
        refine .inl ⟨o, r, rfl, hm, ?_⟩
        have ht := (Host.Outcome.next.inj h).symm
        rw [ht]
        cases r <;> rfl
      · cases h
    | write o w v =>
      simp only [hostAccess] at h
      split at h
      · next r hr =>
        obtain ⟨rfl, hm⟩ := checkAccess_ok.mp hr
        cases r with
        | cmd =>
          have ho : o = 0x00 := by
            unfold regAt at hm; split at hm <;> simp_all
          subst ho
          exact .inr (.inr (.inr (.inr (.inr ⟨v, rfl, h⟩))))
        | arg =>
          have ho : o = 0x08 := by
            unfold regAt at hm; split at hm <;> simp_all
          subst ho
          exact .inr (.inr (.inr (.inr (.inl ⟨v, rfl, (Host.Outcome.next.inj h).symm⟩))))
        | _ => cases h
      · cases h
    | readPkOut => exact .inr (.inl ⟨rfl, (Host.Outcome.next.inj h).symm⟩)
    | readDecOut => exact .inr (.inr (.inl ⟨rfl, (Host.Outcome.next.inj h).symm⟩))
    | hardReset => exact .inr (.inr (.inr (.inl ⟨rfl, (Host.Outcome.next.inj h).symm⟩)))

/-- A step whose next access writes CMD is that write. -/
theorem step_writeCmd {s : State} {rest : List Access} {x : Word}
    (h : s.pending = .write 0x00 64 x :: rest) :
    step s = writeCmd x { s with pending := rest, answer := .complete } := by
  unfold step nextAccess
  rw [h]
  rfl

end Sys2Proof.Machine
end

