-- ==== Sys2Proof/Laws/Bits.lean ====
section
/-! SUPPORT. The bit packer and unpacker as bit strings: what writing and reading a bit do to the bits
held, and when they fail (45_bit_packer.md R181, 46_bit_unpacker.md R205). -/

namespace Sys2Proof.Machine

/-! Bit strings. -/

theorem bitsMsb_eq (v : Word) (n : Nat) :
    bitsMsb v n = (List.range n).reverse.map fun k => v.getLsbD k := by
  induction n with
  | zero => rfl
  | succ n ih => simp [bitsMsb, ih, List.range_succ]

@[simp] theorem bitsMsb_length (v : Word) (n : Nat) : (bitsMsb v n).length = n := by
  simp [bitsMsb_eq]

theorem bitsMsb_getElem (v : Word) (n i : Nat) (h : i < (bitsMsb v n).length) :
    (bitsMsb v n)[i] = v.getLsbD (n - 1 - i) := by
  simp [bitsMsb_eq]

@[simp] theorem byteBits_length (b : Byte) : (byteBits b).length = 8 := bitsMsb_length _ _

/-- Bit `i` of a byte, counted from the first (R67). -/
theorem byteBits_getElem (b : Byte) (i : Nat) (h : i < (byteBits b).length) :
    (byteBits b)[i] = b.getLsbD (7 - i) := by
  have hi : i < 8 := by simpa using h
  simp [byteBits, bitsMsb_getElem]
  omega

/-- A value that is another shifted left by one with `b` put in has that value's bits, then `b`. -/
theorem bitsMsb_succ_of_shift {v w : Word} {n : Nat} {b : Bool} (h0 : w.getLsbD 0 = b)
    (hs : ∀ k, k < n → w.getLsbD (k + 1) = v.getLsbD k) :
    bitsMsb w (n + 1) = bitsMsb v n ++ [b] := by
  induction n with
  | zero => simp only [bitsMsb, h0, List.nil_append]
  | succ n ih =>
    rw [bitsMsb, hs n (Nat.lt_succ_self n), ih fun k hk => hs k (Nat.lt_succ_of_lt hk)]
    rfl

theorem shiftIn_getLsbD_zero (acc : Byte) (b : Bool) : (shiftIn acc b).getLsbD 0 = b := by
  cases b <;> simp [shiftIn]

theorem shiftIn_getLsbD_succ (acc : Byte) (b : Bool) {k : Nat} (h : k < 7) :
    (shiftIn acc b).getLsbD (k + 1) = acc.getLsbD k := by
  have hk : k + 1 < 8 := by omega
  cases b <;> simp [shiftIn, hk, BitVec.getLsbD_eq_getElem (show k < 8 by omega)]

theorem shiftIn_toNat (acc : Byte) (b : Bool) (h : acc.toNat < 128) :
    (shiftIn acc b).toNat = 2 * acc.toNat + b.toNat := by
  have hs : (acc <<< 1).toNat = acc.toNat <<< 1 := by
    rw [BitVec.toNat_shiftLeft, Nat.mod_eq_of_lt]
    rw [Nat.shiftLeft_eq]
    omega
  have hb : ((BitVec.ofBool b).setWidth 8).toNat = b.toNat := by cases b <;> rfl
  rw [shiftIn, BitVec.toNat_or, hs, hb, ← Nat.shiftLeft_add_eq_or_of_lt (by cases b <;> decide),
    Nat.shiftLeft_eq]
  omega

/-- Bit `i` of a register that holds field `v` from bit `k` up. -/
theorem fieldAt_getLsbD {w : Nat} (v : BitVec w) (k i : Nat) :
    (fieldAt v k).getLsbD i = (decide (k ≤ i ∧ i < 64) && v.getLsbD (i - k)) := by
  simp only [fieldAt, BitVec.getLsbD_shiftLeft, BitVec.getLsbD_setWidth]
  by_cases h : k ≤ i <;> by_cases h2 : i < 64
  · have : i - k < 64 := by omega
    simp [h, h2, this]
  all_goals simp [h, h2]

/-! The packer. -/

theorem packedBits_length (p : Packer) :
    (packedBits p).length = 8 * p.out.length + p.nbits.toNat := by
  simp [packedBits, List.length_flatMap, Nat.mul_comm]

/-- `emit_PK` (R181): the byte goes out unless the count is full. -/
theorem emitPk_ok (b : Byte) (p : Packer) (h : p.byteCount ≠ maxCount) :
    emitPk b p = .ok { p with out := p.out ++ [b], byteCount := p.byteCount + 1 } := by
  simp [emitPk, h]

theorem emitPk_full (b : Byte) (p : Packer) (h : p.byteCount = maxCount) :
    emitPk b p = .error .countOverflow := by
  simp [emitPk, h]

theorem ne_maxCount_iff (w : Word) : w ≠ maxCount ↔ w.toNat + 1 < 2 ^ 64 := by
  have : maxCount.toNat = 2 ^ 64 - 1 := by decide
  constructor
  · intro h
    have : w.toNat ≠ maxCount.toNat := fun e => h (BitVec.eq_of_toNat_eq e)
    have := w.isLt
    omega
  · rintro h rfl
    omega

theorem toNat_succ_of_ne_max {w : Word} (h : w ≠ maxCount) : (w + 1).toNat = w.toNat + 1 := by
  have := (ne_maxCount_iff w).mp h
  rw [BitVec.toNat_add]
  simpa using this

theorem bits_before_byte (p : Packer) (b : Bool) (n : Nat) (h : n ≤ 7) :
    bitsMsb ((shiftIn p.acc b).setWidth 64) (n + 1) = bitsMsb (p.acc.setWidth 64) n ++ [b] :=
  bitsMsb_succ_of_shift (by rw [BitVec.getLsbD_setWidth, shiftIn_getLsbD_zero]; rfl) fun k hk => by
    have h1 : k + 1 < 64 := by omega
    have h2 : k < 64 := by omega
    simp [shiftIn_getLsbD_succ p.acc b (show k < 7 by omega), h1, h2]

/-- Everything `writeBit` can do (R181): append its bit, or find no room for the byte it ends. -/
theorem writeBit_spec (b : Bool) (p : Packer) (hp : PackerOk p) :
    (RoomFor p 1 → ∃ q, writeBit b p = .ok q ∧ Appended p q [b]) ∧
    (¬ RoomFor p 1 → writeBit b p = .error .countOverflow) := by
  have hlt := p.nbits.isLt
  by_cases h7 : p.nbits = 7
  · have hn : p.nbits.toNat = 7 := by rw [h7]; rfl
    have hroom : RoomFor p 1 ↔ p.byteCount ≠ maxCount := by
      rw [ne_maxCount_iff, RoomFor, hn]
    refine ⟨fun h => ?_, fun h => ?_⟩
    · have hne := hroom.mp h
      refine ⟨{ p with
          acc := 0
          nbits := 0
          out := p.out ++ [shiftIn p.acc b]
          byteCount := p.byteCount + 1 },
        by rw [writeBit, if_pos h7, emitPk_ok _ _ hne]; rfl, ?_, ⟨?_, ?_⟩, rfl, rfl⟩
      · have := bits_before_byte p b 7 (by omega)
        simp only [packedBits, hn, List.flatMap_append, List.flatMap_cons, List.flatMap_nil,
          List.append_nil, List.append_assoc, ← this]
        rfl
      · show (p.byteCount + 1).toNat = (p.out ++ [shiftIn p.acc b]).length
        rw [toNat_succ_of_ne_max hne, hp.1, List.length_append]
        rfl
      · exact Nat.one_pos
    · have hfull : p.byteCount = maxCount := not_not.mp fun hne => h (hroom.mpr hne)
      rw [writeBit, if_pos h7, emitPk_full _ _ hfull]
      rfl
  · have hn : p.nbits.toNat < 7 := by
      have : p.nbits.toNat ≠ 7 := fun e => h7 (BitVec.eq_of_toNat_eq e)
      omega
    have hsucc : (p.nbits + 1).toNat = p.nbits.toNat + 1 := by
      rw [BitVec.toNat_add]
      exact Nat.mod_eq_of_lt (show p.nbits.toNat + 1 < 2 ^ 3 by omega)
    have hroom : RoomFor p 1 := by
      have := p.byteCount.isLt
      simp only [RoomFor]
      omega
    refine ⟨fun _ => ⟨{ p with
        acc := shiftIn p.acc b
        nbits := p.nbits + 1 }, by rw [writeBit, if_neg h7], ?_, ⟨hp.1, ?_⟩, rfl, rfl⟩,
      fun h => absurd hroom h⟩
    · simp only [packedBits, hsucc, bits_before_byte p b _ (Nat.le_of_lt hn), List.append_assoc]
    · have h128 : p.acc.toNat < 128 :=
        lt_of_lt_of_le hp.2 (Nat.pow_le_pow_right (by omega) (Nat.le_of_lt hn) : _ ≤ 2 ^ 7)
      have := hp.2
      have hb : b.toNat ≤ 1 := Bool.toNat_le b
      simp only [hsucc, shiftIn_toNat _ _ h128, Nat.pow_succ]
      omega

theorem Appended.refl {p : Packer} (hp : PackerOk p) : Appended p p [] :=
  ⟨(List.append_nil _).symm, hp, rfl, rfl⟩

theorem Appended.trans {p q r : Packer} {a b : List Bool} (h : Appended p q a)
    (h' : Appended q r b) : Appended p r (a ++ b) :=
  ⟨by rw [h'.1, h.1, List.append_assoc], h'.2.1, h'.2.2.1.trans h.2.2.1,
    h'.2.2.2.trans h.2.2.2⟩

/-- How the packer's count and partial byte stand once `n` bits are appended. -/
theorem Appended.room {p q : Packer} {a : List Bool} (hp : PackerOk p) (h : Appended p q a) :
    8 * q.byteCount.toNat + q.nbits.toNat =
      8 * p.byteCount.toNat + p.nbits.toNat + a.length := by
  have := congrArg List.length h.1
  rw [List.length_append, packedBits_length, packedBits_length] at this
  rw [h.2.1.1, hp.1]
  omega

/-- Everything writing a list of bits can do: append them all, or find no room. -/
theorem writeBitList_spec (bits : List Bool) (p : Packer) (hp : PackerOk p) :
    (RoomFor p bits.length → ∃ q, writeBitList bits p = .ok q ∧ Appended p q bits) ∧
    (¬ RoomFor p bits.length → writeBitList bits p = .error .countOverflow) := by
  induction bits generalizing p with
  | nil => exact ⟨fun _ => ⟨p, rfl, Appended.refl hp⟩, fun h => absurd (by
      have := p.byteCount.isLt; have := p.nbits.isLt
      simp only [RoomFor, List.length_nil]; omega) h⟩
  | cons b bs ih =>
    have hlt := p.nbits.isLt
    by_cases h1 : RoomFor p 1
    · obtain ⟨q, hq, ha⟩ := (writeBit_spec b p hp).1 h1
      have hroom : RoomFor q bs.length ↔ RoomFor p (b :: bs).length := by
        have := ha.room hp
        have := q.nbits.isLt
        simp only [RoomFor, List.length_cons, List.length_nil] at *
        omega
      simp only [writeBitList, hq]
      refine ⟨fun h => ?_, fun h => (ih q ha.2.1).2 fun hr => h (hroom.mp hr)⟩
      obtain ⟨r, hr, ha'⟩ := (ih q ha.2.1).1 (hroom.mpr h)
      exact ⟨r, hr, ha.trans ha'⟩
    · have hno : ¬ RoomFor p (b :: bs).length := by
        simp only [RoomFor, List.length_cons] at h1 ⊢
        omega
      simp only [writeBitList, (writeBit_spec b p hp).2 h1]
      exact ⟨fun h => absurd h hno, fun _ => trivial⟩

/-! The unpacker. -/

theorem flatMap_byteBits_length (l : List Byte) : (l.flatMap byteBits).length = 8 * l.length := by
  simp [List.length_flatMap, Nat.mul_comm]

/-- Bit `i` of a byte string lies in byte `i / 8`, at place `i % 8` from the first (R45). -/
theorem flatMap_byteBits_getElem (l : List Byte) (i : Nat) (h : i < (l.flatMap byteBits).length) :
    (l.flatMap byteBits)[i] = (l.getD (i / 8) 0).getLsbD (7 - i % 8) := by
  induction l generalizing i with
  | nil => simp at h
  | cons b bs ih =>
    simp only [List.flatMap_cons]
    rw [List.getElem_append]
    split
    · next hlt =>
      have : i < 8 := by simpa using hlt
      rw [byteBits_getElem, Nat.div_eq_of_lt this, Nat.mod_eq_of_lt this]
      rfl
    · next hge =>
      have h8 : 8 ≤ i := by simpa using hge
      rw [ih]
      have h1 : i / 8 = (i - 8) / 8 + 1 := by omega
      have h2 : (i - 8) % 8 = i % 8 := by omega
      simp [h1, h2]

theorem valid_le (u : Unpacker) : u.valid ≤ 8 * u.buf.length := by
  rw [Unpacker.valid, Unpacker.inLen]
  split <;> omega

theorem upcomingBits_length (u : Unpacker) : (upcomingBits u).length = u.valid - u.pos := by
  have := valid_le u
  simp only [upcomingBits, List.length_drop, List.length_take, flatMap_byteBits_length]
  omega

/-- END is exactly "no valid bit left" (R205). -/
theorem readBit_none_iff (u : Unpacker) : readBit u = none ↔ upcomingBits u = [] := by
  rw [← List.length_eq_zero_iff, upcomingBits_length, readBit]
  split <;> simp <;> omega

/-- The unpacker once `n` more bits are consumed. -/
def moved (u : Unpacker) (n : Nat) : Unpacker := { u with pos := u.pos + n }

@[simp] theorem moved_zero (u : Unpacker) : moved u 0 = u := rfl

@[simp] theorem moved_moved (u : Unpacker) (m n : Nat) :
    moved (moved u m) n = moved u (m + n) := by
  rw [moved, moved, moved, Nat.add_assoc]

@[simp] theorem upcomingBits_moved (u : Unpacker) (n : Nat) :
    upcomingBits (moved u n) = (upcomingBits u).drop n :=
  (List.drop_drop ..).symm

/-- Everything `readBit` does when a bit is left (R205): it gives the next one and UP_POS moves by
one. -/
theorem readBit_of_cons {u : Unpacker} {b : Bool} {bs : List Bool}
    (h : upcomingBits u = b :: bs) : readBit u = some (b, moved u 1) := by
  have hlen := congrArg List.length h
  rw [upcomingBits_length, List.length_cons] at hlen
  have hlt : u.pos < u.valid := by omega
  have hl : u.pos < (u.buf.flatMap byteBits).length := by
    rw [flatMap_byteBits_length]
    exact lt_of_lt_of_le hlt (valid_le u)
  have ht : u.pos < ((u.buf.flatMap byteBits).take u.valid).length := by
    rw [List.length_take]
    omega
  have hb : bitAtPos u = b := by
    rw [upcomingBits, List.drop_eq_getElem_cons ht, List.getElem_take,
      flatMap_byteBits_getElem] at h
    exact (List.cons.inj h).1
  rw [readBit, if_neg (Nat.not_le.mpr hlt), hb]
  rfl

end Sys2Proof.Machine
end

