-- ==== Sys2Proof/Laws/Container.lean ====
section
/-! SUPPORT. The fields of a container: little-endian integers, the table's bytes and taking a field
(48_host_container.md R240, R243). -/

namespace Sys2Proof.Machine

@[simp] theorem littleEndian_length (n v : Nat) : (littleEndian n v).length = n := by
  induction n generalizing v with
  | zero => rfl
  | succ n ih => simp [littleEndian, ih]

/-- A number that fits `n` bytes is the value of its bytes. -/
theorem littleEndianValue_littleEndian (n v : Nat) (h : v < 256 ^ n) :
    littleEndianValue (littleEndian n v) = v := by
  induction n generalizing v with
  | zero => simp only [Nat.pow_zero, Nat.lt_one_iff] at h; simp [littleEndian, littleEndianValue, h]
  | succ n ih =>
    have : v / 256 < 256 ^ n := Nat.div_lt_of_lt_mul (by rw [Nat.pow_succ] at h; omega)
    simp only [littleEndian, littleEndianValue, ih _ this, BitVec.toNat_ofNat]
    omega

@[simp] theorem tableBytes_length (es : List Entry) : (tableBytes es).length = 2 * es.length := by
  induction es with
  | nil => rfl
  | cons e es ih => simp only [tableBytes, List.length_cons, ih]; omega

@[simp] theorem entriesOfBytes_tableBytes (es : List Entry) :
    entriesOfBytes (tableBytes es) = es := by
  induction es with
  | nil => rfl
  | cons e es ih => simp [tableBytes, entriesOfBytes, ih]

/-- Taking a field whose bytes come first. -/
theorem takeField_append {n : Nat} {a : List Byte} (r : List Byte) (h : a.length = n) :
    takeField n (a ++ r) = .ok (a, r) := by
  subst h
  simp [takeField]

/-- Too few bytes: "truncated field" (R243). -/
theorem takeField_short {n : Nat} {bytes : List Byte} (h : bytes.length < n) :
    takeField n bytes = .error .truncatedField := by
  simp [takeField, h]

/-- Everything taking a field does when it succeeds: the field has its length and comes first. -/
theorem takeField_eq_ok {n : Nat} {bytes a r : List Byte} :
    takeField n bytes = .ok (a, r) ↔ bytes = a ++ r ∧ a.length = n := by
  refine ⟨fun h => ?_, fun ⟨h, ha⟩ => h ▸ takeField_append r ha⟩
  unfold takeField at h
  split at h
  · cases h
  · simp only [Except.ok.injEq, Prod.mk.injEq] at h
    obtain ⟨rfl, rfl⟩ := h
    exact ⟨(List.take_append_drop n bytes).symm, by rw [List.length_take]; omega⟩

/-- Everything a check of R243 does when it passes. -/
theorem require_eq_ok {ok : Bool} {e : ParseError} {u : Unit} :
    require ok e = .ok u ↔ ok = true := by
  cases ok <;> simp [require]

/-- The bytes of a little-endian value are the ones it came from. -/
theorem littleEndian_littleEndianValue (bs : List Byte) :
    littleEndian bs.length (littleEndianValue bs) = bs := by
  induction bs with
  | nil => rfl
  | cons b bs ih =>
    have hb := b.isLt
    have h1 : (b.toNat + 256 * littleEndianValue bs) / 256 = littleEndianValue bs := by omega
    have h2 : BitVec.ofNat 8 (b.toNat + 256 * littleEndianValue bs) = b := by
      apply BitVec.eq_of_toNat_eq
      rw [BitVec.toNat_ofNat]
      omega
    simp only [List.length_cons, littleEndianValue, littleEndian, h1, h2, ih]

theorem littleEndianValue_lt (bs : List Byte) : littleEndianValue bs < 256 ^ bs.length := by
  induction bs with
  | nil => exact Nat.one_pos
  | cons b bs ih =>
    have hb := b.isLt
    simp only [littleEndianValue, List.length_cons, Nat.pow_succ]
    omega

/-- A table's bytes are those its pairs came from, and it has one pair for every two of them. -/
theorem tableBytes_entriesOfBytes (k : Nat) (bs : List Byte) (h : bs.length = 2 * k) :
    tableBytes (entriesOfBytes bs) = bs ∧ (entriesOfBytes bs).length = k := by
  induction k generalizing bs with
  | zero => rw [List.eq_nil_of_length_eq_zero h]; exact ⟨rfl, rfl⟩
  | succ k ih =>
    match bs, h with
    | s :: l :: rest, h =>
      obtain ⟨h1, h2⟩ := ih rest (by simp only [List.length_cons] at h; omega)
      simp [entriesOfBytes, tableBytes, h1, h2]

end Sys2Proof.Machine
end

