-- ==== Sys2Proof/Laws/Decode.lean ====
section
/-! SUPPORT. The fields of an encoded command word (R91), and the row each opcode finds (R94). -/

namespace Sys2Proof

theorem cmdHigh_cmdWord (i : Instr) : cmdHigh (cmdWord i) = 0 := by
  ext k hk
  simp [cmdHigh, cmdWord]

theorem cmdOpc_cmdWord (i : Instr) : cmdOpc (cmdWord i) = i.opcode := by
  ext k hk
  simp only [cmdOpc, cmdWord, encode, BitVec.getElem_extractLsb', BitVec.getLsbD_setWidth,
    BitVec.getLsbD_append]
  have h1 : ¬ 24 + k < 8 := by omega
  have h2 : ¬ 24 + k - 8 < 8 := by omega
  have h3 : ¬ 24 + k - 8 - 8 < 8 := by omega
  have h4 : 24 + k - 8 - 8 - 8 = k := by omega
  have h5 : 24 + k < 64 := by omega
  simp [h1, h2, h3, h4, h5, BitVec.getLsbD_eq_getElem, hk]

theorem cmdA_cmdWord (i : Instr) : cmdA (cmdWord i) = i.fieldA := by
  ext k hk
  simp only [cmdA, cmdWord, encode, BitVec.getElem_extractLsb', BitVec.getLsbD_setWidth,
    BitVec.getLsbD_append]
  have h1 : ¬ 16 + k < 8 := by omega
  have h2 : ¬ 16 + k - 8 < 8 := by omega
  have h3 : 16 + k - 8 - 8 < 8 := by omega
  have h4 : 16 + k - 8 - 8 = k := by omega
  have h5 : 16 + k < 64 := by omega
  simp [h1, h2, h4, h5, BitVec.getLsbD_eq_getElem, hk]

theorem cmdB_cmdWord (i : Instr) : cmdB (cmdWord i) = i.fieldB := by
  ext k hk
  simp only [cmdB, cmdWord, encode, BitVec.getElem_extractLsb', BitVec.getLsbD_setWidth,
    BitVec.getLsbD_append]
  have h1 : ¬ 8 + k < 8 := by omega
  have h2 : 8 + k - 8 < 8 := by omega
  have h4 : 8 + k - 8 = k := by omega
  have h5 : 8 + k < 64 := by omega
  simp [h1, h4, h5, BitVec.getLsbD_eq_getElem, hk]

theorem cmdZ_cmdWord (i : Instr) : cmdZ (cmdWord i) = 0 := by
  ext k hk
  simp only [cmdZ, cmdWord, encode, BitVec.getElem_extractLsb', BitVec.getLsbD_setWidth,
    BitVec.getLsbD_append, Nat.zero_add]
  simp [hk]

/-- A 64-bit CMD write is its fields, most significant first. -/
theorem word_eq_fields (x : Word) :
    x = (cmdHigh x ++ (cmdOpc x ++ cmdA x ++ cmdB x ++ cmdZ x) : BitVec (32 + 32)) := by
  refine BitVec.eq_of_getLsbD_eq fun k hk => ?_
  simp only [BitVec.getLsbD_append, cmdHigh, cmdOpc, cmdA, cmdB, cmdZ,
    BitVec.getLsbD_extractLsb']
  split
  · split
    · next h => simp [h]
    · split
      · next h => simp [h, show 8 + (k - 8) = k by omega]
      · split
        · next h => simp [h, show 16 + (k - 8 - 8) = k by omega]
        · simp [show 24 + (k - 8 - 8 - 8) = k by omega, show k - 8 - 8 - 8 < 8 by omega]
  · simp [show 32 + (k - (8 + 8 + 8 + 8)) = k by omega,
      show k - (8 + 8 + 8 + 8) < 32 by omega]

/-- The one way a write decodes (R95): its tests all pass. -/
theorem decode_eq_ok {x : Word} {i : Instr} :
    decode x = .ok i ↔ cmdHigh x = 0 ∧ ∃ row, opcodeRow (cmdOpc x) = some row ∧ cmdZ x = 0 ∧
      (row.format.leavesA = true → cmdA x = 0) ∧ (row.format.leavesB = true → cmdB x = 0) ∧
      row.make (cmdA x) (cmdB x) = i := by
  unfold decode
  cases hr : opcodeRow (cmdOpc x) with
  | none => by_cases hh : cmdHigh x = 0 <;> simp_all
  | some row =>
    by_cases hh : cmdHigh x = 0 <;> by_cases hz : cmdZ x = 0 <;>
      cases hla : row.format.leavesA <;> cases hlb : row.format.leavesB <;>
      by_cases ha : cmdA x = 0 <;> by_cases hb : cmdB x = 0 <;> simp_all

/-- A row found for an opcode is a row of the map, and it is that opcode's. -/
theorem opcodeRow_mem {o : Byte} {row : OpcodeRow} (h : opcodeRow o = some row) :
    row ∈ opcodeTable ∧ row.opc = o :=
  ⟨List.mem_of_find?_eq_some h, by simpa using List.find?_some h⟩

/-- The opcodes of the map are all different (R94): no two rows overlap. -/
theorem opcodes_distinct : (opcodeTable.map OpcodeRow.opc).Nodup := by decide +kernel

end Sys2Proof
end

