-- ==== Sys2Proof/Laws/Operands.lean ====
section
/-! SUPPORT. When each operand form, count and buffer is legal, and what it then gives
(30_encoding.md R93, 60_exceptions.md R301). -/

namespace Sys2Proof.Machine

theorem bitOperand_ok {a : Byte} (h : a.toNat ≤ 1) : bitOperand a = .ok (a.toNat == 1) := by
  have : a = 0 ∨ a = 1 := by
    rcases Nat.le_one_iff_eq_zero_or_eq_one.mp h with h | h
    · exact .inl (BitVec.eq_of_toNat_eq h)
    · exact .inr (BitVec.eq_of_toNat_eq h)
  rcases this with rfl | rfl <;> rfl

theorem bitOperand_error {a : Byte} (h : 1 < a.toNat) : bitOperand a = .error .commandError :=
  if_neg (Nat.not_le.mpr h)

theorem padOperand_ok {a : Byte} (h : a.toNat ≤ 7) :
    ∃ p : BitVec 3, padOperand a = .ok p ∧ p.toNat = a.toNat := by
  refine ⟨_, if_pos h, ?_⟩
  rw [BitVec.extractLsb'_toNat, Nat.shiftRight_zero]
  exact Nat.mod_eq_of_lt (by omega)

theorem padOperand_error {a : Byte} (h : 7 < a.toNat) : padOperand a = .error .malformedHeader :=
  if_neg (Nat.not_le.mpr h)

theorem countOperand_ok {b : Byte} (h : b.toNat ≤ 64) : countOperand b = .ok b.toNat := if_pos h

theorem countOperand_error {b : Byte} (h : 64 < b.toNat) : countOperand b = .error .commandError :=
  if_neg (Nat.not_le.mpr h)

theorem entryOperand_ok {s : State} {a : Byte} (h : a.toNat < s.entries.length) :
    entryOperand s a = .ok s.entries[a.toNat] := by
  simp [entryOperand, h]

theorem entryOperand_error {s : State} {a : Byte} (h : s.entries.length ≤ a.toNat) :
    entryOperand s a = .error .commandError := by
  simp [entryOperand, h]

/-- Counting a byte (R131): it is counted unless TOTAL is full. -/
theorem countByte_cases (b : Byte) (f : FreqCounter) :
    (f.total = maxCount ∧ countByte b f = .error .countOverflow) ∨
    (f.total ≠ maxCount ∧
      countByte b f =
        .ok { freq := tset f.freq b (tget f.freq b + 1), total := f.total + 1 }) := by
  unfold countByte
  split <;> simp_all

/-- Pushing a payload byte (R201): it is held unless IN_LEN is IN_CAP. -/
theorem pushByte_cases (cfg : Config) (b : Byte) (u : Unpacker) :
    (u.buf.length = cfg.inCap ∧ pushByte cfg b u = .error .commandError) ∨
    (u.buf.length ≠ cfg.inCap ∧ pushByte cfg b u = .ok { u with buf := u.buf ++ [b] }) := by
  unfold pushByte Unpacker.inLen
  split <;> simp_all

/-- Emitting a decoded symbol (R223): it is emitted unless DEC_COUNT is full. -/
theorem emitDec_cases (b : Byte) (d : DecodeOut) :
    (d.count = maxCount ∧ emitDec b d = .error .countOverflow) ∨
    (d.count ≠ maxCount ∧ emitDec b d = .ok { out := d.out ++ [b], count := d.count + 1 }) := by
  unfold emitDec
  split <;> simp_all

end Sys2Proof.Machine
end

