-- ==== Sys2Proof/Laws/PerInstr.lean ====
section
/-! SUPPORT. The per-instruction family `EncodeFields`: the opcode map's row for a command makes that
command of the operand fields its encoding holds, and its format leaves no used field out. -/

namespace Sys2Proof.Laws.EncodeFields

/-- The row of the opcode map (R94) that the command's opcode finds makes the command again from its A
and B fields, and a field that the row's format leaves unused is 0 (R92). -/
def Statement (i : Instr) : Prop :=
  ∃ row, opcodeRow i.opcode = some row ∧ row.make i.fieldA i.fieldB = i ∧
    (row.format.leavesA = true → i.fieldA = 0) ∧ (row.format.leavesB = true → i.fieldB = 0)

theorem nop : Statement .nop := ⟨_, rfl, rfl, fun _ => rfl, fun _ => rfl⟩

theorem reset : Statement .reset := ⟨_, rfl, rfl, fun _ => rfl, fun _ => rfl⟩

theorem fcClear : Statement .fcClear := ⟨_, rfl, rfl, fun _ => rfl, fun _ => rfl⟩

theorem fcByte (b : Byte) : Statement (.fcByte b) :=
  ⟨_, rfl, rfl, by simp [Format.leavesA, Instr.fieldA], by simp [Format.leavesB, Instr.fieldB]⟩

theorem rdFreq (s : Byte) : Statement (.rdFreq s) :=
  ⟨_, rfl, rfl, by simp [Format.leavesA, Instr.fieldA], by simp [Format.leavesB, Instr.fieldB]⟩

theorem tbBuild : Statement .tbBuild := ⟨_, rfl, rfl, fun _ => rfl, fun _ => rfl⟩

theorem ldDerive : Statement .ldDerive := ⟨_, rfl, rfl, fun _ => rfl, fun _ => rfl⟩

theorem rdLen (s : Byte) : Statement (.rdLen s) :=
  ⟨_, rfl, rfl, by simp [Format.leavesA, Instr.fieldA], by simp [Format.leavesB, Instr.fieldB]⟩

theorem caFromLen : Statement .caFromLen := ⟨_, rfl, rfl, fun _ => rfl, fun _ => rfl⟩

theorem enClear : Statement .enClear := ⟨_, rfl, rfl, fun _ => rfl, fun _ => rfl⟩

theorem enPush (s l : Byte) : Statement (.enPush s l) :=
  ⟨_, rfl, rfl, by simp [Format.leavesA, Instr.fieldA], by simp [Format.leavesB, Instr.fieldB]⟩

theorem rdEntry (i : Byte) : Statement (.rdEntry i) :=
  ⟨_, rfl, rfl, by simp [Format.leavesA, Instr.fieldA], by simp [Format.leavesB, Instr.fieldB]⟩

theorem caFromEntries : Statement .caFromEntries := ⟨_, rfl, rfl, fun _ => rfl, fun _ => rfl⟩

theorem rdCode (s : Byte) : Statement (.rdCode s) :=
  ⟨_, rfl, rfl, by simp [Format.leavesA, Instr.fieldA], by simp [Format.leavesB, Instr.fieldB]⟩

theorem pkInit : Statement .pkInit := ⟨_, rfl, rfl, fun _ => rfl, fun _ => rfl⟩

theorem pkWbit (b : Byte) : Statement (.pkWbit b) :=
  ⟨_, rfl, rfl, by simp [Format.leavesA, Instr.fieldA], by simp [Format.leavesB, Instr.fieldB]⟩

theorem pkWbits (n : Byte) : Statement (.pkWbits n) :=
  ⟨_, rfl, rfl, by simp [Format.leavesA, Instr.fieldA], by simp [Format.leavesB, Instr.fieldB]⟩

theorem encByte (b : Byte) : Statement (.encByte b) :=
  ⟨_, rfl, rfl, by simp [Format.leavesA, Instr.fieldA], by simp [Format.leavesB, Instr.fieldB]⟩

theorem pkFinish : Statement .pkFinish := ⟨_, rfl, rfl, fun _ => rfl, fun _ => rfl⟩

theorem inClear : Statement .inClear := ⟨_, rfl, rfl, fun _ => rfl, fun _ => rfl⟩

theorem inPush (b : Byte) : Statement (.inPush b) :=
  ⟨_, rfl, rfl, by simp [Format.leavesA, Instr.fieldA], by simp [Format.leavesB, Instr.fieldB]⟩

theorem upOpen (p : Byte) : Statement (.upOpen p) :=
  ⟨_, rfl, rfl, by simp [Format.leavesA, Instr.fieldA], by simp [Format.leavesB, Instr.fieldB]⟩

theorem upRbit : Statement .upRbit := ⟨_, rfl, rfl, fun _ => rfl, fun _ => rfl⟩

theorem upRbits (n : Byte) : Statement (.upRbits n) :=
  ⟨_, rfl, rfl, by simp [Format.leavesA, Instr.fieldA], by simp [Format.leavesB, Instr.fieldB]⟩

theorem dtBuild : Statement .dtBuild := ⟨_, rfl, rfl, fun _ => rfl, fun _ => rfl⟩

theorem decSym : Statement .decSym := ⟨_, rfl, rfl, fun _ => rfl, fun _ => rfl⟩

theorem decRun : Statement .decRun := ⟨_, rfl, rfl, fun _ => rfl, fun _ => rfl⟩

end Sys2Proof.Laws.EncodeFields
end

