-- ==== Sys2Proof/Laws/Table.lean ====
section
/-! SUPPORT. The laws of the 256-entry tables: a read after a write, filled and built tables, and that
a table is what its reads are. -/

namespace Sys2Proof.Machine

variable {α : Type}

theorem symbols_length : symbols.length = 256 := by
  rw [symbols, List.length_map, List.length_range]

theorem symbols_getElem (i : Nat) (h : i < symbols.length) :
    symbols[i] = BitVec.ofNat 8 i := by
  simp [symbols]

@[simp] theorem mem_symbols (s : Byte) : s ∈ symbols :=
  List.mem_map.mpr ⟨s.toNat, List.mem_range.mpr s.isLt, by simp⟩

theorem symbols_nodup : symbols.Nodup := by
  refine List.Nodup.map_on (fun x hx y hy h => ?_) List.nodup_range
  have := congrArg BitVec.toNat h
  simp only [BitVec.toNat_ofNat, List.mem_range] at this hx hy
  omega

@[simp] theorem tget_tset_self (t : Table α) (s : Byte) (v : α) : tget (tset t s v) s = v := by
  simp [tget, tset]

theorem tget_tset_ne (t : Table α) {s a : Byte} (v : α) (h : a ≠ s) :
    tget (tset t s v) a = tget t a := by
  have : s.toNat ≠ a.toNat := fun e => h (BitVec.eq_of_toNat_eq e.symm)
  simp [tget, tset, List.getElem_set_ne this]

theorem tget_tset (t : Table α) (s a : Byte) (v : α) :
    tget (tset t s v) a = if a = s then v else tget t a := by
  split
  · next h => rw [h, tget_tset_self]
  · next h => exact tget_tset_ne t v h

@[simp] theorem tget_fill (v : α) (s : Byte) : tget (Table.fill v) s = v :=
  List.getElem_replicate _

@[simp] theorem tget_tbuild (f : Byte → α) (s : Byte) : tget (tbuild f) s = f s := by
  simp [tget, tbuild, symbols]

/-- A table is determined by its entries. -/
theorem table_ext {t u : Table α} (h : ∀ s, tget t s = tget u s) : t = u := by
  obtain ⟨tc, ht⟩ := t
  obtain ⟨uc, hu⟩ := u
  congr 1
  refine List.ext_getElem (ht.trans hu.symm) fun i hi _ => ?_
  have hi' : i < 256 := ht ▸ hi
  have := h (BitVec.ofNat 8 i)
  simpa [tget, Nat.mod_eq_of_lt hi'] using this

theorem tget_mem (t : Table α) (s : Byte) : tget t s ∈ t.cells := List.getElem_mem _

/-- The entries of a table are its reads at the symbols, in ascending order. -/
theorem cells_eq_map (t : Table α) : t.cells = symbols.map (tget t) := by
  have : t = tbuild (tget t) := table_ext fun s => (tget_tbuild _ s).symm
  exact congrArg Table.cells this

theorem mem_cells (t : Table α) (v : α) : v ∈ t.cells ↔ ∃ s, tget t s = v := by
  rw [cells_eq_map, List.mem_map]
  exact ⟨fun ⟨s, _, h⟩ => ⟨s, h⟩, fun ⟨s, h⟩ => ⟨s, mem_symbols s, h⟩⟩

end Sys2Proof.Machine
end

