-- ==== Sys2Proof/Laws/Tree.lean ====
section
/-! SUPPORT. The tree builder and the length derivator: how many nodes each turn leaves, which leaves a
merge has, and what a depth walk writes (42_tree_builder.md R141, 43_code_length.md R150). -/

namespace Sys2Proof.Machine

/-- The leaves R141 begins with are those of the present symbols, in ascending order. -/
theorem presentLeaves_eq (freq : Table Word) :
    presentLeaves freq = (presentSyms freq).map fun s => .leaf s (tget freq s) := by
  unfold presentLeaves presentSyms
  induction symbols with
  | nil => rfl
  | cons s rest ih =>
    simp only [List.filterMap_cons, List.filter_cons]
    by_cases h : tget freq s = 0
    · simp only [h, if_true, ne_eq, not_true, decide_false, Bool.false_eq_true, if_false]
      exact ih
    · simp only [h, if_false, ne_eq, not_false_eq_true, decide_true, if_true, List.map_cons]
      exact congrArg _ ih

theorem presentLeaves_length (freq : Table Word) :
    (presentLeaves freq).length = (presentSyms freq).length := by
  rw [presentLeaves_eq, List.length_map]

theorem presentSyms_nodup (freq : Table Word) : (presentSyms freq).Nodup :=
  symbols_nodup.filter _

theorem mem_presentSyms (freq : Table Word) (a : Byte) :
    a ∈ presentSyms freq ↔ tget freq a ≠ 0 := by
  simp [presentSyms]

theorem extractMin_length (a : HuffmanNode) (rest : List HuffmanNode) :
    (extractMin a rest).2.length = rest.length := by
  induction rest generalizing a with
  | nil => rfl
  | cons b rest ih =>
    simp only [extractMin]
    split <;> simp [ih]

/-- Everything a turn of the loop does with two nodes or more (R141): the two extracted first become
one node, and the rest stay. -/
theorem mergeStep_cons (a b : HuffmanNode) (rest : List HuffmanNode) :
    ∃ x c others y others', extractMin a (b :: rest) = (x, c :: others) ∧
      extractMin c others = (y, others') ∧
      mergeStep (a :: b :: rest) = mergeNodes x y :: others' := by
  have hl := extractMin_length a (b :: rest)
  rcases h : extractMin a (b :: rest) with ⟨x, _ | ⟨c, others⟩⟩
  · rw [h] at hl; cases hl
  · exact ⟨x, c, others, _, _, rfl, rfl, by simp only [mergeStep, h]⟩

theorem mergeStep_length (live : List HuffmanNode) :
    (mergeStep live).length = if 2 ≤ live.length then live.length - 1 else live.length := by
  rcases live with _ | ⟨a, _ | ⟨b, rest⟩⟩
  · rfl
  · rfl
  · obtain ⟨x, c, others, y, others', h1, h2, h3⟩ := mergeStep_cons a b rest
    have l1 := extractMin_length a (b :: rest)
    have l2 := extractMin_length c others
    rw [h1] at l1
    rw [h2] at l2
    simp only [List.length_cons] at l1 l2
    rw [h3]
    simp only [List.length_cons]
    split <;> omega

/-- "The loop runs exactly n − 1 times" (R141): that many turns leave one node. -/
theorem mergeTurns_length (n : Nat) (live : List HuffmanNode) (h : live.length = n + 1) :
    (mergeTurns n live).length = 1 := by
  induction n generalizing live with
  | zero => exact h
  | succ n ih =>
    refine ih (mergeStep live) ?_
    rw [mergeStep_length, if_pos (by omega)]
    omega

theorem leafSyms_mergeNodes (a b : HuffmanNode) :
    leafSyms (mergeNodes a b) = leafSyms a ++ leafSyms b := rfl

/-! The depth walk. -/

theorem leafDepths_map_fst (n : HuffmanNode) (d : Nat) :
    (leafDepths n d).map Prod.fst = leafSyms n := by
  induction n generalizing d with
  | leaf s w => rfl
  | internal w m l r ihl ihr => simp [leafDepths, leafSyms, ihl, ihr]

/-- A symbol that is no leaf below `n` keeps its entry. -/
theorem writeDepths_other (n : HuffmanNode) (d : Byte) (t : Table Byte) {c : Byte}
    (h : c ∉ leafSyms n) : tget (writeDepths n d t) c = tget t c := by
  induction n generalizing d t with
  | leaf s w =>
    refine tget_tset_ne t d fun e => h ?_
    simp [leafSyms, e]
  | internal w m l r ihl ihr =>
    simp only [leafSyms, List.mem_append, not_or] at h
    simp only [writeDepths]
    rw [ihr _ _ h.2, ihl _ _ h.1]

/-- A leaf's symbol gets the leaf's depth, where the leaves are distinct (R150). -/
theorem writeDepths_leaf (n : HuffmanNode) (d : Nat) (t : Table Byte) (h : (leafSyms n).Nodup)
    {p : Byte × Nat} (hp : p ∈ leafDepths n d) :
    tget (writeDepths n (BitVec.ofNat 8 d) t) p.1 = BitVec.ofNat 8 p.2 := by
  induction n generalizing d t with
  | leaf s w =>
    simp only [leafDepths, List.mem_singleton] at hp
    subst hp
    simp [writeDepths]
  | internal w m l r ihl ihr =>
    have hd : BitVec.ofNat 8 d + 1 = BitVec.ofNat 8 (d + 1) := by
      rw [BitVec.ofNat_add]; rfl
    simp only [leafSyms, List.nodup_append] at h
    simp only [writeDepths, hd]
    simp only [leafDepths, List.mem_append] at hp
    rcases hp with hp | hp
    · have hmem : p.1 ∈ leafSyms l := by
        rw [← leafDepths_map_fst l (d + 1)]
        exact List.mem_map_of_mem hp
      rw [writeDepths_other r _ _ fun hr => h.2.2 p.1 hmem p.1 hr rfl]
      exact ihl (d + 1) t h.1 hp
    · exact ihr (d + 1) _ h.2.1 hp

end Sys2Proof.Machine
end

