-- ==== Sys2Proof/Laws/Walk.lean ====
section
/-! SUPPORT. Reading several bits and walking the trie, as paths and bit strings
(46_bit_unpacker.md R204, 47_decode_trie.md R221, R224, R225). -/

namespace Sys2Proof.Machine

/-- Everything `accumulateBits` does with bits enough: it shifts them in and moves past them. -/
theorem accumulateBits_spec (bits rest : List Bool) (v : Word) (u : Unpacker)
    (h : upcomingBits u = bits ++ rest) :
    accumulateBits bits.length v u =
      some (bits.foldl (fun (w : Word) b => (w <<< 1) ||| (BitVec.ofBool b).setWidth 64) v,
        moved u bits.length) := by
  induction bits generalizing v u with
  | nil => rfl
  | cons b bs ih =>
    simp only [List.length_cons, accumulateBits, readBit_of_cons h, List.foldl_cons]
    rw [ih _ (moved u 1) (by rw [upcomingBits_moved, h]; rfl), moved_moved, Nat.add_comm]

/-! Paths in the trie. -/

theorem nodeAt_append (t : TrieNode) (xs ys : List Bool) :
    nodeAt t (xs ++ ys) = (nodeAt t xs).bind fun n => nodeAt n ys := by
  induction xs generalizing t with
  | nil => simp [nodeAt]
  | cons b bs ih => cases t <;> cases b <;> simp [nodeAt, ih]

theorem nodeAt_cons_eq_some {t n : TrieNode} {b : Bool} {bs : List Bool}
    (h : nodeAt t (b :: bs) = some n) :
    ∃ l r, t = .inner l r ∧ nodeAt (if b then r else l) bs = some n := by
  cases t with
  | empty => simp [nodeAt] at h
  | leaf s => simp [nodeAt] at h
  | inner l r => exact ⟨l, r, rfl, by cases b <;> simpa [nodeAt] using h⟩

/-- The walk (R224) to any node: it takes the path's bits and goes on from there. -/
theorem walk_of_path {t n : TrieNode} (bits rest : List Bool) (u : Unpacker)
    (hn : nodeAt t bits = some n) (h : upcomingBits u = bits ++ rest) :
    walk t u = walk n (moved u bits.length) := by
  induction bits generalizing t u with
  | nil =>
    simp only [nodeAt, Option.some.injEq] at hn
    rw [hn]
    rfl
  | cons b bs ih =>
    obtain ⟨l, r, rfl, hn'⟩ := nodeAt_cons_eq_some hn
    have hstep : walk (.inner l r) u = walk (if b then r else l) (moved u 1) := by
      cases b <;> simp [walk, readBit_of_cons h]
    rw [hstep, ih (moved u 1) hn' (by rw [upcomingBits_moved, h]; rfl), moved_moved,
      List.length_cons, Nat.add_comm]

/-- Out of bits at a node that is not a leaf: the walk ends in TruncatedBitstream (R224, R225). -/
theorem walk_inner_of_end {l r : TrieNode} {u : Unpacker} (h : upcomingBits u = []) :
    walk (.inner l r) u = .error .truncatedBitstream := by
  simp [walk, (readBit_none_iff u).mpr h]

/-- Everything decoding one symbol (R224) does at a leaf's path. -/
theorem decodeSymbol_of_leaf {t : TrieNode} {b : Byte} (bits rest : List Bool) (u : Unpacker)
    (d : DecodeOut) (hn : nodeAt t bits = some (.leaf b)) (h : upcomingBits u = bits ++ rest) :
    decodeSymbol t u d = (emitDec b d).map fun d' => (b, moved u bits.length, d') := by
  simp only [decodeSymbol, walk_of_path bits rest u hn h, walk]

/-- Everything `paths.length` turns of DEC_RUN's loop (R225) do where the coming bits begin with the
paths of leaves: their symbols come out, the bits are read, and the loop goes on from there. -/
theorem decodeSymbols_of_paths {t : TrieNode} (paths : List (List Bool × Byte)) (rest : List Bool)
    (k : Nat) (u : Unpacker) (d : DecodeOut)
    (hp : ∀ p ∈ paths, nodeAt t p.1 = some (.leaf p.2))
    (h : upcomingBits u = paths.flatMap Prod.fst ++ rest)
    (hd : d.count.toNat + paths.length < 2 ^ 64) :
    decodeSymbols t (paths.length + k) u d =
      decodeSymbols t k (moved u (paths.flatMap Prod.fst).length)
        { out := d.out ++ paths.map Prod.snd
          count := d.count + BitVec.ofNat 64 paths.length } := by
  induction paths generalizing u d with
  | nil => simp
  | cons p ps ih =>
    have hu : upcomingBits u = p.1 ++ (ps.flatMap Prod.fst ++ rest) := by
      rw [h, List.flatMap_cons, List.append_assoc]
    have h1 := decodeSymbol_of_leaf p.1 _ u d (hp p List.mem_cons_self) hu
    rw [List.length_cons] at hd
    have hcnt : d.count ≠ maxCount := by rw [ne_maxCount_iff]; omega
    simp only [emitDec, hcnt, if_false, map_ok] at h1
    rw [show (p :: ps).length + k = (ps.length + k) + 1 by rw [List.length_cons]; omega]
    simp only [decodeSymbols, h1]
    rw [ih (moved u p.1.length) _ (fun q hq => hp q (List.mem_cons_of_mem _ hq))
      (by rw [upcomingBits_moved, hu, List.drop_left])
      (by rw [toNat_succ_of_ne_max hcnt]; omega), moved_moved]
    simp only [List.flatMap_cons, List.length_append, List.length_cons, List.map_cons,
      List.append_assoc]
    congr 2
    rw [BitVec.add_assoc, Nat.add_comm ps.length 1, BitVec.ofNat_add]
    rfl

/-- A path goes no deeper than the trie. -/
theorem length_le_trieDepth {t n : TrieNode} (bits : List Bool) (h : nodeAt t bits = some n) :
    bits.length ≤ trieDepth t := by
  induction bits generalizing t with
  | nil => exact Nat.zero_le _
  | cons b bs ih =>
    obtain ⟨l, r, rfl, hn⟩ := nodeAt_cons_eq_some h
    have := ih hn
    simp only [List.length_cons, trieDepth]
    cases b <;> simp at this <;> omega

/-! Insertion. -/

theorem insertAt_empty (s : Byte) (bits : List Bool) :
    ∃ t, insertAt s bits .empty = some (t, bits.length + 1) ∧ t ≠ .empty ∧
      trieCount t = bits.length + 1 ∧
      ∀ p b, nodeAt t p = some (.leaf b) ↔ (p = bits ∧ b = s) := by
  induction bits with
  | nil =>
    refine ⟨.leaf s, rfl, by simp, rfl, fun p b => ?_⟩
    cases p <;> simp [nodeAt, eq_comm]
  | cons x xs ih =>
    obtain ⟨t, ht, hne, hc, hl⟩ := ih
    cases x
    · refine ⟨.inner t .empty, by simp [insertAt, ht], by simp, ?_, fun p b => ?_⟩
      · simp only [trieCount, hc, List.length_cons]; omega
      · rcases p with _ | ⟨_ | _, q⟩
        · simp [nodeAt]
        · simpa [nodeAt] using hl q b
        · cases q <;> simp [nodeAt]
    · refine ⟨.inner .empty t, by simp [insertAt, ht], by simp, ?_, fun p b => ?_⟩
      · simp only [trieCount, hc, List.length_cons]; omega
      · rcases p with _ | ⟨_ | _, q⟩
        · simp [nodeAt]
        · cases q <;> simp [nodeAt]
        · simpa [nodeAt] using hl q b

/-- Everything a successful insertion does (R221): the symbol lies at the end of its bits, every
other leaf stays, and `count` grows by the nodes made, at most one per bit below the root. -/
theorem insertAt_spec {s : Byte} {bits : List Bool} {t t' : TrieNode} {k : Nat}
    (h : insertAt s bits t = some (t', k)) :
    trieCount t' = trieCount t + k ∧ k ≤ bits.length + (if t = .empty then 1 else 0) ∧
      ((∃ l r, t = .inner l r) → ∃ l r, t' = .inner l r) ∧
      ∀ p b, nodeAt t' p = some (.leaf b) ↔
        ((p = bits ∧ b = s) ∨ nodeAt t p = some (.leaf b)) := by
  induction bits generalizing t t' k with
  | nil =>
    cases t with
    | empty =>
      simp only [insertAt, Option.some.injEq, Prod.mk.injEq] at h
      obtain ⟨rfl, rfl⟩ := h
      refine ⟨rfl, by simp, by simp, fun p b => ?_⟩
      cases p <;> simp [nodeAt, eq_comm]
    | leaf _ => cases h
    | inner _ _ => cases h
  | cons x xs ih =>
    cases t with
    | empty =>
      obtain ⟨u, hu, hne, hc, hl⟩ := insertAt_empty s (x :: xs)
      rw [h] at hu
      simp only [Option.some.injEq, Prod.mk.injEq] at hu
      obtain ⟨rfl, rfl⟩ := hu
      refine ⟨by simp [hc, trieCount], by simp, by simp, fun p b => ?_⟩
      rw [hl]
      cases p <;> simp [nodeAt]
    | leaf _ => cases x <;> cases h
    | inner l r =>
      cases x
      · simp only [insertAt, Option.map_eq_some_iff, Prod.exists, Prod.mk.injEq] at h
        obtain ⟨l', k', hl', rfl, rfl⟩ := h
        obtain ⟨h1, h2, -, h4⟩ := ih hl'
        refine ⟨by simp only [trieCount, h1]; omega, ?_, fun _ => ⟨_, _, rfl⟩, fun p b => ?_⟩
        · simp only [List.length_cons]; split at h2 <;> simp <;> omega
        · rcases p with _ | ⟨_ | _, q⟩ <;> simp [nodeAt, h4]
      · simp only [insertAt, Option.map_eq_some_iff, Prod.exists, Prod.mk.injEq] at h
        obtain ⟨r', k', hr', rfl, rfl⟩ := h
        obtain ⟨h1, h2, -, h4⟩ := ih hr'
        refine ⟨by simp only [trieCount, h1]; omega, ?_, fun _ => ⟨_, _, rfl⟩, fun p b => ?_⟩
        · simp only [List.length_cons]; split at h2 <;> simp <;> omega
        · rcases p with _ | ⟨_ | _, q⟩ <;> simp [nodeAt, h4]

/-- Insertion makes an Inner of each place on the way and of no other (R221). -/
theorem insertAt_inner {s : Byte} {bits : List Bool} {t t' : TrieNode} {k : Nat}
    (h : insertAt s bits t = some (t', k)) (p : List Bool) :
    (∃ l r, nodeAt t' p = some (.inner l r)) ↔
      ((p <+: bits ∧ p ≠ bits) ∨ ∃ l r, nodeAt t p = some (.inner l r)) := by
  induction bits generalizing t t' k p with
  | nil =>
    cases t with
    | empty =>
      simp only [insertAt, Option.some.injEq, Prod.mk.injEq] at h
      obtain ⟨rfl, rfl⟩ := h
      cases p <;> simp [nodeAt]
    | leaf _ => cases h
    | inner _ _ => cases h
  | cons x xs ih =>
    cases t with
    | leaf _ => cases x <;> cases h
    | empty =>
      cases x <;>
      · simp only [insertAt, Option.map_eq_some_iff, Prod.exists, Prod.mk.injEq] at h
        obtain ⟨u, k', hu, rfl, rfl⟩ := h
        rcases p with _ | ⟨_ | _, q⟩
        · simp [nodeAt]
        all_goals
          have hq := ih hu q
          cases q <;> simp_all [nodeAt]
    | inner l r =>
      cases x <;>
      · simp only [insertAt, Option.map_eq_some_iff, Prod.exists, Prod.mk.injEq] at h
        obtain ⟨u, k', hu, rfl, rfl⟩ := h
        rcases p with _ | ⟨_ | _, q⟩ <;> simp [nodeAt, ih hu]

/-- Insertion makes the trie as deep as the bits, where it was not deeper (R221). -/
theorem insertAt_depth {s : Byte} {bits : List Bool} {t t' : TrieNode} {k : Nat}
    (h : insertAt s bits t = some (t', k)) : trieDepth t' = max (trieDepth t) bits.length := by
  induction bits generalizing t t' k with
  | nil =>
    cases t with
    | empty =>
      simp only [insertAt, Option.some.injEq, Prod.mk.injEq] at h
      rw [← h.1]
      rfl
    | leaf _ => cases h
    | inner _ _ => cases h
  | cons x xs ih =>
    cases t with
    | leaf _ => cases x <;> cases h
    | empty | inner l r =>
      cases x <;>
      · simp only [insertAt, Option.map_eq_some_iff, Prod.exists, Prod.mk.injEq] at h
        obtain ⟨u, k', hu, rfl, rfl⟩ := h
        simp only [trieDepth, ih hu, List.length_cons]
        omega

end Sys2Proof.Machine
end

