-- ==== Sys2Proof/Tests/Slice0.lean ====
section
/-! SUPPORT. The model's own tests: expected values come from the spec's encodings and from
95_test_vectors.md, whose vector each test names. Witnesses that the statements' hypotheses can be met
stand at the end. -/

namespace Sys2Proof.Tests

open Sys2Proof.Machine

/-- A field of the next state an outcome gives. -/
def got {α : Type} (f : State → α) : Host.Outcome State Fault Refusal → Option α
  | .next s => some (f s)
  | .fault _ => none
  | .refused _ => none

/-! ## Well-formedness (R93): an ill-formed term for each check, and the limit it allows -/

theorem test_wf_bit : (Instr.pkWbit 2).wellFormed = false ∧ (Instr.pkWbit 1).wellFormed = true := by
  decide

theorem test_wf_pk_count :
    (Instr.pkWbits 65).wellFormed = false ∧ (Instr.pkWbits 64).wellFormed = true := by decide

theorem test_wf_up_count :
    (Instr.upRbits 65).wellFormed = false ∧ (Instr.upRbits 64).wellFormed = true := by decide

theorem test_wf_pad : (Instr.upOpen 8).wellFormed = false ∧ (Instr.upOpen 7).wellFormed = true := by
  decide

/-! ## Decoding: each command's word, written out as OPC, A, B, Z (R91, R94) -/

theorem test_decode_control :
    decodeTableWord 32 0x00000000 = some .nop ∧
    decodeTableWord 32 0x01000000 = some .reset := by
  decide

theorem test_decode_frequency_counter :
    decodeTableWord 32 0x10000000 = some .fcClear ∧
    decodeTableWord 32 0x11A30000 = some (.fcByte 0xA3) ∧
    decodeTableWord 32 0x12810000 = some (.rdFreq 0x81) := by
  decide

theorem test_decode_tree_builder :
    decodeTableWord 32 0x20000000 = some .tbBuild := by
  decide

theorem test_decode_code_length :
    decodeTableWord 32 0x30000000 = some .ldDerive ∧
    decodeTableWord 32 0x31420000 = some (.rdLen 0x42) := by
  decide

theorem test_decode_canonical :
    decodeTableWord 32 0x40000000 = some .caFromLen ∧
    decodeTableWord 32 0x41000000 = some .enClear ∧
    decodeTableWord 32 0x42C13F00 = some (.enPush 0xC1 0x3F) ∧
    decodeTableWord 32 0x43FE0000 = some (.rdEntry 254) ∧
    decodeTableWord 32 0x44000000 = some .caFromEntries ∧
    decodeTableWord 32 0x45FF0000 = some (.rdCode 0xFF) := by
  decide

theorem test_decode_bit_packer :
    decodeTableWord 32 0x50000000 = some .pkInit ∧
    decodeTableWord 32 0x51010000 = some (.pkWbit 1) ∧
    decodeTableWord 32 0x52004000 = some (.pkWbits 64) ∧
    decodeTableWord 32 0x53610000 = some (.encByte 0x61) ∧
    decodeTableWord 32 0x54000000 = some .pkFinish := by
  decide

theorem test_decode_bit_unpacker :
    decodeTableWord 32 0x60000000 = some .inClear ∧
    decodeTableWord 32 0x61A50000 = some (.inPush 0xA5) ∧
    decodeTableWord 32 0x62030000 = some (.upOpen 3) ∧
    decodeTableWord 32 0x63000000 = some .upRbit ∧
    decodeTableWord 32 0x64000600 = some (.upRbits 6) := by
  decide

theorem test_decode_decode_trie :
    decodeTableWord 32 0x70000000 = some .dtBuild ∧
    decodeTableWord 32 0x71000000 = some .decSym ∧
    decodeTableWord 32 0x72000000 = some .decRun := by
  decide

/-- An operand out of R93's range still decodes: "The range checks … are not part of decode" (R95). -/
theorem test_decode_keeps_bad_operand : decodeTableWord 32 0x62080000 = some (.upOpen 8) := by
  decide

/-- V-CTL-3 to V-CTL-11: each test of R95 refuses by its name. -/
theorem test_decode_errors :
    decode 0x02000000 = .error .unassignedOpcode ∧ decode 0x00000001 = .error .zField ∧
    decode 0x0000000100000000 = .error .highBits ∧ decode 0x10010000 = .error .aField ∧
    decode 0x11000100 = .error .bField ∧ decode 0x52010000 = .error .aField ∧
    decode 0x42414101 = .error .zField ∧ decode 0xFF000000 = .error .unassignedOpcode := by
  decide

/-- R95's order: the opcode is tested before Z, and Z before A. -/
theorem test_decode_order :
    decode 0x02010101 = .error .unassignedOpcode ∧ decode 0x10010101 = .error .zField := by
  decide

/-- R98's examples of assembly text, and R100's encoding of `EN_PUSH 0x42, 1`. -/
theorem test_assembly :
    (Instr.fcByte 0x41).assembly = "FC_BYTE 0x41" ∧
    (Instr.enPush 0x41 1).assembly = "EN_PUSH 0x41, 1" ∧
    (Instr.pkWbits 3).assembly = "PK_WBITS 3" ∧ (Instr.upOpen 4).assembly = "UP_OPEN 4" ∧
    accessLine (registerRead 0x10) = some "READ RES" ∧
    (Instr.enPush 0x42 1).encodingText = "42420100" := by
  decide

/-! ## The step, the gate and the window -/

/-- The state in which the host makes these accesses next. -/
def hostDoes (s : State) (accesses : List Access) : State := { s with pending := accesses }

/-- V-FC-1's first command, run as the first instruction after reset. -/
theorem test_first_command_runs :
    got (fun s => (s.fc.total, tget s.fc.freq 0x41, s.answer))
      (step (State.reset.withFetchWord 32 0x11410000)) = some (1, 1, .complete) := by
  decide

/-- R316: with no access the block holds its state. -/
theorem test_idle : got id (step State.reset) = some State.reset := rfl

/-- V-CTL-5: bits [63:32] that are not 0 give STATUS = 0x0000_0071. -/
theorem test_high_bits_fault :
    got State.status (step (hostDoes State.reset [.write 0x00 64 0x0000000100000000])) =
      some 0x71 := by
  decide

/-- V-CTL-10: an unassigned opcode is recorded in ERROP. -/
theorem test_unassigned_opcode_fault :
    got State.status (step (hostDoes State.reset [.write 0x00 64 0xFF000000])) = some 0xFF71 := by
  decide

/-- A block with the fault of V-CTL-3 latched. -/
def faulted : State := State.reset.raise .commandError 0x02

/-- V-CTL-12: while a fault is latched 0x01000100 is dropped, and 0x01000000 resets. -/
theorem test_gate_while_faulted :
    got State.status (step (hostDoes faulted [.write 0x00 64 0x01000100])) = some 0x271 ∧
    got State.status (step (hostDoes faulted [.write 0x00 64 0x01000000])) = some 0 := by
  decide

/-- R308: ARG writes go on working while a fault is latched. -/
theorem test_arg_write_while_faulted :
    got State.arg (step (hostDoes faulted [.write 0x08 64 5])) = some 5 := by decide

/-- R2: ID reads its constant, and R64: byte 4 of it, at address 0x2C, is the version 0x01. -/
theorem test_read_id :
    got State.answer (step (hostDoes State.reset [.read 0x28 64])) =
      some (.value 0x0000000150495A48) ∧ State.reset.windowByte 0x2C = some 0x01 := by
  decide

/-- R65: each violation of the protocol is refused. -/
theorem test_protocol_violations :
    checkAccess 0x10 32 = .error .accessWidth ∧ checkAccess 0x14 64 = .error .accessMisaligned ∧
    checkAccess 0x80 64 = .error .accessReserved ∧
    (match step (hostDoes State.reset [.write 0x10 64 0]) with
      | .refused .accessReadOnly => true
      | _ => false) = true := by
  decide

/-! ## Small states the vectors start from -/

/-- The counts of "AAAB" (E1). -/
def aaabFreq : Table Word := tset (tset (Table.fill 0) 0x41 3) 0x42 1

/-- After counting "AAAB" (V-FC-1). -/
def aaabCounted : State := { State.reset with fc := { freq := aaabFreq, total := 4 } }

/-- The tree of "AAAB" (V-TB-2). -/
def aaabTree : HuffmanNode := .internal 4 0x41 (.leaf 0x42 1) (.leaf 0x41 3)

/-- A code table in which A is "0" and B is "1" (E1). -/
def aaabCode : Table CodeEntry :=
  tset (tset (Table.fill absentCode) 0x41 { present := true, code := 0, len := 1 })
    0x42 { present := true, code := 1, len := 1 }

/-- The lengths of V-CA-3: A = 1, B = 2, C = 2. -/
def abcLengths : Table Byte := tset (tset (tset (Table.fill 0) 0x41 1) 0x42 2) 0x43 2

/-- The entries of V-CA-3, in its arrival order. -/
def abcEntries : List Entry :=
  [{ sym := 0x42, len := 2 }, { sym := 0x41, len := 1 }, { sym := 0x43, len := 2 }]

/-- The packer of V-PK-2: "101" written. -/
def packer101 : Packer := { packerInit with acc := 0x05, nbits := 3 }

/-- The unpacker over these bytes, opened with this pad count. -/
def opened (buf : List Byte) (pad : BitVec 3) : Unpacker := { buf := buf, pad := pad, pos := 0 }

/-- The trie of "AAAB" (V-DT-2). -/
def aaabTrie : TrieNode := .inner (.leaf 0x41) (.leaf 0x42)

/-- V-DEC-1's start: the trie of "AAAB" and the payload 0x10 with pad 4. -/
def aaabDecode : State :=
  { State.reset with trie := aaabTrie, trieNodes := 3, up := opened [0x10] 4 }

/-! ## One step of each command -/

/-- V-CTL-1. -/
theorem test_nop : got id (exec .nop aaabCounted) = some aaabCounted := rfl

/-- V-CTL-2. -/
theorem test_reset : got id (exec .reset aaabCounted) = some State.reset := rfl

/-- V-FC-3. -/
theorem test_fcClear : got (fun s => s.fc) (exec .fcClear aaabCounted) = some State.reset.fc := by
  decide +kernel

/-- V-FC-1's last command. -/
theorem test_fcByte :
    got (fun s => (s.fc.total, tget s.fc.freq 0x41, tget s.fc.freq 0x42))
      (exec (.fcByte 0x42) { State.reset with
        fc := { freq := tset (Table.fill 0) 0x41 3, total := 3 } }) = some (4, 3, 1) := by
  decide

/-- V-FC-5. -/
theorem test_fcByte_overflow :
    got (fun s => (s.status, s.fc.total)) (exec (.fcByte 0x00) { State.reset with
      fc := { freq := tset (Table.fill 0) 0 0xFFFFFFFFFFFFFFFF, total := 0xFFFFFFFFFFFFFFFF } }) =
      some (0x1181, 0xFFFFFFFFFFFFFFFF) := by
  decide

/-- V-FC-2. -/
theorem test_rdFreq : got State.res (exec (.rdFreq 0x41) aaabCounted) = some 3 := by decide

/-- V-TB-2: the first node extracted is the left child. -/
theorem test_tbBuild :
    got (fun s => (s.tree, s.res, s.status)) (exec .tbBuild aaabCounted) =
      some (some aaabTree, 2, 0x20000) := by
  decide

/-- V-TB-4: a leaf (1, C) comes before the merged node (2, A). -/
theorem test_tbBuild_order :
    buildTree (tset (tset (tset (Table.fill 0) 0x41 1) 0x42 1) 0x43 1) =
      some (.internal 3 0x41 (.leaf 0x43 1)
        (.internal 2 0x41 (.leaf 0x41 1) (.leaf 0x42 1))) := by
  decide

/-- V-LD-4. -/
theorem test_ldDerive :
    got (fun s => (tget s.len 0x43, tget s.len 0x41, tget s.len 0x42, s.res))
      (exec .ldDerive { State.reset with
        tree := some (.internal 3 0x41 (.leaf 0x43 1)
          (.internal 2 0x41 (.leaf 0x41 1) (.leaf 0x42 1))) }) = some (1, 2, 2, 2) := by
  decide +kernel

/-- V-LD-2: the one-leaf tree's length is forced to 1. -/
theorem test_ldDerive_one_leaf :
    got (fun s => (tget s.len 0x5A, s.res))
      (exec .ldDerive { State.reset with tree := some (.leaf 0x5A 10) }) = some (1, 1) := by
  decide +kernel

/-- R151's example. -/
theorem test_rdLen :
    got State.res (exec (.rdLen 0x42) { State.reset with len := abcLengths }) = some 2 := by
  decide

/-- V-CA-1: the code of 'd' is 15, of length 4. -/
theorem test_caFromLen :
    got (fun s => ((tget s.code 0x64), s.res)) (exec .caFromLen { State.reset with
      len := tset (tset (tset (tset (tset (Table.fill 0) 0x61 1) 0x72 2) 0x62 3) 0x63 4) 0x64 4 }) =
      some ({ present := true, code := 15, len := 4 }, 5) := by
  decide +kernel

/-- V-CA-11. -/
theorem test_caFromLen_too_long :
    got State.status (exec .caFromLen { State.reset with len := tset (Table.fill 0) 0x07 65 }) =
      some 0x4021 := by
  decide

/-- V-CA-13's first command. -/
theorem test_enClear :
    got State.enCount (exec .enClear { State.reset with entries := abcEntries }) = some 0 := by
  decide

/-- R163's example. -/
theorem test_enPush :
    got (fun s => s.entries) (exec (.enPush 0x42 2) State.reset) =
      some [{ sym := 0x42, len := 2 }] := by
  decide

/-- V-CA-12's last command. -/
theorem test_enPush_full :
    got (fun s => (s.status, s.enCount)) (exec (.enPush 0x00 8) { State.reset with
      entries := List.replicate 256 { sym := 0, len := 8 } }) = some (0x4211, 256) := by
  decide +kernel

/-- V-CA-4. -/
theorem test_rdEntry :
    got State.res (exec (.rdEntry 2) { State.reset with entries := abcEntries }) = some 0x243 := by
  decide

/-- V-CA-6. -/
theorem test_rdEntry_beyond :
    got State.status (exec (.rdEntry 3) { State.reset with entries := abcEntries }) =
      some 0x4371 := by
  decide

/-- V-CA-3. -/
theorem test_caFromEntries :
    got (fun s => (tget s.code 0x41, tget s.code 0x42, tget s.code 0x43, s.res))
      (exec .caFromEntries { State.reset with entries := abcEntries }) =
      some ({ present := true, code := 0, len := 1 }, { present := true, code := 2, len := 2 },
        { present := true, code := 3, len := 2 }, 3) := by
  decide +kernel

/-- V-CA-9. -/
theorem test_caFromEntries_duplicate :
    got State.status (exec .caFromEntries { State.reset with
      entries := [{ sym := 0x41, len := 1 }, { sym := 0x41, len := 1 }] }) = some 0x4421 := by
  decide

/-- V-CA-5. -/
theorem test_rdCode :
    got (fun s => (s.res, s.resx)) (exec (.rdCode 0x42) { State.reset with code := aaabCode }) =
      some (1, 0x101) := by
  decide

/-- V-PK-16. -/
theorem test_pkInit :
    got (fun s => (s.pk.ctl, s.pk.out)) (exec .pkInit { State.reset with
      pk := { packerInit with padBits := 5, fin := true, byteCount := 1, out := [0xA0] } }) =
      some (0, []) := by
  decide

/-- V-PK-1's eighth command. -/
theorem test_pkWbit :
    got (fun s => (s.pk.out, s.pk.byteCount, s.pk.ctl)) (exec (.pkWbit 1) { State.reset with
      pk := { packerInit with acc := 0x7F, nbits := 7 } }) = some ([0xFF], 1, 0) := by
  decide

/-- V-PK-8. -/
theorem test_pkWbit_operand :
    got State.status (exec (.pkWbit 2) State.reset) = some 0x5171 := by decide

/-- V-PK-5's PK_WBITS: bits of ARG above n are ignored. -/
theorem test_pkWbits :
    got (fun s => s.pk.ctl) (exec (.pkWbits 3) { State.reset with arg := 0xFD }) = some 0x503 := by
  decide

/-- V-PK-6's PK_WBITS: n = 64 writes all of ARG, bit 63 first. -/
theorem test_pkWbits_64 :
    got (fun s => s.pk.out) (exec (.pkWbits 64) { State.reset with arg := 0x8000000000000001 }) =
      some [0x80, 0, 0, 0, 0, 0, 0, 0x01] := by
  decide

/-- V-PK-10's last command. -/
theorem test_encByte :
    got (fun s => s.pk.ctl) (exec (.encByte 0x42) { State.reset with
      code := aaabCode, pk := { packerInit with nbits := 3 } }) = some 0x104 := by
  decide

/-- V-PK-12. -/
theorem test_encByte_no_code :
    got State.status (exec (.encByte 0x43) { State.reset with code := aaabCode }) =
      some 0x5341 := by
  decide

/-- V-PK-3. -/
theorem test_pkFinish :
    got (fun s => (s.pk.out, s.res, s.resx, s.pk.ctl, s.status))
      (exec .pkFinish { State.reset with pk := packer101 }) =
      some ([0xA0], 1, 5, 0x50000, 0x40000) := by
  decide

/-- V-PK-4. -/
theorem test_pkFinish_twice :
    got State.status (exec .pkFinish { State.reset with pk := { packerInit with fin := true } }) =
      some 0x45471 := by
  decide

/-- V-UP-9. -/
theorem test_inClear :
    got (fun s => (s.up.inLen, s.up.pos, s.up.ctl, s.endFlag, s.up.validMirror))
      (exec .inClear { State.reset with
        up := { buf := [0xA5], pad := 3, pos := 5 }, endFlag := true }) =
      some (0, 0, 0, false, 0) := by
  decide

/-- V-UP-10. -/
theorem test_inPush :
    got (fun s => (s.up.inLen, s.up.validMirror))
      (exec (.inPush 0xFF) { State.reset with up := opened [0xA5] 3 }) = some (2, 13) := by
  decide

/-- V-UP-11. -/
theorem test_inPush_full :
    got State.status (exec (.inPush 0x00) { State.reset with
      cfg := ⟨1⟩, up := opened [0xA5] 0 }) = some 0x6171 := by
  decide

/-- V-UP-2. -/
theorem test_upOpen :
    got (fun s => (s.up.validMirror, s.up.ctl))
      (exec (.upOpen 3) { State.reset with up := opened [0xA5] 0 }) = some (5, 3) := by
  decide

/-- V-UP-6. -/
theorem test_upOpen_operand :
    got State.status (exec (.upOpen 8) State.reset) = some 0x6211 := by decide

/-- V-UP-1's third read. -/
theorem test_upRbit :
    got (fun s => (s.res, s.endFlag, s.up.pos)) (exec .upRbit { State.reset with
      up := { buf := [0xA5], pad := 0, pos := 2 } }) = some (1, false, 3) := by
  decide

/-- V-UP-1's ninth read. -/
theorem test_upRbit_end :
    got (fun s => (s.res, s.status, s.up.pos)) (exec .upRbit { State.reset with
      res := 1, up := { buf := [0xA5], pad := 0, pos := 8 } }) = some (0, 0x10000, 8) := by
  decide

/-- V-UP-4's first read. -/
theorem test_upRbits :
    got (fun s => (s.res, s.endFlag, s.up.pos))
      (exec (.upRbits 5) { State.reset with up := opened [0xA5] 3, endFlag := true }) =
      some (0x14, false, 5) := by
  decide

/-- V-UP-3. -/
theorem test_upRbits_short :
    got (fun s => (s.res, s.endFlag, s.up.pos))
      (exec (.upRbits 6) { State.reset with up := opened [0xA5] 3 }) = some (0, true, 0) := by
  decide

/-- V-DT-2. -/
theorem test_dtBuild :
    got (fun s => (s.trie, s.trieNodes, s.res)) (exec .dtBuild { State.reset with code := aaabCode }) =
      some (aaabTrie, 3, 3) := by
  decide +kernel

/-- V-DT-4: a code that lands on an internal node is a collision. -/
theorem test_dtBuild_collision :
    got (fun s => (s.status, s.trieNodes)) (exec .dtBuild { State.reset with
      code := tset (tset (tset (Table.fill absentCode)
        1 { present := true, code := 4, len := 2 }) 2 { present := true, code := 0, len := 1 })
        3 { present := true, code := 1, len := 1 } }) = some (0x7021, 1) := by
  decide

/-- V-DEC-1's first symbol. -/
theorem test_decSym :
    got (fun s => (s.res, s.dec.out, s.up.pos)) (exec .decSym aaabDecode) =
      some (0x41, [0x41], 1) := by
  decide

/-- V-DEC-9: a bit to an Empty child. -/
theorem test_decSym_unmapped :
    got (fun s => (s.status, s.up.pos)) (exec .decSym { State.reset with
      trie := .inner (.leaf 0x41) (.inner (.inner (.leaf 0x42) .empty) .empty)
      trieNodes := 5
      up := opened [0xC0] 0 }) = some (0x7161, 0) := by
  decide

/-- V-DEC-5. -/
theorem test_decRun :
    got (fun s => (s.dec.out, s.res, s.up.pos)) (exec .decRun { aaabDecode with arg := 3 }) =
      some ([0x41, 0x41, 0x41], 3, 3) := by
  decide

/-- V-DEC-4. -/
theorem test_decRun_truncated :
    got (fun s => (s.status, s.dec.out, s.up.pos)) (exec .decRun { aaabDecode with arg := 5 }) =
      some (0x7231, [], 0) := by
  decide

/-! ## The host's container -/

/-- E1: the fields of "AAAB"'s container. -/
def aaabContainer : Container where
  originalSize := 4
  extension := [0x2E, 0x74, 0x78, 0x74]
  table := [{ sym := 0x41, len := 1 }, { sym := 0x42, len := 1 }]
  padBits := 4
  payload := [0x10]

/-- E1's 26 bytes. -/
theorem test_writeContainer :
    writeContainer aaabContainer = some
      [0x48, 0x5A, 0x49, 0x50, 0x01, 4, 0, 0, 0, 0, 0, 0, 0, 4, 0x2E, 0x74, 0x78, 0x74, 2, 0,
        0x41, 1, 0x42, 1, 4, 0x10] := by
  decide

/-- R246: the caller's input stream fails. -/
theorem test_ioFailure :
    compressFile State.reset [] [] .fails .delivers .delivers = .error (.host .ioFailure) := rfl

/-- V-HOST-6. -/
theorem test_parseContainer_truncated :
    parseContainer [0x48, 0x5A, 0x49, 0x50, 0x01] = .error .truncatedField := by
  decide

/-- E5's first change: a bad magic. -/
theorem test_parseContainer_magic :
    parseContainer [0xB7, 0x5A, 0x49, 0x50, 0x01] = .error .badMagic := by
  decide

/-! ## Witnesses: states and operands that meet the statements' hypotheses, clause by clause -/

/-- A state with something in every unit, and a fault latched. -/
def busy : State :=
  { faulted with
    pending := [.readPkOut]
    fc := { freq := aaabFreq, total := 4 }
    tree := some aaabTree
    code := Table.fill { present := true, code := 0, len := 64 }
    entries := List.replicate 256 { sym := 0, len := 8 }
    pk := packer101
    up := { buf := [0xA5], pad := 3, pos := 5 }
    dec := { out := [0x41], count := 1 }
    trie := aaabTrie
    trieNodes := 3 }

/-- The packer with no room for one more byte: its count is at the limit, seven bits held. -/
def fullPacker : Packer := { packerInit with nbits := 7, byteCount := maxCount }

/-- IllegalWordsRaiseCommandError: both ends of every range of unassigned opcodes. -/
theorem witness_unassigned_opcodes :
    ∀ o ∈ ([0x02, 0x0F, 0x13, 0x1F, 0x21, 0x2F, 0x32, 0x3F, 0x46, 0x4F, 0x55, 0x5F, 0x65, 0x6F,
      0x73, 0xFF] : List Byte), (opcodeRow o).isNone = true := by
  decide

/-- Its opcode next to each range is assigned, so no range is too wide. -/
theorem witness_assigned_opcodes :
    ∀ o ∈ ([0x01, 0x10, 0x12, 0x20, 0x30, 0x31, 0x40, 0x45, 0x50, 0x54, 0x60, 0x64, 0x70, 0x72] :
      List Byte), (opcodeRow o).isSome = true := by
  decide

/-- IllegalWordsRaiseCommandError: bits [63:32], Z, and unused A and B that are not 0, with no fault
latched. -/
theorem witness_IllegalWordsRaiseCommandError :
    (hostDoes State.reset [.write 0x00 64 0x52010000]).latch.fault = false ∧
    (0x0000000100000000 : Word).extractLsb' 32 32 ≠ 0 ∧ (0x01000001 : Word).extractLsb' 0 8 ≠ 0 ∧
    (0x52010000 : Word).extractLsb' 16 8 ≠ 0 ∧ (0x11000100 : Word).extractLsb' 8 8 ≠ 0 := by
  decide

theorem witness_StepRunsDecodedCommand :
    (hostDoes State.reset [.write 0x00 64 0x11410000]).latch.fault = false ∧
    decode 0x11410000 = .ok (.fcByte 0x41) := by
  decide

/-- FaultedBlockDropsWrites, and the first clause of FaultIsSticky: the RESET word changes the
latch. -/
theorem witness_FaultedBlockDropsWrites :
    faulted.latch.fault = true ∧ regAt 0x78 = some .decCount ∧ (0x01000100 : Word) ≠ resetWord ∧
    got (fun t => decide (t.latch = faulted.latch))
      (step (hostDoes faulted [.write 0x00 64 0x01000000])) = some false := by
  decide

/-- FaultsArePrecise and the second clause of FaultIsSticky: a CMD write that latches a fault. -/
theorem witness_FaultsArePrecise :
    State.reset.latch.fault = false ∧
    got (fun t => t.latch.fault) (step (hostDoes State.reset [.write 0x00 64 0x71000000])) =
      some true := by
  decide

/-- MirrorFieldsInPlace: an empty buffer with a pad count, and the smallest buffer with the largest. -/
theorem witness_MirrorFieldsInPlace :
    ({ opened [] 7 with pos := 2 ^ 64 - 1 } : Unpacker).pos < 2 ^ 64 ∧ (opened [] 7).buf = [] ∧ (opened [0xA5] 7).buf ≠ [] ∧
    8 * (opened [0xA5] 7).buf.length < 2 ^ 64 + (opened [0xA5] 7).pad.toNat := by
  decide

/-- RegisterReadsFollowTheMap: each stream read as the next access. -/
theorem witness_RegisterReadsFollowTheMap :
    busy.pending = .readPkOut :: [] ∧ (hostDoes busy [.readDecOut]).pending = .readDecOut :: [] ∧
    State.reset.pending = [] := ⟨rfl, rfl, rfl⟩

/-- ProtocolViolationsRefused: an access of each kind, refused and not, at the limits. -/
theorem witness_ProtocolViolationsRefused :
    checkAccess 0x78 64 = .ok .decCount ∧ checkAccess 0x78 63 = .error .accessWidth ∧
    checkAccess 0x79 64 = .error .accessMisaligned ∧ checkAccess 0x80 64 = .error .accessReserved := by
  decide

theorem witness_WindowIsLittleEndian : regAt 0x00 = some .cmd ∧ regAt 0x78 = some .decCount := by
  decide

theorem witness_ResetStateValues :
    (hostDoes faulted [.hardReset]).pending = .hardReset :: [] := rfl

/-- FcByteCountsOneByte: the last count below the limit, and the limit. -/
theorem witness_FcByteCountsOneByte :
    (0xFFFFFFFFFFFFFFFE : Word) ≠ 0xFFFFFFFFFFFFFFFF ∧
    ({ freq := Table.fill 0, total := 0xFFFFFFFFFFFFFFFF } : FreqCounter).total =
      0xFFFFFFFFFFFFFFFF := by
  decide

theorem witness_CountingPassCountsOccurrences :
    ([0x41, 0x41, 0x41, 0x42] : List Byte).length < 2 ^ 64 := by decide

/-- ArbiterYieldsSmallestKey and TreeIgnoresArrangement: two live nodes of one weight, in either order;
and a second state with the same FREQ. -/
theorem witness_TreeIgnoresArrangement :
    ([HuffmanNode.leaf 0x43 2, .internal 2 0x41 (.leaf 0x41 1) (.leaf 0x42 1)].map
      nodeMinSym).Nodup ∧
    [HuffmanNode.leaf 0x43 2, .internal 2 0x41 (.leaf 0x41 1) (.leaf 0x42 1)].Perm
      [.internal 2 0x41 (.leaf 0x41 1) (.leaf 0x42 1), .leaf 0x43 2] ∧
    { aaabCounted with res := 7 }.fc.freq = aaabCounted.fc.freq ∧
    (∃ t, exec .tbBuild { aaabCounted with res := 7 } = .next t) ∧
    ∃ t, exec .tbBuild aaabCounted = .next t :=
  ⟨by decide, List.Perm.swap _ _ _, rfl, ⟨_, rfl⟩, _, rfl⟩

/-- TbBuildMakesTreeOfPresentSymbols: one present symbol. -/
theorem witness_TbBuildMakesTreeOfPresentSymbols :
    presentSyms (tset (Table.fill 0) 0x5A 10) = [0x5A] := by
  decide +kernel

/-- LdDeriveWritesDepths: no tree, one leaf, two leaves. -/
theorem witness_LdDeriveWritesDepths :
    TreeOk none ∧ TreeOk (some (.leaf 0x5A 10)) ∧ TreeOk (some aaabTree) := by
  refine ⟨fun n h => ?_, fun n h => ?_, fun n h => ?_⟩
  · cases h
  · cases h; decide
  · cases h; decide

/-- DerivedLengthsMeetKraft: the commands complete, with two symbols present and with one. -/
theorem witness_DerivedLengthsMeetKraft :
    (∃ t u, exec .tbBuild aaabCounted = .next t ∧ exec .ldDerive t = .next u) ∧
    2 ≤ (presentSyms aaabFreq).length ∧
    (presentSyms (tset (Table.fill 0) 0x5A 10)).length = 1 :=
  ⟨⟨_, _, rfl, rfl⟩, by decide +kernel, by decide +kernel⟩

/-- TbBuildMakesTreeOfPresentSymbols: two live nodes and three, no two of one minSym. -/
theorem witness_mergeStep :
    2 ≤ [HuffmanNode.leaf 0x41 3, .leaf 0x42 1].length ∧
    ([HuffmanNode.leaf 0x41 3, .leaf 0x42 1].map nodeMinSym).Nodup ∧
    ([HuffmanNode.leaf 0x41 1, .leaf 0x42 1, .leaf 0x43 1].map nodeMinSym).Nodup := by
  decide

/-- CaFromLenAssignsCodes: the longest legal length and the first illegal one. -/
theorem witness_CaFromLenAssignsCodes :
    (∀ a, (tget (tset (Table.fill (0 : Byte)) 0x07 64) a).toNat ≤ 64) ∧
    ∃ a, 64 < (tget (tset (Table.fill (0 : Byte)) 0x07 65) a).toNat := by
  refine ⟨fun a => ?_, 0x07, by rw [tget_tset_self]; decide⟩
  rw [tget_tset, tget_fill]
  split <;> decide

/-- EqualLengthCodesConsecutive and CanonicalCodesPrefixFree: B and C of V-CA-3, whose lengths sum to
exactly 1. -/
theorem witness_CanonicalCodesPrefixFree :
    kraftSum abcLengths = 2 ^ 255 ∧ (∃ c, canonical abcLengths = .ok c) ∧
    tget abcLengths 0x42 ≠ 0 ∧ tget abcLengths 0x42 = tget abcLengths 0x43 := by
  refine ⟨by decide +kernel, ⟨_, if_neg ?_⟩, by decide +kernel, by decide +kernel⟩
  decide +kernel

/-- OversubscribedTablesNeverBuild: V-CA-14's three codes of length 1. -/
theorem witness_OversubscribedTablesNeverBuild :
    2 ^ 255 < kraftSum (tset (tset (tset (Table.fill 0) 1 1) 2 1) 3 1) ∧
    ∃ c, canonical (tset (tset (tset (Table.fill 0) 1 1) 2 1) 3 1) = .ok c := by
  refine ⟨by decide +kernel, _, if_neg ?_⟩
  decide +kernel

/-- EntryListPushAndRead: one place left, none left, the last index and the one after it. -/
theorem witness_EntryListPushAndRead :
    (List.replicate 255 ({ sym := 0, len := 8 } : Entry)).length < 256 ∧
    (List.replicate 256 ({ sym := 0, len := 8 } : Entry)).length = 256 ∧
    (2 : Byte).toNat < abcEntries.length ∧ abcEntries.length ≤ (3 : Byte).toNat := by
  rw [List.length_replicate, List.length_replicate]
  decide

/-- CaFromEntriesAssignsCodes: lengths 1 and 64 pass; lengths 0 and 65, and a symbol named twice, do
not. -/
theorem witness_CaFromEntriesAssignsCodes :
    (∀ e ∈ ([{ sym := 1, len := 1 }, { sym := 2, len := 64 }] : List Entry),
      1 ≤ e.len.toNat ∧ e.len.toNat ≤ 64) ∧
    (([{ sym := 1, len := 1 }, { sym := 2, len := 64 }] : List Entry).map Entry.sym).Nodup ∧
    (¬ ∀ e ∈ ([{ sym := 1, len := 0 }] : List Entry), 1 ≤ e.len.toNat ∧ e.len.toNat ≤ 64) ∧
    (¬ ∀ e ∈ ([{ sym := 1, len := 65 }] : List Entry), 1 ≤ e.len.toNat ∧ e.len.toNat ≤ 64) ∧
    ¬ (([{ sym := 1, len := 1 }, { sym := 1, len := 1 }] : List Entry).map Entry.sym).Nodup := by
  decide

theorem witness_ArrivalOrderIrrelevant :
    ([{ sym := 1, len := 1 }, { sym := 1, len := 2 }] : List Entry).Perm
      [{ sym := 1, len := 2 }, { sym := 1, len := 1 }] := List.Perm.swap _ _ _

/-- The packer's statements: a packer that is in order, with room for one bit and for 64, and a
finished one. -/
theorem witness_packer_with_room :
    PackerOk packer101 ∧ packer101.fin = false ∧ RoomFor packer101 1 ∧ RoomFor packer101 64 ∧
    packer101.nbits ≠ 0 ∧ PackerOk { packerInit with fin := true } ∧ packerInit.nbits = 0 := by
  refine ⟨⟨rfl, ?_⟩, rfl, ?_, ?_, ?_, ⟨rfl, ?_⟩, rfl⟩
  all_goals first
    | decide
    | (unfold RoomFor; decide)

/-- The packer's statements: a packer in order that has no room. Its PK_OUT is 2^64 - 1 bytes. -/
theorem witness_packer_without_room :
    ∃ p : Packer, PackerOk p ∧ p.fin = false ∧ p.nbits ≠ 0 ∧ p.byteCount = 0xFFFFFFFFFFFFFFFF ∧
      ¬ RoomFor p 1 ∧ ¬ RoomFor p 64 := by
  refine ⟨{ fullPacker with out := List.replicate (2 ^ 64 - 1) 0 }, ⟨?_, ?_⟩, rfl, ?_, rfl, ?_, ?_⟩
  · rw [List.length_replicate]; rfl
  all_goals first
    | decide
    | (unfold RoomFor; decide)

/-- The operands of PK_WBIT, PK_WBITS, UP_RBITS and UP_OPEN at the two sides of their limits. -/
theorem witness_operand_limits :
    (1 : Byte).toNat ≤ 1 ∧ 1 < (2 : Byte).toNat ∧ (64 : Byte).toNat ≤ 64 ∧
    64 < (65 : Byte).toNat ∧ (7 : Byte).toNat ≤ 7 ∧ 7 < (8 : Byte).toNat := by
  decide

/-- EncByteWritesCode: a byte with a code, and one without. -/
theorem witness_EncByteWritesCode :
    (tget aaabCode 0x42).present = true ∧ (tget aaabCode 0x43).present = false := by
  decide +kernel

/-- FinishedPayloadIsTheBits: three bits, and the most bits whose bytes the count can hold. -/
theorem witness_FinishedPayloadIsTheBits :
    [true, false, true].length ≤ 8 * (2 ^ 64 - 1) ∧
    (List.replicate (8 * (2 ^ 64 - 1)) true).length ≤ 8 * (2 ^ 64 - 1) := by
  rw [List.length_replicate]
  decide

/-- PayloadPushAndOpen: one place left in the buffer, and none. -/
theorem witness_PayloadPushAndOpen :
    (opened [] 0).buf.length ≠ (⟨1⟩ : Config).inCap ∧
    (opened [0xA5] 0).buf.length = (⟨1⟩ : Config).inCap := by
  decide

/-- UpRbitReadsNextBit and UpRbitsReadsNextBits: an unpacker with no data bit before the padding, with
one, and with five. -/
theorem witness_UpRbitsReadsNextBits :
    upcomingBits { buf := [0xA5], pad := 3, pos := 5 } = [] ∧
    upcomingBits { buf := [0xA5], pad := 3, pos := 4 } = [false] ∧
    (upcomingBits (opened [0xA5] 3)).length = (5 : Byte).toNat ∧
    (upcomingBits (opened [0xA5] 3)).length < (6 : Byte).toNat := by
  decide

/-- StepKeepsUnpackerOk: an unpacker in order. -/
theorem witness_StepKeepsUnpackerOk :
    Config.uncapped.Wf ∧ UnpackerOk Config.uncapped (opened [0xA5] 3) :=
  ⟨by decide, by decide, by decide⟩

/-- The present symbols of "AAAB"'s codes. -/
theorem aaabCode_present {a : Byte} (h : (tget aaabCode a).present = true) :
    a = 0x41 ∨ a = 0x42 := by
  by_contra hne
  obtain ⟨h1, h2⟩ := not_or.mp hne
  rw [aaabCode, tget_tset_ne _ _ h2, tget_tset_ne _ _ h1, tget_fill] at h
  cases h

/-- DtBuildAcceptsPrefixFreeCodes: the codes of "AAAB" are prefix-free, and equal codes are not. -/
theorem witness_DtBuildAcceptsPrefixFreeCodes :
    (CodeOk aaabCode ∧ CodesPrefixFree aaabCode) ∧
    CodeOk (Table.fill { present := true, code := 0, len := 1 }) ∧
    ¬ CodesPrefixFree (Table.fill { present := true, code := 0, len := 1 }) := by
  refine ⟨⟨?_, fun a b hne ha hb => ?_⟩, fun e he => ?_, fun h => ?_⟩
  · unfold CodeOk
    decide +kernel
  · rcases aaabCode_present ha with rfl | rfl <;> rcases aaabCode_present hb with rfl | rfl
    · exact absurd rfl hne
    · decide +kernel
    · decide +kernel
    · exact absurd rfl hne
  · rw [List.eq_of_mem_replicate he]; decide
  · refine h 0 1 (by decide) (by rw [tget_fill]) (by rw [tget_fill]) ?_
    rw [tget_fill, tget_fill]

/-- DecSymDecodesOneSymbol: the coming bits begin with a leaf's path, end inside the trie, or lead to an
Empty child; and the trie meets its invariant. -/
theorem witness_DecSymDecodesOneSymbol :
    (∃ l r, aaabDecode.trie = .inner l r) ∧ TrieOk aaabDecode.trie aaabDecode.trieNodes ∧
    nodeAt aaabTrie [false] = some (.leaf 0x41) ∧ [false] <+: upcomingBits aaabDecode.up ∧
    nodeAt aaabTrie (upcomingBits (opened [] 4)) = some aaabTrie ∧
    nodeAt emptyTrie [false] = some .empty ∧ [false] <+: upcomingBits (opened [0x00] 0) :=
  ⟨⟨_, _, rfl⟩, ⟨⟨_, _, rfl⟩, rfl, by decide, by decide⟩, by decide, by decide, by decide, by decide,
    by decide⟩

/-- V-DEC-1's start, with DEC_COUNT at its limit. -/
def decodeLimit : State := { aaabDecode with dec := { out := [], count := 0xFFFFFFFFFFFFFFFF } }

/-- DecSymDecodesOneSymbol: one below the limit of DEC_COUNT, and at it, with the same bits to come. -/
theorem witness_DecSym_count_limit :
    (∃ l r, decodeLimit.trie = .inner l r) ∧
    nodeAt decodeLimit.trie [false] = some (.leaf 0x41) ∧
    [false] <+: upcomingBits decodeLimit.up ∧ decodeLimit.dec.count = 0xFFFFFFFFFFFFFFFF ∧
    (0xFFFFFFFFFFFFFFFE : Word) ≠ 0xFFFFFFFFFFFFFFFF :=
  ⟨⟨_, _, rfl⟩, by decide, by decide, rfl, by decide⟩

/-- DecRunDecodesArgSymbols: the paths of V-DEC-3 with no bit left over, where a fifth symbol finds the
end (V-DEC-4); a run of no symbol; and a bit to an Empty child (V-DEC-8). -/
theorem witness_DecRunDecodesArgSymbols :
    (∀ p ∈ [([false], (0x41 : Byte)), ([false], 0x41), ([false], 0x41), ([true], 0x42)],
      nodeAt aaabDecode.trie p.1 = some (.leaf p.2)) ∧
    upcomingBits aaabDecode.up = [([false], (0x41 : Byte)), ([false], 0x41), ([false], 0x41),
      ([true], 0x42)].flatMap Prod.fst ++ [] ∧
    nodeAt aaabDecode.trie [] = some aaabTrie ∧
    upcomingBits aaabDecode.up = ([] : List (List Bool × Byte)).flatMap Prod.fst ++
      [false, false, false, true] ∧
    nodeAt emptyTrie [false] = some .empty ∧ [false] <+: upcomingBits (opened [0x00] 0) := by
  decide

/-- DecodingInvertsEncoding: "AAAB". -/
theorem witness_DecodingInvertsEncoding :
    (encodeBytes aaabCode [0x41, 0x41, 0x41, 0x42] packerInit).bind finishPacker =
      .ok { packerInit with padBits := 4, fin := true, byteCount := 1, out := [0x10] } ∧
    buildTrie aaabCode = .ok (aaabTrie, 3) := by
  decide +kernel

/-- ReadBackCommandsReadTables: an absent symbol in a table that meets CODE's invariant. -/
theorem witness_ReadBackCommandsReadTables :
    CodeOk aaabCode ∧ (tget aaabCode 0x43).present = false := by
  unfold CodeOk
  decide +kernel

/-- The invariants that every step keeps: a state that meets them all and answers a next state. -/
theorem witness_invariants : BlockOk busy ∧ ∃ t, step busy = .next t := by
  refine ⟨⟨by decide, ⟨by decide, by decide, by decide⟩, ?_, fun n h => ?_, fun e he => ?_, ?_,
    ⟨rfl, by decide⟩, ⟨by decide, by decide⟩, rfl,
    ⟨⟨_, _, rfl⟩, rfl, by decide, by decide⟩⟩, _, rfl⟩
  · unfold FreqOk
    decide +kernel
  · cases h
    decide
  · rw [List.eq_of_mem_replicate he]
    decide
  · exact (List.length_replicate (n := 256)).le

/-- OnlyListedCommandsWrite: a command completes. -/
theorem witness_OnlyListedCommandsWrite : ∃ t, exec .tbBuild aaabCounted = .next t := ⟨_, rfl⟩

/-- ParseOfWrittenContainer and HeaderLengthAndRefusal: E1's container, the shortest extension that is
refused, and bytes the parser rejects. -/
theorem witness_ParseOfWrittenContainer :
    (writeContainer aaabContainer).isSome = true ∧ aaabContainer.Wf ∧
    255 < (List.replicate 256 (0 : Byte)).length ∧
    parseContainer [0x48] = .error .truncatedField := by
  refine ⟨by decide, by decide, ?_, by decide⟩
  rw [List.length_replicate]
  decide

/-- Whether a host operation ends well. -/
def ended {α : Type} : Except HostStop α → Bool
  | .ok _ => true
  | .error _ => false

theorem exists_of_ended {α : Type} {x : Except HostStop α} (h : ended x = true) :
    ∃ a, x = .ok a := by
  cases x with
  | ok a => exact ⟨a, rfl⟩
  | error e => cases h

/-- ParseOfWrittenContainer: E1's bytes are accepted, and their fields are E1's. -/
theorem witness_parseContainer :
    parseContainer [0x48, 0x5A, 0x49, 0x50, 0x01, 4, 0, 0, 0, 0, 0, 0, 0, 4, 0x2E, 0x74, 0x78, 0x74,
      2, 0, 0x41, 1, 0x42, 1, 4, 0x10] = .ok aaabContainer := by
  decide +kernel

/-- HeaderLengthAndRefusal: the counting pass over an empty input is good, so a second pass begins. -/
theorem witness_countingPass : ∃ t, goodRun (countingAccesses []) State.reset = .ok t :=
  exists_of_ended (by decide +kernel)

/-- HeaderLengthAndRefusal: the empty input is compressed to a container. -/
theorem witness_compressFile :
    ∃ file, compressFile State.reset [] [] .delivers .delivers .delivers = .ok file :=
  exists_of_ended (by decide +kernel)

/-- HeaderLengthAndRefusal: the container of an empty file is decompressed. -/
theorem witness_decompressFile :
    ∃ r, decompressFile State.reset
      [0x48, 0x5A, 0x49, 0x50, 0x01, 0, 0, 0, 0, 0, 0, 0, 0, 0, 0, 0, 0] .delivers .delivers = .ok r :=
  exists_of_ended (by decide +kernel)

end Sys2Proof.Tests
end

section
/-! SUPPORT. The induction over steps that every invariant of 10_state.md goes through, and which
commands write each element of the block (20_memory.md R77). -/

namespace Sys2Proof.Machine

/-- What holds of every result of a mapped computation. -/
theorem forall_map_ok {ε α β : Type} {f : α → β} {x : Except ε α} {P : β → Prop} :
    (∀ b, x.map f = .ok b → P b) ↔ ∀ a, x = .ok a → P (f a) := by
  cases x <;> simp [Except.map]

/-! No command raises IOFailure (R304): each computation a command's rule is made of. -/

@[simp] theorem bitOperand_ne_ioFailure (a : Byte) : bitOperand a ≠ .error .ioFailure := by
  unfold bitOperand; split <;> simp

@[simp] theorem padOperand_ne_ioFailure (a : Byte) : padOperand a ≠ .error .ioFailure := by
  unfold padOperand; split <;> simp

@[simp] theorem countOperand_ne_ioFailure (b : Byte) : countOperand b ≠ .error .ioFailure := by
  unfold countOperand; split <;> simp

@[simp] theorem entryOperand_ne_ioFailure (s : State) (a : Byte) :
    entryOperand s a ≠ .error .ioFailure := by
  unfold entryOperand; split <;> simp

@[simp] theorem countByte_ne_ioFailure (b : Byte) (f : FreqCounter) :
    countByte b f ≠ .error .ioFailure := by
  rcases countByte_cases b f with ⟨-, h⟩ | ⟨-, h⟩ <;> simp [h]

@[simp] theorem pushByte_ne_ioFailure (cfg : Config) (b : Byte) (u : Unpacker) :
    pushByte cfg b u ≠ .error .ioFailure := by
  rcases pushByte_cases cfg b u with ⟨-, h⟩ | ⟨-, h⟩ <;> simp [h]

@[simp] theorem pushEntry_ne_ioFailure (e : Entry) (es : List Entry) :
    pushEntry e es ≠ .error .ioFailure := by
  unfold pushEntry; split <;> simp

@[simp] theorem canonical_ne_ioFailure (lt : Table Byte) : canonical lt ≠ .error .ioFailure := by
  unfold canonical; split <;> simp

@[simp] theorem canonicalOfEntries_ne_ioFailure (es : List Entry) :
    canonicalOfEntries es ≠ .error .ioFailure := by
  unfold canonicalOfEntries
  split
  · simp
  · split <;> simp

@[simp] theorem emitPk_ne_ioFailure (b : Byte) (p : Packer) : emitPk b p ≠ .error .ioFailure := by
  unfold emitPk; split <;> simp

@[simp] theorem writeBit_ne_ioFailure (b : Bool) (p : Packer) :
    writeBit b p ≠ .error .ioFailure := by
  unfold writeBit; split <;> simp [map_eq_error]

@[simp] theorem writeBitList_ne_ioFailure (bits : List Bool) (p : Packer) :
    writeBitList bits p ≠ .error .ioFailure := by
  induction bits generalizing p with
  | nil => simp [writeBitList]
  | cons b bs ih =>
    rw [writeBitList]
    split
    · exact ih _
    · next k hk => rintro ⟨⟩; exact writeBit_ne_ioFailure b p hk

@[simp] theorem pkWbit_ne_ioFailure (a : Byte) (p : Packer) : pkWbit a p ≠ .error .ioFailure := by
  unfold pkWbit
  split
  · next k hk => rintro ⟨⟩; exact bitOperand_ne_ioFailure a hk
  · split <;> simp

@[simp] theorem pkWbits_ne_ioFailure (b : Byte) (v : Word) (p : Packer) :
    pkWbits b v p ≠ .error .ioFailure := by
  unfold pkWbits writeBits
  split
  · next k hk => rintro ⟨⟩; exact countOperand_ne_ioFailure b hk
  · split <;> simp

@[simp] theorem encodeSymbol_ne_ioFailure (c : CodeEntry) (p : Packer) :
    encodeSymbol c p ≠ .error .ioFailure := by
  unfold encodeSymbol writeBits
  split
  · simp
  · split <;> simp

@[simp] theorem pkFinish_ne_ioFailure (p : Packer) : pkFinish p ≠ .error .ioFailure := by
  unfold pkFinish finishPacker
  split
  · simp
  · split <;> simp [map_eq_error]

@[simp] theorem insertAll_ne_ioFailure (code : Table CodeEntry) (syms : List Byte)
    (acc : TrieNode × Nat) : insertAll code syms acc ≠ .error .ioFailure := by
  induction syms generalizing acc with
  | nil => simp [insertAll]
  | cons a rest ih =>
    rw [insertAll]
    split
    · split
      · exact ih _
      · simp
    · exact ih _

@[simp] theorem emitDec_ne_ioFailure (b : Byte) (d : DecodeOut) :
    emitDec b d ≠ .error .ioFailure := by
  rcases emitDec_cases b d with ⟨-, h⟩ | ⟨-, h⟩ <;> simp [h]

@[simp] theorem walk_ne_ioFailure (n : TrieNode) (u : Unpacker) : walk n u ≠ .error .ioFailure := by
  induction n generalizing u with
  | empty => simp [walk]
  | leaf a => simp [walk]
  | inner l r ihl ihr =>
    rw [walk]
    split
    · simp
    · exact ihl _
    · exact ihr _

@[simp] theorem decodeSymbol_ne_ioFailure (n : TrieNode) (u : Unpacker) (d : DecodeOut) :
    decodeSymbol n u d ≠ .error .ioFailure := by
  unfold decodeSymbol
  split
  · next k hk => rintro ⟨⟩; exact walk_ne_ioFailure n u hk
  · simp [map_eq_error]

@[simp] theorem decodeSymbols_ne_ioFailure (t : TrieNode) (n : Nat) (u : Unpacker) (d : DecodeOut) :
    decodeSymbols t n u d ≠ .error .ioFailure := by
  induction n generalizing u d with
  | zero => simp [decodeSymbols]
  | succ n ih =>
    rw [decodeSymbols]
    split
    · next k hk => rintro ⟨⟩; exact decodeSymbol_ne_ioFailure t u d hk
    · exact ih _ _

/-- R304: IOFailure is "never raised by any command". -/
theorem commandResult_ne_ioFailure (i : Instr) (s : State) :
    commandResult i s ≠ .error .ioFailure := by
  cases i <;> simp [commandResult, map_eq_error, buildTrie]

/-! The induction over steps. -/

/-- What every step keeps: a predicate that speaks of neither the host's side nor ARG, holds of the
reset block, outlives every fault a command can raise and is kept by every command's rule. -/
theorem step_keeps {P : State → Prop}
    (host : ∀ s pending answer arg, P s →
      P { s with pending := pending, answer := answer, arg := arg })
    (reset : ∀ s, P s → P s.resetBlock)
    (fault : ∀ s k opc, k ≠ .ioFailure → P s → P (s.raise k opc))
    (command : ∀ i s, i ≠ .reset → P s → ∀ t, commandResult i s = .ok t → P t)
    {s t : State} (hs : P s) (h : step s = .next t) : P t := by
  rcases step_cases h with ⟨-, rfl⟩ | ⟨a, rest, -, hread | hpk | hdec | hreset | harg | hcmd⟩
  · exact hs
  · obtain ⟨o, r, -, -, rfl⟩ := hread
    exact host s _ _ s.arg hs
  · rw [hpk.2]
    exact host s _ _ s.arg hs
  · rw [hdec.2]
    exact host s _ _ s.arg hs
  · rw [hreset.2]
    exact host s.resetBlock _ _ 0 (reset s hs)
  · obtain ⟨v, -, rfl⟩ := harg
    exact host s _ _ v hs
  · obtain ⟨x, -, hw⟩ := hcmd
    have hu := host s rest .complete s.arg hs
    rcases writeCmd_cases hw with ⟨-, -, rfl⟩ | ⟨-, -, rfl⟩ | ⟨-, -, rfl⟩ | ⟨-, i, -, he⟩
    · exact hu
    · exact reset _ hu
    · exact fault _ _ _ (by decide) hu
    · rcases exec_cases he with hok | ⟨k, herr, rfl⟩
      · by_cases hi : i = .reset
        · subst hi
          cases hok
          exact reset _ hu
        · exact command i _ hi hu t hok
      · exact fault _ _ _ (fun hk => commandResult_ne_ioFailure i _ (hk ▸ herr)) hu

/-! Which commands write each element, RESET apart, and what they make of it. -/

theorem pkWbit_writes {a : Byte} {p q : Packer} (h : pkWbit a p = .ok q) :
    ∃ bits, writeBitList bits p = .ok q := by
  unfold pkWbit at h
  split at h
  · cases h
  · next bit _ =>
    split at h
    · cases h
    · exact ⟨[bit], by rw [writeBitList, h]; rfl⟩

theorem pkWbits_writes {b : Byte} {v : Word} {p q : Packer} (h : pkWbits b v p = .ok q) :
    ∃ bits, writeBitList bits p = .ok q := by
  unfold pkWbits at h
  split at h
  · cases h
  · split at h
    · cases h
    · exact ⟨_, h⟩

theorem encodeSymbol_writes {c : CodeEntry} {p q : Packer} (h : encodeSymbol c p = .ok q) :
    ∃ bits, writeBitList bits p = .ok q := by
  unfold encodeSymbol at h
  split at h
  · cases h
  · split at h
    · cases h
    · exact ⟨_, h⟩

theorem pkFinish_finishes {p q : Packer} (h : pkFinish p = .ok q) : finishPacker p = .ok q := by
  unfold pkFinish at h
  split at h
  · cases h
  · exact h

theorem canonicalOfEntries_ok {es : List Entry} {c : Table CodeEntry}
    (h : canonicalOfEntries es = .ok c) : canonical (entryLengths es) = .ok c := by
  unfold canonicalOfEntries at h
  split at h
  · cases h
  · split at h
    · cases h
    · exact h

section
variable {i : Instr} (s : State) (hi : i ≠ .reset)
include hi

/-- No rule of a command touches the latch. -/
theorem latch_of_command : ∀ t, commandResult i s = .ok t → t.latch = s.latch := by
  cases i with
  | reset => exact absurd rfl hi
  | _ => simp [commandResult, forall_map_ok]

/-- FC_CLEAR and FC_BYTE write FREQ and TOTAL. -/
theorem fc_of_command : ∀ t, commandResult i s = .ok t →
    t.fc = s.fc ∨ t.fc = freqCleared ∨ ∃ b, countByte b s.fc = .ok t.fc := by
  cases i with
  | reset => exact absurd rfl hi
  | fcByte b => exact forall_map_ok.mpr fun _ hf => .inr (.inr ⟨b, hf⟩)
  | _ => simp [commandResult, forall_map_ok]

/-- TB_BUILD writes TREE. -/
theorem tree_of_command : ∀ t, commandResult i s = .ok t →
    t.tree = s.tree ∨ t.tree = buildTree s.fc.freq := by
  cases i with
  | reset => exact absurd rfl hi
  | _ => simp [commandResult, forall_map_ok]

/-- CA_FROM_LEN and CA_FROM_ENTRIES write CODE. -/
theorem code_of_command : ∀ t, commandResult i s = .ok t →
    t.code = s.code ∨ ∃ lt, canonical lt = .ok t.code := by
  cases i with
  | reset => exact absurd rfl hi
  | caFromLen => exact forall_map_ok.mpr fun _ hc => .inr ⟨_, hc⟩
  | caFromEntries => exact forall_map_ok.mpr fun _ hc => .inr ⟨_, canonicalOfEntries_ok hc⟩
  | _ => simp [commandResult, forall_map_ok]

/-- EN_CLEAR and EN_PUSH write the entry list. -/
theorem entries_of_command : ∀ t, commandResult i s = .ok t →
    t.entries = s.entries ∨ t.entries = [] ∨ ∃ e, pushEntry e s.entries = .ok t.entries := by
  cases i with
  | reset => exact absurd rfl hi
  | enPush a b => exact forall_map_ok.mpr fun _ he => .inr (.inr ⟨_, he⟩)
  | _ => simp [commandResult, forall_map_ok]

/-- DT_BUILD writes TRIE and TRIE_NODES. -/
theorem trie_of_command : ∀ t, commandResult i s = .ok t →
    (t.trie = s.trie ∧ t.trieNodes = s.trieNodes) ∨
      ∃ n, buildTrie s.code = .ok (t.trie, n) ∧ t.trieNodes = BitVec.ofNat 64 n := by
  cases i with
  | reset => exact absurd rfl hi
  | dtBuild => exact forall_map_ok.mpr fun r hr => .inr ⟨r.2, hr, rfl⟩
  | _ => simp [commandResult, forall_map_ok]

/-- PK_INIT, PK_WBIT, PK_WBITS, ENC_BYTE and PK_FINISH write the packer: it begins anew, takes bits
or finishes. -/
theorem pk_of_command : ∀ t, commandResult i s = .ok t →
    t.pk = s.pk ∨ t.pk = packerInit ∨ (∃ bits, writeBitList bits s.pk = .ok t.pk) ∨
      finishPacker s.pk = .ok t.pk := by
  cases i with
  | reset => exact absurd rfl hi
  | pkWbit a => exact forall_map_ok.mpr fun p hp => .inr (.inr (.inl (pkWbit_writes hp)))
  | pkWbits b => exact forall_map_ok.mpr fun p hp => .inr (.inr (.inl (pkWbits_writes hp)))
  | encByte b => exact forall_map_ok.mpr fun p hp => .inr (.inr (.inl (encodeSymbol_writes hp)))
  | pkFinish => exact forall_map_ok.mpr fun p hp => .inr (.inr (.inr (pkFinish_finishes hp)))
  | _ => simp [commandResult, forall_map_ok]

/-- DEC_SYM and DEC_RUN write DEC_OUT and DEC_COUNT. -/
theorem dec_of_command : ∀ t, commandResult i s = .ok t →
    t.dec = s.dec ∨ (∃ b u, decodeSymbol s.trie s.up s.dec = .ok (b, u, t.dec)) ∨
      ∃ n u, decodeSymbols s.trie n s.up { out := [], count := 0 } = .ok (u, t.dec) := by
  cases i with
  | reset => exact absurd rfl hi
  | decSym => exact forall_map_ok.mpr fun r hr => .inr (.inl ⟨_, _, hr⟩)
  | decRun => exact forall_map_ok.mpr fun r hr => .inr (.inr ⟨_, _, hr⟩)
  | _ => simp [commandResult, forall_map_ok]

/-- No command writes the parameter. -/
theorem cfg_of_command : ∀ t, commandResult i s = .ok t → t.cfg = s.cfg := by
  cases i with
  | reset => exact absurd rfl hi
  | _ => simp [commandResult, forall_map_ok]

end

end Sys2Proof.Machine
end

section
/-! PROOFS. The invariants of CODE and of the entry list (10_state.md R41, R42). -/

namespace Sys2Proof.Machine

theorem codeOk_iff (code : Table CodeEntry) :
    CodeOk code ↔ ∀ a, ((tget code a).present = true →
        1 ≤ (tget code a).len.toNat ∧ (tget code a).len.toNat ≤ 64) ∧
      ((tget code a).present = false → (tget code a).code = 0 ∧ (tget code a).len = 0) := by
  constructor
  · exact fun h a => h _ (tget_mem code a)
  · intro h e he
    obtain ⟨a, rfl⟩ := (mem_cells code e).mp he
    exact h a

/-- A meaningful bit string is at most 64 bits long (R41, R168). -/
theorem meaningfulBits_length_le {code : Table CodeEntry} (h : CodeOk code) (a : Byte) :
    (meaningfulBits (tget code a)).length ≤ 64 := by
  obtain ⟨hpresent, habsent⟩ := (codeOk_iff code).mp h a
  rw [meaningfulBits, bitsMsb_length]
  cases hp : (tget code a).present with
  | true => exact (hpresent hp).2
  | false => simp [(habsent hp).2]

theorem codeOk_reset (s : State) : CodeOk s.resetBlock.code :=
  (codeOk_iff _).mpr fun a => by simp

/-- `canonical` gives a code only to a length table without a length above 64 (R161). -/
theorem canonical_ok {lt : Table Byte} {c : Table CodeEntry} (h : canonical lt = .ok c) :
    (∀ a, (tget lt a).toNat ≤ 64) ∧ c = tbuild (canonicalEntry lt) := by
  unfold canonical at h
  split at h
  · cases h
  · next hany =>
    simp only [List.any_eq_true, decide_eq_true_eq, not_exists, not_and, Nat.not_lt] at hany
    exact ⟨fun a => hany _ (tget_mem lt a), (Except.ok.inj h).symm⟩

theorem canonical_codeOk {lt : Table Byte} {c : Table CodeEntry} (h : canonical lt = .ok c) :
    CodeOk c := by
  obtain ⟨hle, rfl⟩ := canonical_ok h
  refine (codeOk_iff _).mpr fun a => ?_
  rw [tget_tbuild, canonicalEntry]
  split
  · simp [absentCode]
  · next hne =>
    have hpos : (tget lt a).toNat ≠ 0 := fun h0 => hne (BitVec.eq_of_toNat_eq h0)
    exact ⟨fun _ => ⟨Nat.one_le_iff_ne_zero.mpr hpos, hle a⟩, by simp⟩

theorem codeOk_of_command {i : Instr} {s t : State} (hi : i ≠ .reset) (hs : CodeOk s.code)
    (h : commandResult i s = .ok t) : CodeOk t.code := by
  rcases code_of_command s hi t h with he | ⟨lt, hc⟩
  · exact he ▸ hs
  · exact canonical_codeOk hc

theorem pushEntry_entriesOk {e : Entry} {es es' : List Entry} (hes : EntriesOk es)
    (h : pushEntry e es = .ok es') : EntriesOk es' := by
  unfold pushEntry at h
  split at h
  · cases h
  · next hne =>
    cases h
    simp only [EntriesOk, List.length_append, List.length_singleton] at hes ⊢
    omega

theorem entriesOk_of_command {i : Instr} {s t : State} (hi : i ≠ .reset) (hs : EntriesOk s.entries)
    (h : commandResult i s = .ok t) : EntriesOk t.entries := by
  rcases entries_of_command s hi t h with he | he | ⟨e, he⟩
  · exact he ▸ hs
  · exact he ▸ Nat.zero_le 256
  · exact pushEntry_entriesOk hs he

/-- Settles O52: CODE is written by `canonical` alone, and an entry is pushed only below 256. -/
theorem stepKeepsCodesAndEntriesOk : Obligations.StepKeepsCodesAndEntriesOk := by
  intro s t hs h
  refine step_keeps (P := fun s => CodeOk s.code ∧ EntriesOk s.entries)
    (host := fun _ _ _ _ hs => hs)
    (reset := fun s _ => ⟨codeOk_reset s, Nat.zero_le 256⟩)
    (fault := fun _ _ _ _ hs => hs)
    (command := fun i s hi hs t h => ?_) hs h
  exact ⟨codeOk_of_command hi hs.1 h, entriesOk_of_command hi hs.2 h⟩

end Sys2Proof.Machine
end

section
/-! PROOFS. The packer's invariant (10_state.md R43). -/

namespace Sys2Proof.Machine

theorem packerOk_init : PackerOk packerInit := ⟨rfl, Nat.one_pos⟩

/-- `emit_PK` keeps the count and leaves the partial byte for its caller to clear (R181). -/
theorem emitPk_count {b : Byte} {p q : Packer} (hp : PackerOk p) (h : emitPk b p = .ok q) :
    q.byteCount.toNat = q.out.length := by
  unfold emitPk at h
  split at h
  · cases h
  · next hne =>
    cases h
    rw [toNat_succ_of_ne_max hne, hp.1, List.length_append, List.length_singleton]

theorem writeBitList_packerOk {bits : List Bool} {p q : Packer} (hp : PackerOk p)
    (h : writeBitList bits p = .ok q) : PackerOk q := by
  obtain ⟨hroom, hfull⟩ := writeBitList_spec bits p hp
  by_cases hr : RoomFor p bits.length
  · obtain ⟨q', hq', -, hok, -⟩ := hroom hr
    rw [h] at hq'
    exact Except.ok.inj hq' ▸ hok
  · rw [h] at hfull
    cases hfull hr

theorem finishPacker_packerOk {p q : Packer} (hp : PackerOk p) (h : finishPacker p = .ok q) :
    PackerOk q := by
  unfold finishPacker at h
  split at h
  · cases h
    exact ⟨hp.1, Nat.one_pos⟩
  · obtain ⟨r, hr, rfl⟩ := map_eq_ok.mp h
    have hcount := emitPk_count hp hr
    exact ⟨hcount, Nat.one_pos⟩

/-- Settles O53: a packer command begins anew, writes a list of bits, or finishes. -/
theorem stepKeepsPackerOk : Obligations.StepKeepsPackerOk := by
  intro s t hs h
  refine step_keeps (P := fun s => PackerOk s.pk)
    (host := fun _ _ _ _ hs => hs)
    (reset := fun _ _ => packerOk_init)
    (fault := fun _ _ _ _ hs => hs)
    (command := fun i s hi hs t h => ?_) hs h
  rcases pk_of_command s hi t h with he | he | ⟨bits, hw⟩ | hf
  · exact he ▸ hs
  · exact he ▸ packerOk_init
  · exact writeBitList_packerOk hs hw
  · exact finishPacker_packerOk hs hf

end Sys2Proof.Machine
end

section
/-! PROOFS. The trie's invariant (10_state.md R48, 47_decode_trie.md R220, R224). -/

namespace Sys2Proof.Machine

theorem trieOk_reset : TrieOk (.inner .empty .empty) 1 := by
  refine ⟨⟨_, _, rfl⟩, rfl, ?_, ?_⟩ <;> decide

/-- What DT_BUILD's loop makes of a trie with an Inner root (R220): the root stays an Inner, the
count stays the number of nodes, a symbol adds at most 64 of them, and the depth stays within 64. -/
theorem insertAll_spec {code : Table CodeEntry} (hcode : CodeOk code) {syms : List Byte}
    {t t' : TrieNode} {n : Nat} (hroot : ∃ l r, t = .inner l r)
    (h : insertAll code syms (t, trieCount t) = .ok (t', n)) :
    (∃ l r, t' = .inner l r) ∧ n = trieCount t' ∧ trieCount t' ≤ trieCount t + 64 * syms.length ∧
      trieDepth t' ≤ max (trieDepth t) 64 := by
  induction syms generalizing t with
  | nil =>
    cases h
    exact ⟨hroot, rfl, Nat.le_refl _, Nat.le_max_left _ _⟩
  | cons a rest ih =>
    rw [insertAll] at h
    rw [List.length_cons]
    split at h
    · split at h
      · next u k hu =>
        obtain ⟨hcount, hk, hinner, -⟩ := insertAt_spec hu
        have hbits := meaningfulBits_length_le hcode a
        have hne : t ≠ .empty := by obtain ⟨l, r, rfl⟩ := hroot; simp
        rw [if_neg hne] at hk
        rw [← hcount] at h
        obtain ⟨hroot', hn, hle, hdepth⟩ := ih (hinner hroot) h
        rw [insertAt_depth hu] at hdepth
        exact ⟨hroot', hn, by omega, by omega⟩
      · cases h
    · obtain ⟨hroot', hn, hle, hdepth⟩ := ih hroot h
      exact ⟨hroot', hn, by omega, hdepth⟩

/-- The trie of a CODE table meets its invariant: 1 + 256 · 64 = 16385 nodes at most (R48). -/
theorem buildTrie_trieOk {code : Table CodeEntry} {t : TrieNode} {n : Nat} (hcode : CodeOk code)
    (h : buildTrie code = .ok (t, n)) : TrieOk t (BitVec.ofNat 64 n) := by
  obtain ⟨hroot, rfl, hle, hdepth⟩ := insertAll_spec hcode (t := emptyTrie) ⟨_, _, rfl⟩ h
  have hempty : trieCount emptyTrie = 1 := rfl
  have hflat : trieDepth emptyTrie = 1 := rfl
  rw [symbols_length, hempty] at hle
  rw [hflat] at hdepth
  refine ⟨hroot, ?_, by omega, by omega⟩
  rw [BitVec.toNat_ofNat]
  exact Nat.mod_eq_of_lt (by omega)

/-- Settles O56: TRIE is written by DT_BUILD alone, from a CODE that meets its own invariant. -/
theorem stepKeepsTrieOk : Obligations.StepKeepsTrieOk := by
  intro s t hs h
  refine step_keeps (P := fun s => CodeOk s.code ∧ TrieOk s.trie s.trieNodes)
    (host := fun _ _ _ _ hs => hs)
    (reset := fun s _ => ⟨codeOk_reset s, trieOk_reset⟩)
    (fault := fun _ _ _ _ hs => hs)
    (command := fun i s hi hs t h => ⟨codeOk_of_command hi hs.1 h, ?_⟩) hs h
  rcases trie_of_command s hi t h with ⟨htrie, hnodes⟩ | ⟨n, hb, hnodes⟩
  · rw [htrie, hnodes]
    exact hs.2
  · rw [hnodes]
    exact buildTrie_trieOk hs.1 hb

end Sys2Proof.Machine
end

section
/-! PROOFS. The fault latch (10_state.md R29, 60_exceptions.md R300, R304, R309). -/

namespace Sys2Proof.Machine

/-- Everything a step can do to the latch: keep it, clear it by hardware reset, or write it by a CMD
write, which is the RESET word where a fault is latched. -/
theorem step_latch_cases {s t : State} (h : step s = .next t) :
    t.latch = s.latch ∨
    (t.latch.fault = false ∧ ∃ rest, s.pending = .hardReset :: rest) ∨
    ∃ x rest, s.pending = .write 0x00 64 x :: rest ∧ (s.latch.fault = true → x = resetWord) := by
  rcases step_cases h with ⟨-, rfl⟩ | ⟨a, rest, hp, hread | hpk | hdec | hreset | harg | hcmd⟩
  · exact .inl rfl
  · obtain ⟨o, r, -, -, rfl⟩ := hread
    exact .inl rfl
  · exact .inl (hpk.2 ▸ rfl)
  · exact .inl (hdec.2 ▸ rfl)
  · exact .inr (.inl ⟨hreset.2 ▸ rfl, rest, hreset.1 ▸ hp⟩)
  · obtain ⟨v, -, rfl⟩ := harg
    exact .inl rfl
  · obtain ⟨x, rfl, hw⟩ := hcmd
    rcases writeCmd_cases hw with ⟨-, -, rfl⟩ | ⟨-, hx, -⟩ | ⟨hf, -⟩ | ⟨hf, -⟩
    · exact .inl rfl
    · exact .inr (.inr ⟨x, rest, hp, fun _ => hx⟩)
    · exact .inr (.inr ⟨x, rest, hp, fun ht => absurd (hf.symm.trans ht) Bool.false_ne_true⟩)
    · exact .inr (.inr ⟨x, rest, hp, fun ht => absurd (hf.symm.trans ht) Bool.false_ne_true⟩)

/-- Settles O9, from everything a step can do to the latch. -/
theorem faultIsSticky : Obligations.FaultIsSticky := by
  intro s t h
  rcases step_latch_cases h with hkeep | ⟨hclear, rest, hp⟩ | ⟨x, rest, hp, hx⟩
  · exact ⟨fun _ hne => absurd hkeep hne,
      fun hs ht => absurd (hs.symm.trans (hkeep ▸ ht)) Bool.false_ne_true⟩
  · exact ⟨fun _ _ => ⟨rest, .inl hp⟩,
      fun _ ht => absurd (hclear.symm.trans ht) Bool.false_ne_true⟩
  · exact ⟨fun hs _ => ⟨rest, .inr (hp.trans (by rw [hx hs]; rfl))⟩, fun _ _ => ⟨x, rest, hp⟩⟩

theorem latchOk_reset : LatchOk { fault := false, errKind := 0, errOp := 0 } := by
  simp [LatchOk]

/-- A fault entry of any kind but the host's own meets the latch's invariant (R300, R305). -/
theorem latchOk_raised {k : FaultKind} (hk : k ≠ .ioFailure) (opc : Byte) :
    LatchOk { fault := true, errKind := k.code, errOp := opc } := by
  cases k with
  | ioFailure => exact absurd rfl hk
  | _ => simp [LatchOk, FaultKind.code]

/-- Settles O49: a fault entry has a legal kind, and no rule of a command touches the latch. -/
theorem stepKeepsLatchOk : Obligations.StepKeepsLatchOk := by
  intro s t hs h
  exact step_keeps (P := fun s => LatchOk s.latch)
    (host := fun _ _ _ _ hs => hs)
    (reset := fun _ _ => latchOk_reset)
    (fault := fun _ _ opc hk _ => latchOk_raised hk opc)
    (command := fun _ s hi hs t h => latch_of_command s hi t h ▸ hs) hs h

end Sys2Proof.Machine
end

section
/-! PROOFS. TOTAL as the sum of FREQ (10_state.md R37). -/

namespace Sys2Proof.Machine

/-- Setting one element of a list moves the sum of its measures by the difference. -/
theorem sum_map_set {α : Type} (f : α → Nat) (l : List α) (i : Nat) (h : i < l.length) (v : α) :
    ((l.set i v).map f).sum + f l[i] = (l.map f).sum + f v := by
  induction l generalizing i with
  | nil => cases h
  | cons a l ih =>
    cases i with
    | zero =>
      simp only [List.set_cons_zero, List.map_cons, List.sum_cons, List.getElem_cons_zero]
      omega
    | succ i =>
      have := ih i (Nat.lt_of_succ_lt_succ h)
      simp only [List.set_cons_succ, List.map_cons, List.sum_cons, List.getElem_cons_succ]
      omega

theorem sum_tset {α : Type} (f : α → Nat) (t : Table α) (a : Byte) (v : α) :
    ((tset t a v).cells.map f).sum + f (tget t a) = (t.cells.map f).sum + f v :=
  sum_map_set f t.cells a.toNat (t.size.symm ▸ a.isLt) v

theorem freqOk_cleared : FreqOk freqCleared := by
  show 0 = ((List.replicate 256 (0 : Word)).map BitVec.toNat).sum
  rw [List.map_replicate, List.sum_replicate]
  rfl

/-- Counting a byte adds 1 to one entry and to TOTAL; the entry, at most TOTAL, does not wrap
(R131). -/
theorem countByte_freqOk {b : Byte} {f g : FreqCounter} (hf : FreqOk f)
    (h : countByte b f = .ok g) : FreqOk g := by
  rcases countByte_cases b f with ⟨-, he⟩ | ⟨hne, he⟩
  · rw [h] at he
    cases he
  · obtain rfl := Except.ok.inj (h.symm.trans he)
    have hle : (tget f.freq b).toNat ≤ f.total.toNat :=
      hf ▸ List.le_sum_of_mem (List.mem_map_of_mem (tget_mem f.freq b))
    have hnomax : tget f.freq b ≠ maxCount := by
      rw [ne_maxCount_iff] at hne ⊢
      omega
    have hentry : (tget f.freq b + 1).toNat = (tget f.freq b).toNat + 1 :=
      toNat_succ_of_ne_max hnomax
    have hsum := sum_tset BitVec.toNat f.freq b (tget f.freq b + 1)
    simp only [FreqOk] at hf ⊢
    rw [toNat_succ_of_ne_max hne]
    omega

/-- Settles O50: FREQ and TOTAL are written by FC_CLEAR and by counting a byte. -/
theorem stepKeepsTotalOfFrequencies : Obligations.StepKeepsTotalOfFrequencies := by
  intro s t hs h
  refine step_keeps (P := fun s => FreqOk s.fc)
    (host := fun _ _ _ _ hs => hs)
    (reset := fun _ _ => freqOk_cleared)
    (fault := fun _ _ _ _ hs => hs)
    (command := fun i s hi hs t h => ?_) hs h
  rcases fc_of_command s hi t h with he | he | ⟨b, hb⟩
  · exact he ▸ hs
  · exact he ▸ freqOk_cleared
  · exact countByte_freqOk hs hb

end Sys2Proof.Machine
end

section
/-! PROOFS. The leaves of TREE (10_state.md R38, 42_tree_builder.md R141): every turn of the loop
only rearranges them. -/

namespace Sys2Proof.Machine

theorem extractMin_perm (a : HuffmanNode) (rest : List HuffmanNode) :
    ((extractMin a rest).1 :: (extractMin a rest).2).Perm (a :: rest) := by
  induction rest generalizing a with
  | nil => exact .refl _
  | cons b rest ih =>
    simp only [extractMin]
    split
    · exact (List.Perm.swap a _ _).trans ((ih b).cons a)
    · exact .refl _

/-- The symbols at the leaves of the live nodes. -/
def liveSyms (live : List HuffmanNode) : List Byte := live.flatMap leafSyms

theorem mergeStep_liveSyms (live : List HuffmanNode) :
    (liveSyms (mergeStep live)).Perm (liveSyms live) := by
  rcases live with _ | ⟨a, _ | ⟨b, rest⟩⟩
  · exact .refl _
  · exact .refl _
  · obtain ⟨x, c, others, y, others', h1, h2, h3⟩ := mergeStep_cons a b rest
    have p1 := extractMin_perm a (b :: rest)
    have p2 := extractMin_perm c others
    rw [h1] at p1
    rw [h2] at p2
    have hmerged : liveSyms (mergeNodes x y :: others') = liveSyms (x :: y :: others') := by
      simp [liveSyms, leafSyms_mergeNodes]
    rw [h3, hmerged]
    exact ((p2.cons x).trans p1).flatMap_right leafSyms

theorem mergeTurns_liveSyms (n : Nat) (live : List HuffmanNode) :
    (liveSyms (mergeTurns n live)).Perm (liveSyms live) := by
  induction n generalizing live with
  | zero => exact .refl _
  | succ n ih => exact (ih (mergeStep live)).trans (mergeStep_liveSyms live)

theorem presentLeaves_liveSyms (freq : Table Word) :
    liveSyms (presentLeaves freq) = presentSyms freq := by
  rw [presentLeaves_eq, liveSyms, List.flatMap_map]
  exact List.flatMap_singleton' _

/-- TB_BUILD's tree has its leaves among those of the present symbols, which are distinct. -/
theorem buildTree_treeOk (freq : Table Word) : TreeOk (buildTree freq) := by
  intro n hn
  have hmem : n ∈ mergeTurns ((presentLeaves freq).length - 1) (presentLeaves freq) :=
    List.mem_of_mem_head? hn
  have hperm := mergeTurns_liveSyms ((presentLeaves freq).length - 1) (presentLeaves freq)
  rw [presentLeaves_liveSyms] at hperm
  have hnodup := hperm.nodup_iff.mpr (presentSyms_nodup freq)
  exact (List.nodup_flatMap.mp hnodup).1 n hmem

/-- Settles O51: TREE is written by TB_BUILD alone. -/
theorem stepKeepsLeavesDistinct : Obligations.StepKeepsLeavesDistinct := by
  intro s t hs h
  refine step_keeps (P := fun s => TreeOk s.tree)
    (host := fun _ _ _ _ hs => hs)
    (reset := fun _ _ n hn => nomatch hn)
    (fault := fun _ _ _ _ hs => hs)
    (command := fun i s hi hs t h => ?_) hs h
  rcases tree_of_command s hi t h with he | he
  · exact he ▸ hs
  · exact he ▸ buildTree_treeOk s.fc.freq

end Sys2Proof.Machine
end

section
/-! PROOFS. The unpacker's and the decoder's invariants (10_state.md R44, R46, R47). -/

namespace Sys2Proof.Machine

/-- `u'` is `u` with some of its remaining valid bits consumed, and nothing else done. -/
def Consumes (u u' : Unpacker) : Prop := ∃ n ≤ u.valid - u.pos, u' = moved u n

theorem Consumes.refl (u : Unpacker) : Consumes u u := ⟨0, Nat.zero_le _, rfl⟩

theorem moved_valid (u : Unpacker) (n : Nat) : (moved u n).valid = u.valid := rfl

theorem Consumes.trans {u u' u'' : Unpacker} (h : Consumes u u') (h' : Consumes u' u'') :
    Consumes u u'' := by
  obtain ⟨m, hm, rfl⟩ := h
  obtain ⟨n, hn, rfl⟩ := h'
  have hpos : (moved u m).pos = u.pos + m := rfl
  rw [moved_valid, hpos] at hn
  exact ⟨m + n, by omega, moved_moved u m n⟩

theorem Consumes.unpackerOk {cfg : Config} {u u' : Unpacker} (h : Consumes u u')
    (hu : UnpackerOk cfg u) : UnpackerOk cfg u' := by
  obtain ⟨n, hn, rfl⟩ := h
  obtain ⟨hlen, hpos⟩ := hu
  refine ⟨hlen, ?_⟩
  show u.pos + n ≤ u.valid
  omega

theorem readBit_consumes {b : Bool} {u u' : Unpacker} (h : readBit u = some (b, u')) :
    Consumes u u' := by
  unfold readBit at h
  split at h
  · cases h
  · next hlt =>
    cases h
    exact ⟨1, by omega, rfl⟩

theorem accumulateBits_consumes {n : Nat} {v w : Word} {u u' : Unpacker}
    (h : accumulateBits n v u = some (w, u')) : Consumes u u' := by
  induction n generalizing v u with
  | zero =>
    cases h
    exact .refl _
  | succ n ih =>
    rw [accumulateBits] at h
    split at h
    · cases h
    · next hb => exact (readBit_consumes hb).trans (ih h)

theorem readBits_consumes {n : Nat} {w : Word} {u u' : Unpacker}
    (h : readBits n u = some (w, u')) : Consumes u u' := by
  unfold readBits at h
  split at h
  · cases h
  · exact accumulateBits_consumes h

theorem walk_consumes {n : TrieNode} {b : Byte} {u u' : Unpacker} (h : walk n u = .ok (b, u')) :
    Consumes u u' := by
  induction n generalizing u with
  | empty => cases h
  | leaf a =>
    cases h
    exact .refl _
  | inner l r ihl ihr =>
    rw [walk] at h
    split at h
    · cases h
    · next hb => exact (readBit_consumes hb).trans (ihl h)
    · next hb => exact (readBit_consumes hb).trans (ihr h)

/-- Everything decoding one symbol can do to the unpacker and the output (R223, R224). -/
theorem decodeSymbol_ok {t : TrieNode} {b : Byte} {u u' : Unpacker} {d d' : DecodeOut}
    (h : decodeSymbol t u d = .ok (b, u', d')) : walk t u = .ok (b, u') ∧ emitDec b d = .ok d' := by
  unfold decodeSymbol at h
  split at h
  · cases h
  · next hw =>
    obtain ⟨e, he, heq⟩ := map_eq_ok.mp h
    cases heq
    exact ⟨hw, he⟩

theorem emitDec_decodeOk {b : Byte} {d d' : DecodeOut} (hd : DecodeOk d)
    (h : emitDec b d = .ok d') : DecodeOk d' := by
  rcases emitDec_cases b d with ⟨-, he⟩ | ⟨hne, he⟩
  · rw [h] at he
    cases he
  · obtain rfl := Except.ok.inj (h.symm.trans he)
    simp only [DecodeOk, toNat_succ_of_ne_max hne, List.length_append, List.length_singleton]
    rw [hd]

theorem decodeSymbols_keeps {t : TrieNode} {n : Nat} {u u' : Unpacker} {d d' : DecodeOut}
    (h : decodeSymbols t n u d = .ok (u', d')) :
    Consumes u u' ∧ (DecodeOk d → DecodeOk d') := by
  induction n generalizing u d with
  | zero =>
    cases h
    exact ⟨.refl _, id⟩
  | succ n ih =>
    rw [decodeSymbols] at h
    split at h
    · cases h
    · next hs =>
      obtain ⟨hw, he⟩ := decodeSymbol_ok hs
      obtain ⟨hu, hd⟩ := ih h
      exact ⟨(walk_consumes hw).trans hu, fun hok => hd (emitDec_decodeOk hok he)⟩

/-- A delivered read leaves the unpacker as it is or consumes what it read. -/
theorem deliver_consumes {s : State} {r : Option (Word × Unpacker)}
    (h : ∀ v u, r = some (v, u) → Consumes s.up u) : Consumes s.up (deliver s r).up := by
  cases r with
  | none => exact .refl s.up
  | some r => exact h r.1 r.2 rfl

/-- IN_CLEAR, IN_PUSH and UP_OPEN write the unpacker, and UP_RBIT, UP_RBITS, DEC_SYM and DEC_RUN
consume bits. -/
theorem up_of_command {i : Instr} (s : State) (hi : i ≠ .reset) : ∀ t, commandResult i s = .ok t →
    Consumes s.up t.up ∨ (t.up.pos = 0 ∧ (t.up.buf = [] ∨ t.up.buf = s.up.buf)) ∨
      ∃ b, pushByte s.cfg b s.up = .ok t.up := by
  cases i with
  | reset => exact absurd rfl hi
  | inPush b => exact forall_map_ok.mpr fun _ hu => .inr (.inr ⟨b, hu⟩)
  | upRbit =>
    rintro _ ⟨⟩
    refine .inl (deliver_consumes fun v u hu => ?_)
    obtain ⟨r, hr, heq⟩ := Option.map_eq_some_iff.mp hu
    cases heq
    exact readBit_consumes hr
  | upRbits b =>
    exact forall_map_ok.mpr fun _ _ => .inl (deliver_consumes fun _ _ => readBits_consumes)
  | decSym =>
    exact forall_map_ok.mpr fun _ hr => .inl (walk_consumes (decodeSymbol_ok hr).1)
  | decRun => exact forall_map_ok.mpr fun _ hr => .inl (decodeSymbols_keeps hr).1
  | _ => simp [commandResult, forall_map_ok, Consumes.refl]

theorem unpackerOk_of_pos_zero {cfg : Config} {u : Unpacker} (hlen : u.inLen ≤ cfg.inCap)
    (hpos : u.pos = 0) : UnpackerOk cfg u := ⟨hlen, hpos ▸ Nat.zero_le _⟩

/-- Pushing a byte only adds valid bits (R46). -/
theorem valid_le_push (u : Unpacker) (b : Byte) :
    u.valid ≤ ({ u with buf := u.buf ++ [b] } : Unpacker).valid := by
  unfold Unpacker.valid Unpacker.inLen
  split
  · exact Nat.zero_le _
  · simp only [List.length_append, List.length_singleton, Nat.add_eq_zero_iff, one_ne_zero,
      and_false, if_false]
    omega

/-- A pushed byte fits below IN_CAP, and UP_POS stays within UP_VALID (R201). -/
theorem pushByte_unpackerOk {cfg : Config} {b : Byte} {u u' : Unpacker} (hu : UnpackerOk cfg u)
    (h : pushByte cfg b u = .ok u') : UnpackerOk cfg u' := by
  rcases pushByte_cases cfg b u with ⟨-, he⟩ | ⟨hne, he⟩
  · rw [h] at he
    cases he
  · obtain rfl := Except.ok.inj (h.symm.trans he)
    obtain ⟨hlen, hpos⟩ := hu
    refine ⟨?_, hpos.trans (valid_le_push u b)⟩
    simp only [Unpacker.inLen, List.length_append, List.length_singleton] at hlen ⊢
    omega

/-- Settles O54: a command consumes valid bits, reopens the buffer at its first bit, or pushes a
byte. -/
theorem stepKeepsUnpackerOk : Obligations.StepKeepsUnpackerOk := by
  intro s t ⟨_, hs⟩ h
  refine step_keeps (P := fun t => t.cfg = s.cfg ∧ UnpackerOk t.cfg t.up)
    (host := fun _ _ _ _ hs => hs)
    (reset := fun s hs => ⟨hs.1, unpackerOk_of_pos_zero (Nat.zero_le _) rfl⟩)
    (fault := fun _ _ _ _ hs => hs)
    (command := fun i u hi hu t h => ?_) ⟨rfl, hs⟩ h
  obtain ⟨hcfg, hok⟩ := hu
  have hsame := cfg_of_command u hi t h
  refine ⟨hsame.trans hcfg, ?_⟩
  rw [hsame]
  rcases up_of_command u hi t h with hc | ⟨hpos, hbuf | hbuf⟩ | ⟨b, hb⟩
  · exact hc.unpackerOk hok
  · exact unpackerOk_of_pos_zero (by rw [Unpacker.inLen, hbuf]; exact Nat.zero_le _) hpos
  · exact unpackerOk_of_pos_zero (by rw [Unpacker.inLen, hbuf]; exact hok.1) hpos
  · exact pushByte_unpackerOk hok hb

/-- Settles O55: DEC_OUT and DEC_COUNT are emptied together and grow together. -/
theorem stepKeepsDecodeCount : Obligations.StepKeepsDecodeCount := by
  intro s t hs h
  refine step_keeps (P := fun s => DecodeOk s.dec)
    (host := fun _ _ _ _ hs => hs)
    (reset := fun _ _ => rfl)
    (fault := fun _ _ _ _ hs => hs)
    (command := fun i s hi hs t h => ?_) hs h
  rcases dec_of_command s hi t h with he | ⟨b, u, hd⟩ | ⟨n, u, hd⟩
  · exact he ▸ hs
  · exact emitDec_decodeOk hs (decodeSymbol_ok hd).2
  · exact (decodeSymbols_keeps hd).2 rfl

end Sys2Proof.Machine
end

section
/-! PROOFS. What the registers and the streams read, and the fields of STATUS, PK_CTL and UP_CTL
(10_state.md R26 to R35, R45, R46, 20_memory.md R61, R66). -/

namespace Sys2Proof.Machine

/-- The host's next access is the step (R72). -/
theorem step_cons {s : State} {a : Access} {rest : List Access} (hp : s.pending = a :: rest) :
    step s = hostAccess a { s with pending := rest } := by
  unfold step nextAccess
  rw [hp]

/-- With no access to come the state stays (R316). -/
theorem step_idle {s : State} (hp : s.pending = []) : step s = .next s := by
  unfold step nextAccess
  rw [hp]

/-- A 64-bit read of a mapped register answers its content and changes no element (R66). -/
theorem step_read {s : State} {rest : List Access} {o : Nat} {r : Reg} (hr : regAt o = some r)
    (hp : s.pending = .read o 64 :: rest) :
    step s = .next { s with pending := rest, answer := .value (s.readReg r) } := by
  have hread : ({ s with pending := rest } : State).readReg r = s.readReg r := by cases r <;> rfl
  simp only [step_cons hp, hostAccess, checkAccess_ok.mpr ⟨rfl, hr⟩, hread]

/-- Settles O10: each offset of the map names the register of its content, and a read answers
that. -/
theorem registerReadsFollowTheMap : Obligations.RegisterReadsFollowTheMap := by
  refine ⟨fun s rest o v hmem hp => ?_, fun _ _ _ hp => step_cons hp, fun _ _ hp => step_cons hp,
    fun _ _ hp => step_cons hp, fun _ hp => step_idle hp⟩
  simp only [List.mem_cons, Prod.mk.injEq, List.not_mem_nil, or_false] at hmem
  rcases hmem with ⟨rfl, rfl⟩ | ⟨rfl, rfl⟩ | ⟨rfl, rfl⟩ | ⟨rfl, rfl⟩ | ⟨rfl, rfl⟩ | ⟨rfl, rfl⟩ |
    ⟨rfl, rfl⟩ | ⟨rfl, rfl⟩ | ⟨rfl, rfl⟩ | ⟨rfl, rfl⟩ | ⟨rfl, rfl⟩ | ⟨rfl, rfl⟩ | ⟨rfl, rfl⟩ |
    ⟨rfl, rfl⟩ | ⟨rfl, rfl⟩ | ⟨rfl, rfl⟩
  exacts [step_read (r := .cmd) rfl hp, step_read (r := .arg) rfl hp,
    step_read (r := .res) rfl hp, step_read (r := .resx) rfl hp,
    step_read (r := .status) rfl hp, step_read (r := .id) rfl hp,
    step_read (r := .total) rfl hp, step_read (r := .pkCtl) rfl hp,
    step_read (r := .pkByteCount) rfl hp, step_read (r := .inLen) rfl hp,
    step_read (r := .upPos) rfl hp, step_read (r := .upCtl) rfl hp,
    step_read (r := .upValid) rfl hp, step_read (r := .enCount) rfl hp,
    step_read (r := .trieNodes) rfl hp, step_read (r := .decCount) rfl hp]

/-- A field read where it was placed (R8). -/
theorem extractLsb'_fieldAt {w k : Nat} (v : BitVec w) (h : k + w ≤ 64) :
    (fieldAt v k).extractLsb' k w = v := by
  refine BitVec.eq_of_getLsbD_eq fun i hi => ?_
  simp only [BitVec.getLsbD_extractLsb', fieldAt_getLsbD, Nat.add_sub_cancel_left, hi,
    decide_true, Bool.true_and]
  simp [show k + i < 64 by omega]

/-- Bits outside a field read 0 (R8). -/
theorem extractLsb'_fieldAt_of_disjoint {w k j n : Nat} (v : BitVec w)
    (h : j + n ≤ k ∨ k + w ≤ j) : (fieldAt v k).extractLsb' j n = 0 := by
  refine BitVec.eq_of_getLsbD_eq fun i hi => ?_
  simp only [BitVec.getLsbD_extractLsb', fieldAt_getLsbD]
  rcases h with h | h
  · simp [show ¬ k ≤ j + i by omega]
  · simp [BitVec.getLsbD_of_ge v (j + i - k) (by omega)]

/-- Settles O11: STATUS is the union of six fields that do not overlap. -/
theorem statusFieldsInPlace : Obligations.StatusFieldsInPlace := by
  intro s
  have hvalid : s.status.getLsbD 17 = s.rootValid := by
    simp only [State.status, BitVec.getLsbD_or, fieldAt_getLsbD]
    simp
  refine ⟨?fault, ?reserved, ?errKind, ?errOp, ?endFlag, ?rootValid, ?pkFin, ?high⟩
  case rootValid => rw [hvalid, State.rootValid, Option.isSome_iff_ne_none]
  case endFlag | pkFin =>
    simp only [State.status, BitVec.getLsbD_or, fieldAt_getLsbD]
    simp
  all_goals
    simp [State.status, BitVec.extractLsb'_or, extractLsb'_fieldAt, extractLsb'_fieldAt_of_disjoint]

/-- Settles O12: a mirror reads its count wherever that fits. -/
theorem mirrorFieldsInPlace : Obligations.MirrorFieldsInPlace := by
  intro s
  refine ⟨?_, ?_, ?_, ?_, ?_, ?_, ?_, ?pos, ?empty, ?valid⟩
  case pos =>
    intro h
    rw [Unpacker.posMirror, if_pos h, BitVec.toNat_ofNat, Nat.mod_eq_of_lt h]
  case empty =>
    intro h
    have hv : s.up.valid = 0 := by rw [Unpacker.valid, Unpacker.inLen, h]; rfl
    rw [Unpacker.validMirror, hv]
    rfl
  case valid =>
    intro hne hlt
    have hpos : s.up.buf.length ≠ 0 := fun h0 => hne (List.length_eq_zero_iff.mp h0)
    have hv : s.up.valid = 8 * s.up.buf.length - s.up.pad.toNat := if_neg hpos
    have hfits : s.up.valid < 2 ^ 64 := by omega
    rw [Unpacker.validMirror, if_pos hfits, BitVec.toNat_ofNat, Nat.mod_eq_of_lt hfits, hv]
  all_goals
    simp [Packer.ctl, Unpacker.ctl, BitVec.extractLsb'_or, extractLsb'_fieldAt,
      extractLsb'_fieldAt_of_disjoint]

end Sys2Proof.Machine
end

section
/-! PROOFS. The reset values and the invariants at reset (10_state.md R49,
70_reset_and_hazards.md R330). -/

namespace Sys2Proof.Machine

theorem status_reset : State.reset.status = 0 := by decide

/-- The reset values do not depend on the model's own fields. -/
theorem atResetValues_of_host (cfg : Config) (pending : List Access) (answer : Answer) :
    AtResetValues { State.reset with cfg := cfg, pending := pending, answer := answer } where
  arg := rfl
  res := rfl
  resx := rfl
  status := status_reset
  latch := rfl
  endFlag := rfl
  freq := tget_fill 0
  total := rfl
  tree := rfl
  len := tget_fill 0
  code := tget_fill _
  entries := rfl
  packer := rfl
  unpacker := rfl
  decoded := rfl
  trie := rfl
  trieNodes := rfl
  id := rfl

/-- Settles O15: hardware reset and the RESET command make the same state, every element at
reset. -/
theorem resetStateValues : Obligations.ResetStateValues := by
  refine ⟨atResetValues_of_host _ _ _, fun s rest hp => ?_⟩
  exact ⟨_, step_cons hp, rfl, atResetValues_of_host s.cfg rest .complete, rfl, rfl, rfl⟩

/-- Settles O57, by each invariant's own lemma about the reset block. -/
theorem resetMeetsInvariants : Obligations.ResetMeetsInvariants where
  cfg := ⟨Nat.one_le_two_pow, Nat.le_refl _⟩
  latch := latchOk_reset
  freq := freqOk_cleared
  tree := fun _ hn => nomatch hn
  code := codeOk_reset State.reset
  entries := Nat.zero_le 256
  packer := packerOk_init
  unpacker := unpackerOk_of_pos_zero (Nat.zero_le _) rfl
  decoded := rfl
  trie := trieOk_reset

end Sys2Proof.Machine
end

section
/-! PROOFS. The register window: which accesses are refused, and how a register lies in it
(20_memory.md R63 to R65). -/

namespace Sys2Proof.Machine

/-- An access passes its checks exactly when it makes none of the three violations that R65 names
for reads and writes alike. -/
theorem exists_checkAccess_ok {o w : Nat} :
    (∃ r, checkAccess o w = .ok r) ↔ w = 64 ∧ o % 8 = 0 ∧ o < 0x80 := by
  simp only [checkAccess_ok, exists_and_left, ← Option.isSome_iff_exists, regAt_isSome]

theorem regAt_eq_cmd {o : Nat} : regAt o = some .cmd ↔ o = 0x00 := by
  refine ⟨fun h => ?_, fun h => h ▸ rfl⟩
  unfold regAt at h
  split at h <;> simp_all

theorem regAt_eq_arg {o : Nat} : regAt o = some .arg ↔ o = 0x08 := by
  refine ⟨fun h => ?_, fun h => h ▸ rfl⟩
  unfold regAt at h
  split at h <;> simp_all

/-- No CMD write is refused: it is dropped, faults, or runs its command (R120). -/
theorem writeCmd_answers_next (x : Word) (s : State) : ∃ t, writeCmd x s = .next t := by
  unfold writeCmd
  split
  · split
    · exact exec_answers_next .reset s
    · exact ⟨s, rfl⟩
  · split
    · exact ⟨_, rfl⟩
    · exact exec_answers_next _ s

theorem writeReg_refused_iff (r : Reg) (v : Word) (s : State) :
    (∃ e, writeReg r v s = .refused e) ↔ ¬ (r = .cmd ∨ r = .arg) := by
  cases r with
  | cmd =>
    obtain ⟨t, ht⟩ := writeCmd_answers_next v s
    simp [writeReg, ht]
  | _ => simp [writeReg]

theorem read_refused_iff (o w : Nat) (s : State) :
    (∃ e, hostAccess (.read o w) s = .refused e) ↔ ¬ ∃ r, checkAccess o w = .ok r := by
  cases hc : checkAccess o w <;> simp [hostAccess, hc]

theorem write_refused_iff (o w : Nat) (v : Word) (s : State) :
    (∃ e, hostAccess (.write o w v) s = .refused e) ↔
      ¬ ∃ r, checkAccess o w = .ok r ∧ (r = .cmd ∨ r = .arg) := by
  cases hc : checkAccess o w with
  | error e => simp [hostAccess, hc]
  | ok r => simp only [hostAccess, hc, writeReg_refused_iff, Except.ok.injEq, exists_eq_left']

/-- Settles O13: a read is refused exactly where the checks of R65 fail, and a write also where the
register is not CMD or ARG, which lie at 0x00 and 0x08. -/
theorem protocolViolationsRefused : Obligations.ProtocolViolationsRefused := by
  refine fun s rest o w v => ⟨fun hp => ?read, fun hp => ?write⟩
  case read =>
    rw [step_cons hp, read_refused_iff, exists_checkAccess_ok]
    omega
  case write =>
    have hwritable : (∃ r, checkAccess o w = .ok r ∧ (r = .cmd ∨ r = .arg)) ↔
        w = 64 ∧ (o = 0x00 ∨ o = 0x08) := by
      simp [checkAccess_ok, and_or_left, exists_or, regAt_eq_cmd, regAt_eq_arg]
    rw [step_cons hp, write_refused_iff, hwritable]
    omega

/-- The byte at address `o + k` of the register at offset `o` (R64). -/
theorem windowByte_of_regAt {o k : Nat} {r : Reg} (s : State) (hr : regAt o = some r)
    (hk : k < 8) : s.windowByte (o + k) = some ((s.readReg r).extractLsb' (8 * k) 8) := by
  obtain ⟨h8, -⟩ := (regAt_isSome o).mp (hr ▸ rfl)
  have hmod : (o + k) % 8 = k := by omega
  rw [State.windowByte, hmod, Nat.add_sub_cancel, hr]
  rfl

/-- The low `n` bytes of a value, each at its weight, add up to the value mod 256^n. -/
theorem sum_bytes_eq_mod {w : Nat} (x : BitVec w) (n : Nat) :
    ((List.range n).map fun k => (x.extractLsb' (8 * k) 8).toNat * 256 ^ k).sum =
      x.toNat % 256 ^ n := by
  induction n with
  | zero => simp [Nat.mod_one]
  | succ n ih =>
    have hbyte : (x.extractLsb' (8 * n) 8).toNat = x.toNat / 256 ^ n % 256 := by
      rw [BitVec.extractLsb'_toNat, Nat.shiftRight_eq_div_pow, Nat.pow_mul]
    rw [List.range_succ, List.map_append, List.sum_append, ih, List.map_singleton,
      List.sum_singleton, hbyte, Nat.mod_pow_succ, Nat.mul_comm]

/-- Settles O14: the bytes of the window are the register's, and eight of them make its 64 bits. -/
theorem windowIsLittleEndian : Obligations.WindowIsLittleEndian := by
  refine fun s o r hr => ⟨fun k hk => windowByte_of_regAt s hr hk, ?sum⟩
  case sum =>
    have hbytes : ((List.range 8).map fun k =>
          ((s.windowByte (o + k)).getD 0).toNat * 256 ^ k) =
        (List.range 8).map fun k => ((s.readReg r).extractLsb' (8 * k) 8).toNat * 256 ^ k :=
      List.map_congr_left fun k hk => by
        rw [windowByte_of_regAt s hr (List.mem_range.mp hk), Option.getD_some]
    rw [hbytes, sum_bytes_eq_mod]
    exact Nat.mod_eq_of_lt (s.readReg r).isLt

end Sys2Proof.Machine
end

section
/-! PROOFS. What each command leaves unchanged (20_memory.md R77, 10_state.md R22 to R24, R32). -/

namespace Sys2Proof.Machine

/-- Consuming bits leaves the payload as it is. -/
theorem Consumes.buf {u u' : Unpacker} (h : Consumes u u') : u'.buf = u.buf := by
  obtain ⟨n, -, rfl⟩ := h
  rfl

theorem pushByte_keeps_pad_pos {cfg : Config} {b : Byte} {u u' : Unpacker}
    (h : pushByte cfg b u = .ok u') : u'.pad = u.pad ∧ u'.pos = u.pos := by
  rcases pushByte_cases cfg b u with ⟨-, he⟩ | ⟨-, he⟩
  · cases h.symm.trans he
  · obtain rfl := Except.ok.inj (h.symm.trans he)
    exact ⟨rfl, rfl⟩

theorem deliver_readBits_buf (s : State) (n : Nat) :
    (deliver s (readBits n s.up)).up.buf = s.up.buf :=
  (deliver_consumes fun _ _ => readBits_consumes).buf

theorem deliver_readBit_buf (s : State) (f : Bool × Unpacker → Word) :
    (deliver s ((readBit s.up).map fun r => (f r, r.2))).up.buf = s.up.buf := by
  cases hb : readBit s.up with
  | none => rfl
  | some r => exact (readBit_consumes hb).buf

/-- Settles O58: a fault entry leaves every element but the latch, and a command's rule names the
elements it writes. The payload stays where bits are only consumed. -/
theorem onlyListedCommandsWrite : Obligations.OnlyListedCommandsWrite := by
  intro i s t h
  rcases exec_cases h with hok | ⟨k, -, rfl⟩
  · clear h
    revert t
    cases i with
    | inPush b =>
      refine forall_map_ok.mpr fun u hu => ?_
      simp [pushByte_keeps_pad_pos hu, Instr.opcode]
    | upRbit => simp [commandResult, deliver_readBit_buf, Instr.opcode]
    | upRbits b => simp [commandResult, forall_map_ok, deliver_readBits_buf, Instr.opcode]
    | decSym =>
      refine forall_map_ok.mpr fun r hr => ?_
      have hbuf : r.2.1.buf = s.up.buf := (walk_consumes (decodeSymbol_ok hr).1).buf
      simp [hbuf, Instr.opcode]
    | decRun =>
      refine forall_map_ok.mpr fun r hr => ?_
      have hbuf : r.1.buf = s.up.buf := (decodeSymbols_keeps hr).1.buf
      simp [hbuf, Instr.opcode]
    | _ => simp [commandResult, forall_map_ok, Instr.opcode]
  · simp

end Sys2Proof.Machine
end

section
/-! PROOFS. The command word: decode and encode are inverse, and which words are illegal
(30_encoding.md R90 to R100). -/

namespace Sys2Proof

/-- Each command's opcode finds its own row, and a field the row's format leaves unused is 0 in the
command (R92, R94). -/
theorem opcodeRow_opcode (i : Instr) :
    ∃ row, opcodeRow i.opcode = some row ∧ (row.format.leavesA = true → i.fieldA = 0) ∧
      (row.format.leavesB = true → i.fieldB = 0) ∧ row.make i.fieldA i.fieldB = i := by
  cases i <;> exact ⟨_, rfl, by simp [Format.leavesA, Instr.fieldA],
    by simp [Format.leavesB, Instr.fieldB], rfl⟩

/-- The command a row makes has the row's opcode and the operands it was made of, where those the
format leaves unused are 0 (R92, R94). -/
theorem make_fields {row : OpcodeRow} (h : row ∈ opcodeTable) {a b : Byte}
    (ha : row.format.leavesA = true → a = 0) (hb : row.format.leavesB = true → b = 0) :
    (row.make a b).opcode = row.opc ∧ (row.make a b).fieldA = a ∧ (row.make a b).fieldB = b := by
  revert row
  simp +contextual [opcodeTable, Format.leavesA, Format.leavesB, Instr.opcode, Instr.fieldA,
    Instr.fieldB]

/-- Two CMD writes with the same fields are the same. -/
theorem word_ext {x y : Word} (hhigh : cmdHigh x = cmdHigh y) (hopc : cmdOpc x = cmdOpc y)
    (ha : cmdA x = cmdA y) (hb : cmdB x = cmdB y) (hz : cmdZ x = cmdZ y) : x = y := by
  rw [word_eq_fields x, word_eq_fields y, hhigh, hopc, ha, hb, hz]

/-- Settles O1: the encoded word's fields are the command's, and its opcode's row makes the command of
them. -/
theorem decodeOfEncode : Obligations.DecodeOfEncode := by
  intro i
  obtain ⟨row, hrow, hA, hB, hmake⟩ := opcodeRow_opcode i
  rw [decode_eq_ok, cmdOpc_cmdWord, cmdA_cmdWord, cmdB_cmdWord]
  exact ⟨cmdHigh_cmdWord i, row, hrow, cmdZ_cmdWord i, hA, hB, hmake⟩

/-- Settles O2: the tests of decode leave no field of the word free. -/
theorem encodeOfDecode : Obligations.EncodeOfDecode := by
  intro x i h
  obtain ⟨hhigh, row, hrow, hz, hA, hB, rfl⟩ := decode_eq_ok.mp h
  obtain ⟨hmem, hopc⟩ := opcodeRow_mem hrow
  obtain ⟨hopcode, hfieldA, hfieldB⟩ := make_fields hmem hA hB
  apply word_ext
  case hhigh => rw [cmdHigh_cmdWord, hhigh]
  case hopc => rw [cmdOpc_cmdWord, hopcode, hopc]
  case ha => rw [cmdA_cmdWord, hfieldA]
  case hb => rw [cmdB_cmdWord, hfieldB]
  case hz => rw [cmdZ_cmdWord, hz]

/-- Four bytes in a row, the last of them 0, are the first three shifted to their places. Both sides
are read bit by bit; the bounds 8, 16 and 24 say which byte a bit is in. -/
theorem append_bytes_eq_shifts (o a b : Byte) :
    (o ++ a ++ b ++ (0 : Byte) : BitVec (8 + 8 + 8 + 8)) =
      (o.setWidth 32 <<< 24) ||| (a.setWidth 32 <<< 16) ||| (b.setWidth 32 <<< 8) := by
  refine BitVec.eq_of_getLsbD_eq fun k hk => ?_
  simp only [BitVec.getLsbD_append, BitVec.getLsbD_or, BitVec.getLsbD_shiftLeft,
    BitVec.getLsbD_setWidth]
  grind

/-- Settles O3: the command word's bytes, shifted to their places (R91). -/
theorem encodingIsOpcodeAndOperands : Obligations.EncodingIsOpcodeAndOperands :=
  ⟨fun i => append_bytes_eq_shifts i.opcode i.fieldA i.fieldB, by decide⟩

/-- Settles O4: each word is decoded by evaluation. -/
theorem listedWordsDecode : Obligations.ListedWordsDecode := by
  unfold Obligations.ListedWordsDecode
  decide

/-- The word 0 is NOP's one encoding (R97). -/
theorem decode_eq_nop (x : Word) : decode x = .ok .nop ↔ x = 0 := by
  constructor
  · intro h
    exact (encodeOfDecode x .nop h).symm
  · rintro rfl
    exact decodeOfEncode .nop

/-- The opcodes R96 lists as unassigned. -/
def UnassignedOpcode (o : Nat) : Prop :=
  (0x02 ≤ o ∧ o ≤ 0x0F) ∨ (0x13 ≤ o ∧ o ≤ 0x1F) ∨ (0x21 ≤ o ∧ o ≤ 0x2F) ∨
  (0x32 ≤ o ∧ o ≤ 0x3F) ∨ (0x46 ≤ o ∧ o ≤ 0x4F) ∨ (0x55 ≤ o ∧ o ≤ 0x5F) ∨
  (0x65 ≤ o ∧ o ≤ 0x6F) ∨ 0x73 ≤ o

/-- The opcodes of the formats F0 and FB, which use no A field (R92, R94). -/
def opcodesWithoutA : List Nat :=
  [0x00, 0x01, 0x10, 0x20, 0x30, 0x40, 0x41, 0x44, 0x50, 0x54, 0x60, 0x63, 0x70, 0x71, 0x72,
    0x52, 0x64]

/-- The opcodes of the formats F0 and FA, which use no B field (R92, R94). -/
def opcodesWithoutB : List Nat :=
  [0x00, 0x01, 0x10, 0x20, 0x30, 0x40, 0x41, 0x44, 0x50, 0x54, 0x60, 0x63, 0x70, 0x71, 0x72,
    0x11, 0x12, 0x31, 0x43, 0x45, 0x51, 0x53, 0x61, 0x62]

/-- No row of the map has an opcode of R96's ranges. -/
theorem opcodeTable_assigned : ∀ row ∈ opcodeTable, ¬ UnassignedOpcode row.opc.toNat := by
  unfold UnassignedOpcode
  decide

theorem leavesA_of_opcode :
    ∀ row ∈ opcodeTable, row.opc.toNat ∈ opcodesWithoutA → row.format.leavesA = true := by
  decide

theorem leavesB_of_opcode :
    ∀ row ∈ opcodeTable, row.opc.toNat ∈ opcodesWithoutB → row.format.leavesB = true := by
  decide

/-- A CMD write that R90, R96 or R97 makes illegal does not decode. -/
theorem decode_illegal {x : Word}
    (h : UnassignedOpcode (cmdOpc x).toNat ∨ cmdHigh x ≠ 0 ∨ cmdZ x ≠ 0 ∨
      ((cmdOpc x).toNat ∈ opcodesWithoutA ∧ cmdA x ≠ 0) ∨
      ((cmdOpc x).toNat ∈ opcodesWithoutB ∧ cmdB x ≠ 0)) :
    ∃ e, decode x = .error e := by
  cases hd : decode x with
  | error e => exact ⟨e, rfl⟩
  | ok i =>
    obtain ⟨hhigh, row, hrow, hz, hA, hB, -⟩ := decode_eq_ok.mp hd
    obtain ⟨hmem, hopc⟩ := opcodeRow_mem hrow
    rw [← hopc] at h
    rcases h with ho | hne | hne | ⟨ho, hne⟩ | ⟨ho, hne⟩
    · exact absurd ho (opcodeTable_assigned row hmem)
    · exact absurd hhigh hne
    · exact absurd hz hne
    · exact absurd (hA (leavesA_of_opcode row hmem ho)) hne
    · exact absurd (hB (leavesB_of_opcode row hmem ho)) hne

/-- With no fault latched, a CMD write that does not decode raises CommandError (R95, R120). -/
theorem writeCmd_of_decode_error {x : Word} {s : Machine.State} {e : DecodeError}
    (hf : s.latch.fault = false) (h : decode x = .error e) :
    Machine.writeCmd x s = .next (s.raise .commandError (cmdOpc x)) := by
  simp [Machine.writeCmd, hf, h]

/-- Settles O5: an illegal word fails a test of decode, and the gate then raises CommandError. -/
theorem illegalWordsRaiseCommandError : Obligations.IllegalWordsRaiseCommandError := by
  refine ⟨fun s rest x hf hp hillegal => ?step, decode_eq_nop⟩
  case step =>
    have ⟨e, he⟩ : ∃ e, decode x = .error e := by
      apply decode_illegal
      simp only [UnassignedOpcode, or_assoc]
      exact hillegal
    rw [Machine.step_writeCmd hp]
    exact writeCmd_of_decode_error hf he

end Sys2Proof
end

section
/-! PROOFS. The control commands, and the gate that leads a CMD write to its command
(40_control.md R120 to R122). -/

namespace Sys2Proof.Machine

theorem exec_reset (s : State) : exec .reset s = .next s.resetBlock := by
  rw [exec_eq_commit, commandResult, commit_ok]

/-- Resetting a block that is at reset changes nothing: the kept fields are the model's own (R121). -/
theorem resetBlock_resetBlock (s : State) : s.resetBlock.resetBlock = s.resetBlock := rfl

/-- With no fault latched, a CMD write that decodes runs its command (R120). -/
theorem writeCmd_of_decode_ok {x : Word} {s : State} {i : Instr} (hf : s.latch.fault = false)
    (h : decode x = .ok i) : writeCmd x s = exec i s := by
  simp [writeCmd, hf, h]

/-- Settles O6: the step is the CMD write, and the gate lets a decoded command through. -/
theorem stepRunsDecodedCommand : Obligations.StepRunsDecodedCommand := by
  intro s rest x i hf hp hx
  rw [step_writeCmd hp]
  exact writeCmd_of_decode_ok hf hx

/-- Settles O16: RESET makes the reset block of any state, and resetting that is the identity. -/
theorem resetCommandResets : Obligations.ResetCommandResets := by
  intro s
  have hagain : exec .reset s.resetBlock = .next s.resetBlock := by
    rw [exec_reset, resetBlock_resetBlock]
  exact ⟨s.resetBlock, exec_reset s, atResetValues_of_host s.cfg s.pending s.answer,
    resetBlock_cfg s, resetBlock_pending s, resetBlock_answer s, hagain⟩

/-- Settles O17: NOP's rule answers the state it is given, and commits it. -/
theorem nopChangesNothing : Obligations.NopChangesNothing := by
  intro s
  rw [exec_eq_commit, commandResult, commit_ok]

end Sys2Proof.Machine
end

section
/-! PROOFS. The clear and read-back commands: what each writes, and that the rest stays
(41_frequency_counter.md R130, R132, 43_code_length.md R151, 44_canonical.md R162, R166,
45_bit_packer.md R180, 46_bit_unpacker.md R200). -/

namespace Sys2Proof.Machine

/-- A command whose rule completes answers the state its rule writes (R71). -/
theorem exec_of_result {i : Instr} {s t : State} (h : commandResult i s = .ok t) :
    exec i s = .next t := by
  rw [exec_eq_commit, h, commit_ok]

/-- A command whose rule faults answers the fault entry, with its own opcode in ERROP (R305). -/
theorem exec_of_fault {i : Instr} {s : State} {k : FaultKind} (h : commandResult i s = .error k) :
    exec i s = .next (s.raise k i.opcode) := by
  rw [exec_eq_commit, h, commit_error]

/-- Settles O19: no clear command's rule can fault, and each writes its cleared elements. -/
theorem clearCommandsClear : Obligations.ClearCommandsClear := by
  intro s
  exact ⟨exec_of_result rfl, exec_of_result rfl, exec_of_result rfl, exec_of_result rfl⟩

/-! Two fields side by side at the bottom of a 64-bit result register. -/

section
variable {m n : Nat} (hi : BitVec m) (lo : BitVec n)

theorem extractLsb'_low_of_append (h : n ≤ 64) :
    ((hi ++ lo).setWidth 64).extractLsb' 0 n = lo := by
  refine BitVec.eq_of_getLsbD_eq fun k hk => ?_
  have hk64 : k < 64 := by omega
  simp [BitVec.getLsbD_append, hk, hk64]

theorem extractLsb'_above_append {j k : Nat} (h : m + n ≤ j) :
    ((hi ++ lo).setWidth 64).extractLsb' j k = 0 := by
  refine BitVec.eq_of_getLsbD_eq fun i _ => ?_
  have hout : (hi ++ lo).getLsbD (j + i) = false := BitVec.getLsbD_of_ge _ _ (by omega)
  simp [hout]

end

/-- RESX[8] after RD_CODE: the bit put before a byte. -/
theorem getLsbD_eight_of_append (p : Bool) (b : Byte) :
    ((BitVec.ofBool p ++ b).setWidth 64).getLsbD 8 = p := by
  rw [BitVec.getLsbD_setWidth, BitVec.getLsbD_append]
  cases p <;> rfl

/-- Settles O20: RES and RESX are read off their fields; CODE's invariant makes the code and the length
of an absent symbol 0. -/
theorem readBackCommandsReadTables : Obligations.ReadBackCommandsReadTables := by
  intro s a
  refine ⟨exec_of_result rfl, exec_of_result rfl, _, _, exec_of_result rfl, rfl, ?len, ?present,
    ?rest, ?absent⟩
  case len => exact extractLsb'_low_of_append _ _ (by decide)
  case present => exact getLsbD_eight_of_append _ _
  case rest => exact extractLsb'_above_append _ _ (by decide)
  case absent =>
    intro hcode hp
    obtain ⟨hzero, hlen⟩ := ((codeOk_iff s.code).mp hcode a).2 hp
    rw [hp, hlen]
    exact ⟨hzero, rfl⟩

end Sys2Proof.Machine
end

section
/-! PROOFS. The frequency counter: one byte, and the counting pass over a stream
(41_frequency_counter.md R131, R133). -/

namespace Sys2Proof.Machine

/-- Settles O21: the two cases of counting a byte, TOTAL full or not. -/
theorem fcByteCountsOneByte : Obligations.FcByteCountsOneByte := by
  intro s b
  rcases countByte_cases b s.fc with ⟨hfull, hcount⟩ | ⟨hroom, hcount⟩
  · have hresult : commandResult (.fcByte b) s = .error .countOverflow := by
      rw [commandResult, hcount, map_error]
    exact ⟨fun hne => absurd hfull hne, fun _ => exec_of_fault hresult⟩
  · have hresult : commandResult (.fcByte b) s = .ok { s with
        fc := { freq := tset s.fc.freq b (tget s.fc.freq b + 1), total := s.fc.total + 1 } } := by
      rw [commandResult, hcount, map_ok]
    exact ⟨fun _ => ⟨_, exec_of_result hresult, tget_tset_self _ _ _,
      fun _ ha => tget_tset_ne _ _ ha, rfl⟩, fun hfull => absurd hfull hroom⟩

/-- No entry of FREQ passes TOTAL (R131, by R37). -/
theorem freq_le_total {f : FreqCounter} (hf : FreqOk f) (a : Byte) :
    (tget f.freq a).toNat ≤ f.total.toNat := by
  rw [hf]
  exact List.le_sum_of_mem (List.mem_map_of_mem (tget_mem f.freq a))

/-- Counting a byte below the limit: neither the byte's entry nor TOTAL wraps, because the entry is at
most TOTAL. -/
theorem countByte_counts {f : FreqCounter} (hf : FreqOk f) (hroom : f.total.toNat + 1 < 2 ^ 64)
    (b : Byte) : ∃ g, countByte b f = .ok g ∧ FreqOk g ∧
      (∀ a, (tget g.freq a).toNat = (tget f.freq a).toNat + if b = a then 1 else 0) ∧
      g.total.toNat = f.total.toNat + 1 := by
  have hne : f.total ≠ maxCount := (ne_maxCount_iff _).mpr hroom
  have hentry : tget f.freq b ≠ maxCount := by
    have := freq_le_total hf b
    rw [ne_maxCount_iff]
    omega
  rcases countByte_cases b f with ⟨hfull, -⟩ | ⟨-, hcount⟩
  · exact absurd hfull hne
  · refine ⟨_, hcount, countByte_freqOk hf hcount, fun a => ?_, toNat_succ_of_ne_max hne⟩
    by_cases hab : b = a
    · subst hab
      rw [tget_tset_self, toNat_succ_of_ne_max hentry, if_pos rfl]
    · rw [tget_tset_ne _ _ (Ne.symm hab), if_neg hab, Nat.add_zero]

/-- The counting pass from any counter with room for the stream: each entry grows by its byte's
occurrences and TOTAL by the length. -/
theorem countAll_counts {bs : List Byte} {f : FreqCounter} (hf : FreqOk f)
    (hroom : f.total.toNat + bs.length < 2 ^ 64) : ∃ g, countAll bs f = .ok g ∧
      (∀ a, (tget g.freq a).toNat = (tget f.freq a).toNat + bs.count a) ∧
      g.total.toNat = f.total.toNat + bs.length := by
  induction bs generalizing f with
  | nil => exact ⟨f, rfl, fun _ => rfl, rfl⟩
  | cons b bs ih =>
    rw [List.length_cons] at hroom
    obtain ⟨g, hg, hgOk, hgFreq, hgTotal⟩ := countByte_counts hf (by omega) b
    obtain ⟨r, hr, hrFreq, hrTotal⟩ := ih hgOk (by omega)
    refine ⟨r, ?run, fun a => ?freq, ?total⟩
    case run => simp only [countAll, hg, hr]
    case freq =>
      rw [hrFreq, hgFreq, List.count_cons, beq_eq_decide]
      simp only [decide_eq_true_eq]
      omega
    case total =>
      rw [hrTotal, hgTotal, List.length_cons]
      omega

/-- Settles O22: the counting pass begun at 0. -/
theorem countingPassCountsOccurrences : Obligations.CountingPassCountsOccurrences := by
  intro bs hlen
  obtain ⟨f, hrun, hfreq, htotal⟩ :=
    countAll_counts (bs := bs) freqOk_cleared (by simpa [freqCleared] using hlen)
  exact ⟨f, hrun, by simpa [freqCleared] using hfreq, by simpa [freqCleared] using htotal⟩

end Sys2Proof.Machine
end

section
/-! PROOFS. The arbiter: its order is that of one number, and it yields the least live node
(42_tree_builder.md R140, 00_scope.md R9). -/

namespace Sys2Proof.Machine

/-- A node's key read as one number, the weight above the 8 bits of the minSym. -/
def nodeKey (n : HuffmanNode) : Nat := (nodeWeight n).toNat * 256 + (nodeMinSym n).toNat

theorem keyBelow_iff_nodeKey_lt (a b : HuffmanNode) : KeyBelow a b ↔ nodeKey a < nodeKey b := by
  have ha := (nodeMinSym a).isLt
  have hb := (nodeMinSym b).isLt
  simp only [KeyBelow, nodeKey]
  omega

theorem keyLt_iff_nodeKey_lt (a b : HuffmanNode) : keyLt a b = true ↔ nodeKey a < nodeKey b := by
  rw [← keyBelow_iff_nodeKey_lt, keyLt, decide_eq_true_eq, KeyBelow, BitVec.lt_def, BitVec.lt_def,
    BitVec.toNat_inj]

/-- Nodes of different minSyms are never of one key. -/
theorem keyBelow_of_nodeKey_le {a b : HuffmanNode} (hle : nodeKey a ≤ nodeKey b)
    (hne : nodeMinSym a ≠ nodeMinSym b) : KeyBelow a b := by
  have ha := (nodeMinSym a).isLt
  have hb := (nodeMinSym b).isLt
  have hne' : (nodeMinSym a).toNat ≠ (nodeMinSym b).toNat := mt BitVec.eq_of_toNat_eq hne
  simp only [KeyBelow, nodeKey] at hle ⊢
  omega

theorem extractMin_nodeKey_le (a : HuffmanNode) (rest : List HuffmanNode) :
    ∀ n ∈ a :: rest, nodeKey (extractMin a rest).1 ≤ nodeKey n := by
  induction rest generalizing a with
  | nil => simp [extractMin]
  | cons b rest ih =>
    have hrest := ih b
    rw [List.forall_mem_cons]
    simp only [extractMin, keyLt_iff_nodeKey_lt]
    split
    · next hlt => exact ⟨hlt.le, hrest⟩
    · next hge => exact ⟨le_rfl, fun n hn => (not_lt.mp hge).trans (hrest n hn)⟩

theorem extractMin_keyBelow {a : HuffmanNode} {rest : List HuffmanNode}
    (hdistinct : ((a :: rest).map nodeMinSym).Nodup) :
    ∀ n ∈ (extractMin a rest).2, KeyBelow (extractMin a rest).1 n := by
  intro n hn
  have hperm := extractMin_perm a rest
  have hsplit := (hperm.map nodeMinSym).nodup_iff.mpr hdistinct
  rw [List.map_cons, List.nodup_cons] at hsplit
  refine keyBelow_of_nodeKey_le (extractMin_nodeKey_le a rest n ?mem) fun heq => ?same
  case mem => exact hperm.subset (List.mem_cons_of_mem _ hn)
  case same => exact hsplit.1 (heq ▸ List.mem_map_of_mem hn)

/-- Settles O23: the extraction rearranges the nodes, and its first key is least. -/
theorem arbiterYieldsSmallestKey : Obligations.ArbiterYieldsSmallestKey :=
  fun a rest => ⟨extractMin_perm a rest, extractMin_keyBelow⟩

end Sys2Proof.Machine
end

section
/-! PROOFS. The merging loop: a turn merges the two least nodes, however the live nodes are
arranged (42_tree_builder.md R141, R142). -/

namespace Sys2Proof.Machine

/-- The live nodes are `a`, `b` and `others`: `a` is of smallest key, and `b` of the next. -/
structure LeastTwo (live : List HuffmanNode) (a b : HuffmanNode) (others : List HuffmanNode) :
    Prop where
  perm : live.Perm (a :: b :: others)
  first : ∀ n ∈ b :: others, KeyBelow a n
  second : ∀ n ∈ others, KeyBelow b n

/-- A turn of the loop over two nodes or more merges the two of smallest key. -/
theorem mergeStep_merges_leastTwo {live : List HuffmanNode} (hlen : 2 ≤ live.length)
    (hdistinct : (live.map nodeMinSym).Nodup) :
    ∃ a b others, LeastTwo live a b others ∧ mergeStep live = mergeNodes a b :: others := by
  rcases live with _ | ⟨p, _ | ⟨q, rest⟩⟩
  · simp at hlen
  · simp at hlen
  · obtain ⟨a, c, others, b, others', hfirst, hsecond, hstep⟩ := mergeStep_cons p q rest
    have hperm := extractMin_perm p (q :: rest)
    have hbelow := extractMin_keyBelow hdistinct
    rw [hfirst] at hperm hbelow
    have hdistinct' : ((c :: others).map nodeMinSym).Nodup :=
      ((hperm.map nodeMinSym).nodup_iff.mpr hdistinct).of_cons
    have hperm' := extractMin_perm c others
    have hbelow' := extractMin_keyBelow hdistinct'
    rw [hsecond] at hperm' hbelow'
    exact ⟨a, b, others', ⟨((hperm'.cons a).trans hperm).symm,
      fun n hn => hbelow n (hperm'.subset hn), hbelow'⟩, hstep⟩

theorem mergeStep_of_length_lt_two {live : List HuffmanNode} (hlen : live.length < 2) :
    mergeStep live = live := by
  rcases live with _ | ⟨a, _ | ⟨b, rest⟩⟩
  · rfl
  · rfl
  · simp at hlen

theorem nodeMinSym_mergeNodes (a b : HuffmanNode) : nodeMinSym (mergeNodes a b) =
    if nodeMinSym a < nodeMinSym b then nodeMinSym a else nodeMinSym b := rfl

theorem nodeMinSym_mergeNodes_toNat (a b : HuffmanNode) :
    (nodeMinSym (mergeNodes a b)).toNat = min (nodeMinSym a).toNat (nodeMinSym b).toNat := by
  simp only [nodeMinSym_mergeNodes, BitVec.lt_def]
  split <;> omega

/-- After a turn the live nodes still have distinct minSyms. -/
theorem mergeStep_minSyms_nodup {live : List HuffmanNode}
    (hdistinct : (live.map nodeMinSym).Nodup) : ((mergeStep live).map nodeMinSym).Nodup := by
  rcases Nat.lt_or_ge live.length 2 with hshort | hlen
  · rwa [mergeStep_of_length_lt_two hshort]
  · obtain ⟨a, b, others, hleast, hstep⟩ := mergeStep_merges_leastTwo hlen hdistinct
    have hsyms := (hleast.perm.map nodeMinSym).nodup_iff.mp hdistinct
    rw [hstep, List.map_cons, nodeMinSym_mergeNodes]
    split
    · exact hsyms.sublist ((List.sublist_cons_self _ _).cons_cons _)
    · exact hsyms.of_cons

/-- What every turn keeps, the whole loop keeps. -/
theorem mergeTurns_keeps {P : List HuffmanNode → Prop} (hstep : ∀ live, P live → P (mergeStep live))
    (n : Nat) {live : List HuffmanNode} (hlive : P live) : P (mergeTurns n live) := by
  induction n generalizing live with
  | zero => exact hlive
  | succ n ih => exact ih (hstep live hlive)

/-! The arrangement of the live nodes (R142). -/

/-- There is one least node: lists with the same nodes have the same one, and the same others. -/
theorem eq_and_perm_of_least {a b : HuffmanNode} {l l' : List HuffmanNode}
    (hperm : (a :: l).Perm (b :: l')) (ha : ∀ n ∈ l, KeyBelow a n) (hb : ∀ n ∈ l', KeyBelow b n) :
    a = b ∧ l.Perm l' := by
  have heq : a = b := by
    rcases List.mem_cons.mp (hperm.mem_iff.mp List.mem_cons_self) with h | hbelow
    · exact h
    rcases List.mem_cons.mp (hperm.mem_iff.mpr List.mem_cons_self) with h | habove
    · exact h.symm
    have hlt := (keyBelow_iff_nodeKey_lt a b).mp (ha b habove)
    have hgt := (keyBelow_iff_nodeKey_lt b a).mp (hb a hbelow)
    exact absurd hlt hgt.asymm
  subst heq
  exact ⟨rfl, hperm.cons_inv⟩

theorem LeastTwo.eq_of_perm {live live' : List HuffmanNode} {a b a' b' : HuffmanNode}
    {others others' : List HuffmanNode} (h : LeastTwo live a b others)
    (h' : LeastTwo live' a' b' others') (hperm : live.Perm live') :
    a = a' ∧ b = b' ∧ others.Perm others' := by
  obtain ⟨ha, hrest⟩ :=
    eq_and_perm_of_least ((h.perm.symm.trans hperm).trans h'.perm) h.first h'.first
  exact ⟨ha, eq_and_perm_of_least hrest h.second h'.second⟩

/-- A turn makes the same live nodes of two arrangements. -/
theorem mergeStep_perm {live live' : List HuffmanNode} (hperm : live.Perm live')
    (hdistinct : (live.map nodeMinSym).Nodup) : (mergeStep live).Perm (mergeStep live') := by
  rcases Nat.lt_or_ge live.length 2 with hshort | hlen
  · rwa [mergeStep_of_length_lt_two hshort, mergeStep_of_length_lt_two (hperm.length_eq ▸ hshort)]
  · obtain ⟨a, b, others, hleast, hstep⟩ := mergeStep_merges_leastTwo hlen hdistinct
    obtain ⟨a', b', others', hleast', hstep'⟩ := mergeStep_merges_leastTwo
      (hperm.length_eq ▸ hlen) ((hperm.map nodeMinSym).nodup_iff.mp hdistinct)
    obtain ⟨rfl, rfl, hothers⟩ := hleast.eq_of_perm hleast' hperm
    rw [hstep, hstep']
    exact hothers.cons _

theorem mergeTurns_perm (n : Nat) {live live' : List HuffmanNode} (hperm : live.Perm live')
    (hdistinct : (live.map nodeMinSym).Nodup) : (mergeTurns n live).Perm (mergeTurns n live') := by
  induction n generalizing live live' with
  | zero => exact hperm
  | succ n ih => exact ih (mergeStep_perm hperm hdistinct) (mergeStep_minSyms_nodup hdistinct)

/-- `n - 1` turns leave of `n` nodes none or one (R141). -/
theorem mergeTurns_eq_nil_or_singleton (live : List HuffmanNode) :
    (live = [] ∧ mergeTurns (live.length - 1) live = []) ∨
      (live ≠ [] ∧ ∃ t, mergeTurns (live.length - 1) live = [t]) := by
  cases live with
  | nil => exact .inl ⟨rfl, rfl⟩
  | cons a rest =>
    have hlen := mergeTurns_length rest.length (a :: rest) rfl
    exact .inr ⟨List.cons_ne_nil a rest, List.length_eq_one_iff.mp hlen⟩

theorem mergeTurns_head?_eq_of_perm {live live' : List HuffmanNode} (hperm : live.Perm live')
    (hdistinct : (live.map nodeMinSym).Nodup) :
    (mergeTurns (live.length - 1) live).head? = (mergeTurns (live'.length - 1) live').head? := by
  have hturns := mergeTurns_perm (live.length - 1) hperm hdistinct
  rw [← hperm.length_eq]
  rcases mergeTurns_eq_nil_or_singleton live with ⟨-, hnil⟩ | ⟨-, t, hone⟩
  · rw [hnil] at hturns ⊢
    rw [hturns.nil_eq]
  · rw [hone] at hturns ⊢
    rw [hturns.singleton_eq]

end Sys2Proof.Machine
end

section
/-! PROOFS. TB_BUILD: the tree it makes and what that tree depends on (42_tree_builder.md R141,
R142, R144). -/

namespace Sys2Proof.Machine

theorem exec_tbBuild (s : State) : exec .tbBuild s = .next { s with
    tree := buildTree s.fc.freq
    res := BitVec.ofNat 64 (presentSyms s.fc.freq).length } := by
  rw [← presentLeaves_length]
  exact exec_of_result rfl

/-- Settles O25: TB_BUILD reads FREQ alone, and every turn takes the same two nodes of either
arrangement. -/
theorem treeIgnoresArrangement : Obligations.TreeIgnoresArrangement := by
  refine ⟨fun s s' t t' hfreq ht ht' => ?_, fun _ _ => mergeTurns_head?_eq_of_perm⟩
  rw [exec_tbBuild, Host.Outcome.next.injEq] at ht ht'
  subst ht ht'
  rw [hfreq]
  exact ⟨rfl, rfl⟩

/-- Every leaf of a tree carries its symbol's count, and every internal node was made of its two
children, the one of smaller key to the left (R140, R141). -/
structure BuiltFrom (freq : Table Word) (t : HuffmanNode) : Prop where
  leaf : ∀ a w, .leaf a w ∈ treeNodes t → w = tget freq a
  internal : ∀ w m l r, .internal w m l r ∈ treeNodes t → w = nodeWeight l + nodeWeight r ∧
    m.toNat = min (nodeMinSym l).toNat (nodeMinSym r).toNat ∧ KeyBelow l r

theorem builtFrom_leaf (freq : Table Word) (a : Byte) : BuiltFrom freq (.leaf a (tget freq a)) where
  leaf := by simp [treeNodes]
  internal := by simp [treeNodes]

theorem mem_treeNodes_mergeNodes {n a b : HuffmanNode} :
    n ∈ treeNodes (mergeNodes a b) ↔ n = mergeNodes a b ∨ n ∈ treeNodes a ∨ n ∈ treeNodes b := by
  simp [mergeNodes, treeNodes]

theorem builtFrom_mergeNodes {freq : Table Word} {a b : HuffmanNode} (ha : BuiltFrom freq a)
    (hb : BuiltFrom freq b) (hbelow : KeyBelow a b) : BuiltFrom freq (mergeNodes a b) where
  leaf := by
    intro c w hmem
    rcases mem_treeNodes_mergeNodes.mp hmem with hroot | hleft | hright
    · cases hroot
    · exact ha.leaf c w hleft
    · exact hb.leaf c w hright
  internal := by
    intro w m l r hmem
    rcases mem_treeNodes_mergeNodes.mp hmem with hroot | hleft | hright
    · have hmin := nodeMinSym_mergeNodes_toNat a b
      rw [← hroot] at hmin
      cases hroot
      exact ⟨rfl, hmin, hbelow⟩
    · exact ha.internal w m l r hleft
    · exact hb.internal w m l r hright

/-- The loop's invariant: the live nodes are built from the table, and no two share a minSym. -/
def LiveOk (freq : Table Word) (live : List HuffmanNode) : Prop :=
  (∀ t ∈ live, BuiltFrom freq t) ∧ (live.map nodeMinSym).Nodup

theorem presentLeaves_liveOk (freq : Table Word) : LiveOk freq (presentLeaves freq) := by
  rw [presentLeaves_eq]
  constructor
  · rw [List.forall_mem_map]
    exact fun a _ => builtFrom_leaf freq a
  · rw [List.map_map]
    exact (presentSyms_nodup freq).map Function.injective_id

theorem mergeStep_liveOk {freq : Table Word} {live : List HuffmanNode} (h : LiveOk freq live) :
    LiveOk freq (mergeStep live) := by
  obtain ⟨hbuilt, hdistinct⟩ := h
  refine ⟨?_, mergeStep_minSyms_nodup hdistinct⟩
  rcases Nat.lt_or_ge live.length 2 with hshort | hlen
  · rwa [mergeStep_of_length_lt_two hshort]
  · obtain ⟨a, b, others, hleast, hstep⟩ := mergeStep_merges_leastTwo hlen hdistinct
    simp only [hleast.perm.mem_iff, List.forall_mem_cons] at hbuilt
    obtain ⟨ha, hb, hothers⟩ := hbuilt
    rw [hstep, List.forall_mem_cons]
    exact ⟨builtFrom_mergeNodes ha hb (hleast.first b List.mem_cons_self), hothers⟩

/-- TB_BUILD's tree is the one node that the loop leaves of the present leaves, if there are any. -/
theorem buildTree_cases (freq : Table Word) :
    (presentSyms freq = [] ∧ buildTree freq = none) ∨
      (presentSyms freq ≠ [] ∧ ∃ t, buildTree freq = some t ∧
        mergeTurns ((presentLeaves freq).length - 1) (presentLeaves freq) = [t]) := by
  have hempty : presentLeaves freq = [] ↔ presentSyms freq = [] := by
    rw [presentLeaves_eq, List.map_eq_nil_iff]
  rcases mergeTurns_eq_nil_or_singleton (presentLeaves freq) with ⟨hnone, hnil⟩ | ⟨hsome, t, hone⟩
  · exact .inl ⟨hempty.mp hnone, by rw [buildTree, hnil, List.head?_nil]⟩
  · exact .inr ⟨mt hempty.mpr hsome, t, by rw [buildTree, hone, List.head?_cons], hone⟩

theorem buildTree_eq_none_iff (freq : Table Word) :
    buildTree freq = none ↔ presentSyms freq = [] := by
  rcases buildTree_cases freq with ⟨hnil, hnone⟩ | ⟨hsyms, t, ht, -⟩
  · exact iff_of_true hnone hnil
  · exact iff_of_false (by simp [ht]) hsyms

theorem mergeTurns_of_buildTree {freq : Table Word} {t : HuffmanNode}
    (ht : buildTree freq = some t) :
    mergeTurns ((presentLeaves freq).length - 1) (presentLeaves freq) = [t] := by
  rcases buildTree_cases freq with ⟨-, hnone⟩ | ⟨-, u, hu, hone⟩
  · cases hnone.symm.trans ht
  · cases hu.symm.trans ht
    exact hone

theorem buildTree_leafSyms_perm {freq : Table Word} {t : HuffmanNode}
    (ht : buildTree freq = some t) : (leafSyms t).Perm (presentSyms freq) := by
  have hsyms := mergeTurns_liveSyms ((presentLeaves freq).length - 1) (presentLeaves freq)
  rwa [mergeTurns_of_buildTree ht, presentLeaves_liveSyms, liveSyms, List.flatMap_singleton]
    at hsyms

theorem buildTree_builtFrom {freq : Table Word} {t : HuffmanNode} (ht : buildTree freq = some t) :
    BuiltFrom freq t := by
  have hlive : LiveOk freq (mergeTurns ((presentLeaves freq).length - 1) (presentLeaves freq)) :=
    mergeTurns_keeps (P := LiveOk freq) (fun _ => mergeStep_liveOk) _ (presentLeaves_liveOk freq)
  rw [mergeTurns_of_buildTree ht] at hlive
  exact hlive.1 t List.mem_cons_self

theorem buildTree_of_single {freq : Table Word} {a : Byte} (h : presentSyms freq = [a]) :
    buildTree freq = some (.leaf a (tget freq a)) := by
  rw [buildTree, presentLeaves_eq, h]
  rfl

/-- Settles O24: the loop's invariant at the one node left, and what a turn merges. -/
theorem tbBuildMakesTreeOfPresentSymbols : Obligations.TbBuildMakesTreeOfPresentSymbols := by
  refine ⟨fun s => ⟨buildTree s.fc.freq, exec_tbBuild s, buildTree_eq_none_iff _, ?loop,
    fun t ht => buildTree_leafSyms_perm ht, fun t ht => (buildTree_builtFrom ht).leaf,
    fun t ht => (buildTree_builtFrom ht).internal, fun a => buildTree_of_single⟩,
    fun _ _ => ⟨rfl, rfl⟩, fun live hlen hdistinct => ?turn⟩
  case loop => rw [← presentLeaves_eq]; rfl
  case turn =>
    obtain ⟨a, b, others, hleast, hstep⟩ := mergeStep_merges_leastTwo hlen hdistinct
    exact ⟨a, b, others, _, hleast.perm, hleast.first b List.mem_cons_self, hleast.second,
      nodeMinSym_mergeNodes_toNat a b, .of_eq hstep⟩

/-- Settles O26: the second merge takes the internal node of a and b before c, because its minSym is
less (R144), and the lengths are read off the tree. -/
theorem tieBreakGivesLengths1233 : Obligations.TieBreakGivesLengths1233 := by
  have htree : buildTree
      (tset (tset (tset (tset (Table.fill 0) 0x61 1) 0x62 1) 0x63 2) 0x64 2) =
      some (.internal 6 0x61 (.leaf 0x64 2)
        (.internal 4 0x61 (.internal 2 0x61 (.leaf 0x61 1) (.leaf 0x62 1)) (.leaf 0x63 2))) := by
    decide +kernel
  simp only [Obligations.TieBreakGivesLengths1233, htree, deriveLengths, writeDepths, tget_tset]
  decide

end Sys2Proof.Machine
end

section
/-! PROOFS. LD_DERIVE: the depths it writes and their Kraft sum (43_code_length.md R150, R152). -/

namespace Sys2Proof.Machine

theorem exec_ldDerive (s : State) : exec .ldDerive s = .next { s with
    len := deriveLengths s.tree
    res := (maxLength (deriveLengths s.tree)).setWidth 64 } :=
  exec_of_result rfl

/-! The largest length. -/

/-- The fold of R150's maximum yields one of the values it has seen, and none of them is larger. -/
theorem foldl_larger_spec (ls : List Byte) (m : Byte) :
    ls.foldl (fun m l => if m < l then l else m) m ∈ m :: ls ∧
      ∀ l ∈ m :: ls, l ≤ ls.foldl (fun m l => if m < l then l else m) m := by
  induction ls generalizing m with
  | nil => simp
  | cons l ls ih =>
    simp only [List.foldl_cons]
    split
    · next hlt =>
      obtain ⟨hmem, hle⟩ := ih l
      have hm := BitVec.le_trans (BitVec.le_of_lt hlt) (hle l List.mem_cons_self)
      exact ⟨List.mem_cons_of_mem m hmem, List.forall_mem_cons.mpr ⟨hm, hle⟩⟩
    · next hge =>
      obtain ⟨hmem, hle⟩ := ih m
      obtain ⟨hm, hrest⟩ := List.forall_mem_cons.mp hle
      have hl := BitVec.le_trans (BitVec.not_lt.mp hge) hm
      exact ⟨List.cons_subset_cons m (List.subset_cons_self l ls) hmem,
        List.forall_mem_cons.mpr ⟨hm, List.forall_mem_cons.mpr ⟨hl, hrest⟩⟩⟩

theorem tget_le_maxLength (lt : Table Byte) (a : Byte) : tget lt a ≤ maxLength lt :=
  (foldl_larger_spec lt.cells 0).2 _ (List.mem_cons_of_mem _ (tget_mem lt a))

/-- The largest length is some symbol's, also when it is the 0 the fold begins with. -/
theorem exists_tget_eq_maxLength (lt : Table Byte) : ∃ a, tget lt a = maxLength lt := by
  rcases List.mem_cons.mp (foldl_larger_spec lt.cells 0).1 with hzero | hcell
  · have hle := tget_le_maxLength lt 0
    have hmax : maxLength lt = 0 := hzero
    rw [hmax] at hle ⊢
    exact ⟨0, BitVec.le_zero_iff.mp hle⟩
  · exact (mem_cells lt _).mp hcell

/-! The depths of a tree's leaves. -/

theorem leafSyms_length_pos (n : HuffmanNode) : 0 < (leafSyms n).length := by
  induction n with
  | leaf s w => exact Nat.one_pos
  | internal w m l r ihl _ =>
    rw [leafSyms, List.length_append]
    exact Nat.add_pos_left ihl _

theorem leafSyms_length_le {n : HuffmanNode} (h : (leafSyms n).Nodup) :
    (leafSyms n).length ≤ 256 :=
  symbols_length ▸ (h.subperm fun a _ => mem_symbols a).length_le

/-- A leaf lies at the root's depth or below, and fewer levels below than there are leaves. -/
theorem leafDepths_bounds {n : HuffmanNode} {d : Nat} {p : Byte × Nat} (hp : p ∈ leafDepths n d) :
    d ≤ p.2 ∧ p.2 < d + (leafSyms n).length := by
  induction n generalizing d with
  | leaf s w =>
    rw [leafDepths, List.mem_singleton] at hp
    simp [hp, leafSyms]
  | internal w m l r ihl ihr =>
    have hl := leafSyms_length_pos l
    have hr := leafSyms_length_pos r
    rw [leafSyms, List.length_append]
    rcases List.mem_append.mp hp with hp | hp
    · have := ihl hp
      omega
    · have := ihr hp
      omega

/-- The leaves' shares `2^(−depth)` add up to that of the root, since every internal node has two
children (R152). -/
theorem sum_leafDepths_shares {n : HuffmanNode} {d : Nat} (h : d + (leafSyms n).length ≤ 256) :
    ((leafDepths n d).map fun p => 2 ^ (255 - p.2)).sum = 2 ^ (255 - d) := by
  induction n generalizing d with
  | leaf s w => simp [leafDepths]
  | internal w m l r ihl ihr =>
    have hl := leafSyms_length_pos l
    have hr := leafSyms_length_pos r
    rw [leafSyms, List.length_append] at h
    rw [leafDepths, List.map_append, List.sum_append, ihl (by omega), ihr (by omega), ← two_mul,
      ← Nat.pow_succ', show (255 - (d + 1)).succ = 255 - d by omega]

/-! The lengths LD_DERIVE writes. -/

theorem deriveLengths_not_mem {n : HuffmanNode} {c : Byte} (h : c ∉ leafSyms n) :
    tget (deriveLengths (some n)) c = 0 := by
  cases n with
  | leaf a w => exact (tget_tset_ne _ _ (List.ne_of_not_mem_cons h)).trans (tget_fill 0 c)
  | internal w m l r => exact (writeDepths_other _ _ _ h).trans (tget_fill 0 c)

theorem deriveLengths_leaf (a : Byte) (w : Word) :
    tget (deriveLengths (some (.leaf a w))) a = 1 :=
  tget_tset_self _ _ _

/-- A leaf's depth fits the 8-bit entry, since at most 256 leaves are distinct (R150). -/
theorem deriveLengths_internal {w : Word} {m : Byte} {l r : HuffmanNode}
    (h : (leafSyms (.internal w m l r)).Nodup) {p : Byte × Nat}
    (hp : p ∈ leafDepths (.internal w m l r) 0) :
    (tget (deriveLengths (some (.internal w m l r))) p.1).toNat = p.2 := by
  have hlt : p.2 < 256 := by
    have hcount := leafSyms_length_le h
    have hbound := (leafDepths_bounds hp).2
    omega
  have hwritten : tget (deriveLengths (some (.internal w m l r))) p.1 = BitVec.ofNat 8 p.2 :=
    writeDepths_leaf _ 0 _ h hp
  rw [hwritten, BitVec.toNat_ofNat, Nat.mod_eq_of_lt hlt]

theorem leafDepths_internal_pos {w : Word} {m : Byte} {l r : HuffmanNode} {p : Byte × Nat}
    (hp : p ∈ leafDepths (.internal w m l r) 0) : 0 < p.2 := by
  rcases List.mem_append.mp hp with hp | hp <;> exact (leafDepths_bounds hp).1

/-- Exactly the symbols at a tree's leaves have a length (R152). -/
theorem deriveLengths_ne_zero_iff {n : HuffmanNode} (h : (leafSyms n).Nodup) (a : Byte) :
    tget (deriveLengths (some n)) a ≠ 0 ↔ a ∈ leafSyms n := by
  refine ⟨not_imp_comm.mp deriveLengths_not_mem, fun ha hzero => ?_⟩
  cases n with
  | leaf b w =>
    cases List.mem_singleton.mp ha
    exact absurd (hzero.symm.trans (deriveLengths_leaf a w)) (by decide)
  | internal w m l r =>
    rw [← leafDepths_map_fst _ 0] at ha
    obtain ⟨p, hp, rfl⟩ := List.mem_map.mp ha
    have hlen := deriveLengths_internal h hp
    rw [hzero] at hlen
    exact (leafDepths_internal_pos hp).ne hlen

/-- Settles O27: the walk writes each leaf's depth, and the fold finds the largest entry. -/
theorem ldDeriveWritesDepths : Obligations.LdDeriveWritesDepths := by
  intro s hs
  refine ⟨deriveLengths s.tree, maxLength (deriveLengths s.tree), exec_ldDerive s,
    tget_le_maxLength _, exists_tget_eq_maxLength _, ?none, ?leaf, ?internal⟩
  case none =>
    intro htree a
    rw [htree]
    exact tget_fill 0 a
  case leaf =>
    intro a w htree
    rw [htree]
    exact ⟨deriveLengths_leaf a w, fun c hc => deriveLengths_not_mem (mt List.mem_singleton.mp hc)⟩
  case internal =>
    intro w m l r htree
    rw [htree]
    exact ⟨fun p => deriveLengths_internal (hs _ htree), fun c => deriveLengths_not_mem⟩

/-! The Kraft sum. -/

/-- A length's share `2^(−len)` of the Kraft sum, in its units of `2^(−255)`; an absent symbol has
none (R152). -/
def kraftShare (l : Byte) : Nat := if l = 0 then 0 else 2 ^ (255 - l.toNat)

@[simp] theorem kraftShare_zero : kraftShare 0 = 0 := rfl

theorem kraftShare_of_toNat {l : Byte} {d : Nat} (h : l.toNat = d) (hpos : 0 < d) :
    kraftShare l = 2 ^ (255 - d) := by
  have hne : l ≠ 0 := by
    rintro rfl
    exact hpos.ne h
  rw [kraftShare, if_neg hne, h]

/-- The Kraft sum takes the shares of a list of symbols that holds every present one once. -/
theorem kraftSum_eq_sum {lt : Table Byte} {syms : List Byte} (hnodup : syms.Nodup)
    (habsent : ∀ a, a ∉ syms → tget lt a = 0) :
    kraftSum lt = (syms.map fun a => kraftShare (tget lt a)).sum := by
  have hcells : kraftSum lt = (symbols.map fun a => kraftShare (tget lt a)).sum := by
    rw [kraftSum, cells_eq_map, List.map_map]
    rfl
  rw [hcells, ← List.sum_toFinset _ symbols_nodup, ← List.sum_toFinset _ hnodup]
  refine (Finset.sum_subset (fun a _ => ?_) fun a _ ha => ?_).symm
  · exact List.mem_toFinset.mpr (mem_symbols a)
  · rw [habsent a (mt List.mem_toFinset.mpr ha), kraftShare_zero]

theorem kraftSum_deriveLengths {n : HuffmanNode} (h : (leafSyms n).Nodup) :
    kraftSum (deriveLengths (some n)) =
      ((leafSyms n).map fun a => kraftShare (tget (deriveLengths (some n)) a)).sum :=
  kraftSum_eq_sum h fun _ => deriveLengths_not_mem

theorem kraftSum_deriveLengths_leaf (a : Byte) (w : Word) :
    kraftSum (deriveLengths (some (.leaf a w))) = 2 ^ 254 := by
  rw [kraftSum_deriveLengths (n := .leaf a w) (List.nodup_singleton a), leafSyms,
    List.map_singleton, List.sum_singleton, deriveLengths_leaf]
  exact kraftShare_of_toNat rfl Nat.one_pos

theorem kraftSum_deriveLengths_internal {w : Word} {m : Byte} {l r : HuffmanNode}
    (h : (leafSyms (.internal w m l r)).Nodup) :
    kraftSum (deriveLengths (some (.internal w m l r))) = 2 ^ 255 := by
  have hshares : ∀ p ∈ leafDepths (.internal w m l r) 0,
      kraftShare (tget (deriveLengths (some (.internal w m l r))) p.1) = 2 ^ (255 - p.2) :=
    fun p hp => kraftShare_of_toNat (deriveLengths_internal h hp) (leafDepths_internal_pos hp)
  rw [kraftSum_deriveLengths h, ← leafDepths_map_fst _ 0, List.map_map]
  calc _ = ((leafDepths (.internal w m l r) 0).map fun p => 2 ^ (255 - p.2)).sum :=
        congrArg List.sum (List.map_congr_left hshares)
    _ = 2 ^ 255 := sum_leafDepths_shares ((Nat.zero_add _).trans_le (leafSyms_length_le h))

theorem len_of_tbBuild_ldDerive {s t u : State} (ht : exec .tbBuild s = .next t)
    (hu : exec .ldDerive t = .next u) : u.len = deriveLengths (buildTree s.fc.freq) := by
  rw [exec_tbBuild, Host.Outcome.next.injEq] at ht
  rw [exec_ldDerive, Host.Outcome.next.injEq] at hu
  rw [← hu, ← ht]

/-- Settles O28: TB_BUILD's leaves are the present symbols, and a tree of two leaves or more has an
internal root. -/
theorem derivedLengthsMeetKraft : Obligations.DerivedLengthsMeetKraft := by
  intro s t u ht hu
  rw [len_of_tbBuild_ldDerive ht hu]
  simp only [← mem_presentSyms]
  rcases buildTree_cases s.fc.freq with ⟨hnil, htree⟩ | ⟨-, n, htree, -⟩
  · simp [htree, hnil, deriveLengths]
  · have hnodup : (leafSyms n).Nodup := buildTree_treeOk s.fc.freq n htree
    have hperm := buildTree_leafSyms_perm htree
    rw [htree, ← hperm.length_eq]
    refine ⟨fun a => (deriveLengths_ne_zero_iff hnodup a).trans hperm.mem_iff, ?_⟩
    cases n with
    | leaf a w =>
      exact ⟨fun htwo => absurd htwo (by simp [leafSyms]),
        fun _ => kraftSum_deriveLengths_leaf a w⟩
    | internal w m l r =>
      have hl := leafSyms_length_pos l
      have hr := leafSyms_length_pos r
      refine ⟨fun _ => kraftSum_deriveLengths_internal hnodup, fun hone => ?_⟩
      rw [leafSyms, List.length_append] at hone
      omega

end Sys2Proof.Machine
end

section
/-! PROOFS. `canonical`: when it succeeds, its counts as counts over the symbols, and the loop of
R161 it stands for (44_canonical.md R161). -/

namespace Sys2Proof.Machine

/-! When it succeeds, and the entry it gives a symbol. -/

theorem any_length_above_iff (lt : Table Byte) :
    lt.cells.any (fun l => 64 < l.toNat) = true ↔ ∃ a, 64 < (tget lt a).toNat := by
  simp [mem_cells]

theorem not_any_length_above {lt : Table Byte} (h : ∀ a, (tget lt a).toNat ≤ 64) :
    ¬ lt.cells.any (fun l => 64 < l.toNat) = true := by
  rw [any_length_above_iff]
  exact fun ⟨a, ha⟩ => absurd (h a) (Nat.not_le.mpr ha)

theorem canonical_of_le {lt : Table Byte} (h : ∀ a, (tget lt a).toNat ≤ 64) :
    canonical lt = .ok (tbuild (canonicalEntry lt)) :=
  if_neg (not_any_length_above h)

theorem canonical_of_gt {lt : Table Byte} (h : ∃ a, 64 < (tget lt a).toNat) :
    canonical lt = .error .invalidCanonicalTable :=
  if_pos ((any_length_above_iff lt).mpr h)

theorem canonicalEntry_of_absent {lt : Table Byte} {a : Byte} (h : tget lt a = 0) :
    canonicalEntry lt a = absentCode := if_pos h

theorem canonicalEntry_of_present {lt : Table Byte} {a : Byte} (h : tget lt a ≠ 0) :
    canonicalEntry lt a =
      { present := true
        code := firstCode lt (tget lt a).toNat + BitVec.ofNat 64 (rankAmongEqual lt a)
        len := tget lt a } := if_neg h

theorem canonicalEntry_present_iff (lt : Table Byte) (a : Byte) :
    (canonicalEntry lt a).present = true ↔ tget lt a ≠ 0 := by
  by_cases h : tget lt a = 0
  · rw [canonicalEntry_of_absent h]
    exact iff_of_false Bool.false_ne_true (not_not.mpr h)
  · rw [canonicalEntry_of_present h]
    exact iff_of_true rfl h

theorem canonicalEntry_len (lt : Table Byte) (a : Byte) :
    (canonicalEntry lt a).len = tget lt a := by
  by_cases h : tget lt a = 0
  · rw [canonicalEntry_of_absent h, h, absentCode]
  · rw [canonicalEntry_of_present h]

/-- The recurrence of R161, for every length from 1 up. -/
theorem firstCode_succ (lt : Table Byte) {l : Nat} (h : 1 ≤ l) :
    firstCode lt (l + 1) = (firstCode lt l + BitVec.ofNat 64 (lengthCount lt l)) <<< 1 := by
  cases l with
  | zero => cases h
  | succ l => rfl

/-! The symbols in ascending order, and the counts taken over them. -/

/-- Where symbol `a` stands among the symbols: after the `a` lower ones. -/
theorem symbols_split (a : Byte) :
    symbols = symbols.take a.toNat ++ a :: symbols.drop (a.toNat + 1) := by
  have hlt : a.toNat < symbols.length := symbols_length ▸ a.isLt
  have ha : symbols[a.toNat] = a := by rw [symbols_getElem, BitVec.ofNat_toNat, BitVec.setWidth_eq]
  conv_lhs => rw [← List.take_append_drop a.toNat symbols, List.drop_eq_getElem_cons hlt, ha]

theorem symbols_sorted : symbols.Pairwise fun a b => a.toNat < b.toNat := by
  refine List.pairwise_map.mpr (List.pairwise_lt_range.imp_of_mem fun ha hb h => ?_)
  rw [List.mem_range] at ha hb
  rwa [BitVec.toNat_ofNat, BitVec.toNat_ofNat, Nat.mod_eq_of_lt ha, Nat.mod_eq_of_lt hb]

/-- The symbols put before `a` are those below it. -/
theorem symbols_take (a : Byte) :
    symbols.take a.toNat = symbols.filter fun b => b.toNat < a.toNat := by
  have hsorted := symbols_sorted
  rw [symbols_split a, List.pairwise_append, List.pairwise_cons] at hsorted
  obtain ⟨-, ⟨habove, -⟩, hbelow⟩ := hsorted
  have hpre : (symbols.take a.toNat).filter (fun b => b.toNat < a.toNat) =
      symbols.take a.toNat :=
    List.filter_eq_self.mpr fun b hb => decide_eq_true (hbelow b hb a List.mem_cons_self)
  have hpost : (a :: symbols.drop (a.toNat + 1)).filter (fun b => b.toNat < a.toNat) = [] := by
    refine List.filter_eq_nil_iff.mpr fun b hb => ?_
    rcases List.mem_cons.mp hb with rfl | hb
    · simp
    · simpa using (habove b hb).le
  conv_rhs => rw [symbols_split a, List.filter_append, hpre, hpost, List.append_nil]

theorem cells_countP {α : Type} (t : Table α) (p : α → Bool) :
    t.cells.countP p = (symbols.filter fun a => p (tget t a)).length := by
  rw [cells_eq_map, List.countP_map, List.countP_eq_length_filter]
  rfl

theorem lengthCount_eq (lt : Table Byte) (l : Nat) :
    lengthCount lt l = (symbols.filter fun a => (tget lt a).toNat = l).length :=
  cells_countP lt _

theorem rankAmongEqual_eq_countP (lt : Table Byte) (a : Byte) :
    rankAmongEqual lt a = (symbols.take a.toNat).countP fun b => tget lt b = tget lt a := by
  rw [rankAmongEqual, cells_eq_map, ← List.map_take, List.countP_map]
  rfl

theorem rankAmongEqual_eq (lt : Table Byte) (a : Byte) : rankAmongEqual lt a =
    (symbols.filter fun b => b.toNat < a.toNat ∧ tget lt b = tget lt a).length := by
  rw [rankAmongEqual_eq_countP, symbols_take, List.countP_eq_length_filter, List.filter_filter]
  simp only [Bool.decide_and, Bool.and_comm]

/-! The loop of R161. -/

theorem ofNat_succ (n : Nat) : (BitVec.ofNat 64 (n + 1) : Word) = BitVec.ofNat 64 n + 1 :=
  BitVec.ofNat_add n 1

/-- The inner loop writes only symbols of its length that it comes to. -/
theorem assignLength_other (lt : Table Byte) (l : Nat) {syms : List Byte} {a : Byte}
    (h : a ∉ syms ∨ (tget lt a).toNat ≠ l) (next : Word) (c : Table CodeEntry) :
    tget (assignLength lt l syms next c) a = tget c a := by
  induction syms generalizing next c with
  | nil => rfl
  | cons b rest ih =>
    have hrest := h.imp_left fun hmem hr => hmem (List.mem_cons_of_mem b hr)
    rw [assignLength]
    split
    · next hb =>
      have hne : a ≠ b := by
        rintro rfl
        exact h.elim (fun hmem => hmem List.mem_cons_self) fun hlen => hlen hb
      rw [ih hrest, tget_tset_ne _ _ hne]
    · exact ih hrest next c

/-- The inner loop over two stretches of symbols: `next` has counted the symbols of its length in
the first when it comes to the second. -/
theorem assignLength_append (lt : Table Byte) (l : Nat) (xs ys : List Byte) (next : Word)
    (c : Table CodeEntry) : assignLength lt l (xs ++ ys) next c =
      assignLength lt l ys (next + BitVec.ofNat 64 (xs.countP fun b => (tget lt b).toNat = l))
        (assignLength lt l xs next c) := by
  induction xs generalizing next c with
  | nil => simp [assignLength]
  | cons b xs ih =>
    rw [List.cons_append, assignLength, assignLength, List.countP_cons]
    split
    · next hb =>
      rw [ih, if_pos (decide_eq_true hb), ofNat_succ, BitVec.add_assoc, BitVec.add_comm 1]
    · next hb =>
      rw [ih, if_neg (by simpa using hb), Nat.add_zero]

/-- The inner loop gives a symbol of its length the code the closed form gives it. -/
theorem assignLength_canonicalEntry {lt : Table Byte} {a : Byte} (h : tget lt a ≠ 0)
    (c : Table CodeEntry) :
    tget (assignLength lt (tget lt a).toNat symbols (firstCode lt (tget lt a).toNat) c) a =
      canonicalEntry lt a := by
  have hlater : a ∉ symbols.drop (a.toNat + 1) := by
    have hnodup := symbols_nodup
    rw [symbols_split a] at hnodup
    exact (List.nodup_cons.mp hnodup.of_append_right).1
  conv_lhs => rw [symbols_split a]
  rw [assignLength_append, assignLength, if_pos rfl, assignLength_other _ _ (.inl hlater),
    tget_tset_self, canonicalEntry_of_present h, rankAmongEqual_eq_countP]
  simp only [BitVec.toNat_inj]

/-- The outer loop up to length `n`: the symbols of a length from 1 to `n` have their entries. -/
theorem assignLengths_upTo (lt : Table Byte) (a : Byte) (n : Nat) :
    tget ((List.range n).foldl
        (fun c k => assignLength lt (k + 1) symbols (firstCode lt (k + 1)) c)
        (Table.fill absentCode)) a =
      if (tget lt a).toNat ≤ n then canonicalEntry lt a else absentCode := by
  induction n with
  | zero =>
    rw [List.range_zero, List.foldl_nil, tget_fill]
    split
    · next h0 =>
      exact (canonicalEntry_of_absent (BitVec.eq_of_toNat_eq (Nat.le_zero.mp h0))).symm
    · rfl
  | succ n ih =>
    rw [List.range_succ, List.foldl_append, List.foldl_cons, List.foldl_nil]
    by_cases hlen : (tget lt a).toNat = n + 1
    · have hpresent : tget lt a ≠ 0 := fun h0 => by simp [h0] at hlen
      rw [if_pos hlen.le, ← hlen, assignLength_canonicalEntry hpresent]
    · rw [assignLength_other _ _ (.inr hlen), ih]
      simp only [Nat.le_succ_iff, hlen, or_false]

/-- Settles O30: after length 64 the loop has given every symbol the entry of the closed form. -/
theorem canonicalIsItsLoop : Obligations.CanonicalIsItsLoop := by
  intro lt
  by_cases h : ∃ a, 64 < (tget lt a).toNat
  · rw [canonical_of_gt h]
    exact if_pos ((any_length_above_iff lt).mpr h)
  · have hle : ∀ a, (tget lt a).toNat ≤ 64 := fun a => Nat.not_lt.mp fun ha => h ⟨a, ha⟩
    rw [canonical_of_le hle]
    refine (if_neg (not_any_length_above hle)).trans (congrArg Except.ok (table_ext fun a => ?_))
    rw [assignLengths_upTo, if_pos (hle a), tget_tbuild]

end Sys2Proof.Machine
end

section
/-! PROOFS. CA_FROM_LEN, and the codes of equal-length neighbours (44_canonical.md R160, R167). -/

namespace Sys2Proof.Machine

/-- Settles O29: `first` is `firstCode`, and the counts are counts over the symbols. -/
theorem caFromLenAssignsCodes : Obligations.CaFromLenAssignsCodes := by
  intro s
  refine ⟨fun hle => ⟨tbuild (canonicalEntry s.len), firstCode s.len, exec_of_result ?result, rfl,
    ?recurrence, fun a => ⟨?absent, ?present⟩⟩,
    fun hgt => exec_of_fault (k := .invalidCanonicalTable) ?fault⟩
  case result =>
    rw [commandResult, canonical_of_le hle, cells_countP]
    rfl
  case recurrence =>
    intro l hl _
    rw [firstCode_succ s.len hl, lengthCount_eq]
  case absent =>
    intro h
    rw [tget_tbuild, canonicalEntry_of_absent h]
    rfl
  case present =>
    intro h
    rw [tget_tbuild, canonicalEntry_of_present h, rankAmongEqual_eq]
  case fault => rw [commandResult, canonical_of_gt hgt, map_error]

/-! Counts over the symbols as sizes of sets. -/

theorem toFinset_symbols : symbols.toFinset = Finset.univ :=
  Finset.eq_univ_of_forall fun a => List.mem_toFinset.mpr (mem_symbols a)

theorem length_filter_symbols (p : Byte → Prop) [DecidablePred p] :
    (symbols.filter p).length = (Finset.univ.filter p).card := by
  rw [← List.toFinset_card_of_nodup (symbols_nodup.filter _), List.toFinset_filter,
    toFinset_symbols]
  simp only [decide_eq_true_eq]

theorem rankAmongEqual_eq_card (lt : Table Byte) (a : Byte) : rankAmongEqual lt a =
    (Finset.univ.filter fun b : Byte => b.toNat < a.toNat ∧ tget lt b = tget lt a).card := by
  rw [rankAmongEqual_eq, length_filter_symbols]

/-- The next symbol of one length has one more symbol of that length below it. -/
theorem rankAmongEqual_of_next {lt : Table Byte} {a b : Byte} (hlt : a.toNat < b.toNat)
    (hlen : tget lt a = tget lt b)
    (hnone : ∀ m : Byte, a.toNat < m.toNat → m.toNat < b.toNat → tget lt m ≠ tget lt a) :
    rankAmongEqual lt b = rankAmongEqual lt a + 1 := by
  rw [rankAmongEqual_eq_card, rankAmongEqual_eq_card, ← Finset.card_insert_of_notMem (a := a)
    (by simp), ← hlen]
  refine congrArg Finset.card (Finset.ext fun m => ?_)
  simp only [Finset.mem_filter, Finset.mem_univ, true_and, Finset.mem_insert]
  constructor
  · rintro ⟨hmb, hm⟩
    have hle : m.toNat ≤ a.toNat := Nat.not_lt.mp fun ham => hnone m ham hmb hm
    exact hle.eq_or_lt.imp BitVec.eq_of_toNat_eq fun hma => ⟨hma, hm⟩
  · rintro (rfl | ⟨hma, hm⟩)
    · exact ⟨hlt, rfl⟩
    · exact ⟨hma.trans hlt, hm⟩

/-- Settles O31: both codes begin at the first code of their length, and the ranks differ by 1. -/
theorem equalLengthCodesConsecutive : Obligations.EqualLengthCodesConsecutive := by
  intro lt c a b hc hlt hpresent hlen hnone
  obtain ⟨-, rfl⟩ := canonical_ok hc
  rw [tget_tbuild, tget_tbuild, canonicalEntry_of_present hpresent,
    canonicalEntry_of_present (hlen ▸ hpresent)]
  dsimp only
  rw [rankAmongEqual_of_next hlt hlen hnone, hlen, ofNat_succ, BitVec.add_assoc]

end Sys2Proof.Machine
end

section
/-! PROOFS. Canonical codes under the Kraft premise (44_canonical.md R167). A code, scaled to
units of `2^(−255)`, is the Kraft sum of the symbols before it in the order of R161: so a code's
interval, from its scaled value on and as long as its share, is disjoint from every other's. -/

namespace Sys2Proof.Machine

/-- A symbol's place in the order "L ascending, then s ascending" (R161), as one number. -/
def orderKey (lt : Table Byte) (a : Byte) : Nat := 256 * (tget lt a).toNat + a.toNat

/-- The Kraft shares of the symbols whose place is below `k`. -/
def sharesBelow (lt : Table Byte) (k : Nat) : Nat :=
  ∑ a : Byte with orderKey lt a < k, kraftShare (tget lt a)

theorem orderKey_inj {lt : Table Byte} {a b : Byte} (h : orderKey lt a = orderKey lt b) :
    a = b := by
  have ha := a.isLt
  have hb := b.isLt
  refine BitVec.eq_of_toNat_eq ?_
  simp only [orderKey] at h
  omega

theorem kraftSum_eq_sharesBelow (lt : Table Byte) : kraftSum lt = sharesBelow lt (256 * 256) := by
  have hall : ∀ a ∈ (Finset.univ : Finset Byte), orderKey lt a < 256 * 256 := fun a _ => by
    have ha := a.isLt
    have hlen := (tget lt a).isLt
    rw [orderKey]
    omega
  rw [sharesBelow, Finset.filter_true_of_mem hall, ← toFinset_symbols,
    List.sum_toFinset _ symbols_nodup]
  exact kraftSum_eq_sum symbols_nodup fun a ha => absurd (mem_symbols a) ha

/-- A symbol's own share comes after the shares before it. -/
theorem sharesBelow_add_share_le {lt : Table Byte} {a : Byte} {k : Nat} (h : orderKey lt a < k) :
    sharesBelow lt (orderKey lt a) + kraftShare (tget lt a) ≤ sharesBelow lt k := by
  rw [sharesBelow, sharesBelow, add_comm,
    ← Finset.sum_insert (f := fun b => kraftShare (tget lt b)) (by simp)]
  refine Finset.sum_le_sum_of_subset fun b hb => ?_
  simp only [Finset.mem_insert, Finset.mem_filter, Finset.mem_univ, true_and] at hb ⊢
  rcases hb with rfl | hb
  · exact h
  · exact hb.trans h

theorem sharesBelow_add_share_le_kraftSum (lt : Table Byte) (a : Byte) :
    sharesBelow lt (orderKey lt a) + kraftShare (tget lt a) ≤ kraftSum lt := by
  have ha := a.isLt
  have hlen := (tget lt a).isLt
  rw [kraftSum_eq_sharesBelow]
  refine sharesBelow_add_share_le ?_
  rw [orderKey]
  omega

/-- Within one length the shares are equal, so they are counted. -/
theorem sharesBelow_within_length (lt : Table Byte) {l n : Nat} (hl : 1 ≤ l) (hn : n ≤ 256) :
    sharesBelow lt (256 * l + n) = sharesBelow lt (256 * l) +
      (Finset.univ.filter fun b : Byte => b.toNat < n ∧ (tget lt b).toNat = l).card *
        2 ^ (255 - l) := by
  have hshare : ∀ b ∈ Finset.univ.filter fun b : Byte => b.toNat < n ∧ (tget lt b).toNat = l,
      kraftShare (tget lt b) = 2 ^ (255 - l) := fun b hb =>
    kraftShare_of_toNat (Finset.mem_filter.mp hb).2.2 hl
  rw [← Finset.sum_const_nat hshare, sharesBelow, sharesBelow, ← Finset.sum_union]
  · rw [← Finset.filter_or]
    refine Finset.sum_congr (Finset.filter_congr fun b _ => ?_) fun _ _ => rfl
    have hb := b.isLt
    rw [orderKey]
    omega
  · refine Finset.disjoint_filter.mpr fun b _ hbelow => ?_
    rw [orderKey] at hbelow
    omega

/-- `count[L]` as `sharesBelow_within_length` counts, over all 256 symbols. -/
theorem lengthCount_eq_card (lt : Table Byte) (l : Nat) : lengthCount lt l =
    (Finset.univ.filter fun b : Byte => b.toNat < 256 ∧ (tget lt b).toNat = l).card := by
  rw [lengthCount_eq, length_filter_symbols]
  refine congrArg Finset.card (Finset.filter_congr fun b _ => ?_)
  exact (and_iff_right b.isLt).symm

/-- `firstCode[L]`, before its reduction mod 2^64, is the sum of the shorter symbols' shares in
units of `2^(−L)`. -/
theorem exists_exact_firstCode (lt : Table Byte) {l : Nat} (hl : 1 ≤ l) (hle : l ≤ 255) :
    ∃ n, firstCode lt l = BitVec.ofNat 64 n ∧ n * 2 ^ (255 - l) = sharesBelow lt (256 * l) := by
  induction l, hl using Nat.le_induction with
  | base =>
    refine ⟨0, rfl, (Nat.zero_mul _).trans (Finset.sum_eq_zero fun a ha => ?_).symm⟩
    have hkey := (Finset.mem_filter.mp ha).2
    rw [orderKey] at hkey
    have habsent : tget lt a = 0 := BitVec.eq_of_toNat_eq (show (tget lt a).toNat = 0 by omega)
    rw [habsent, kraftShare_zero]
  | succ l hl ih =>
    obtain ⟨n, hfirst, hn⟩ := ih (by omega)
    refine ⟨2 * (n + lengthCount lt l), ?_, ?_⟩
    · rw [firstCode_succ lt hl, hfirst, ← BitVec.ofNat_add, BitVec.shiftLeft_eq_mul_twoPow,
        Nat.mul_comm, BitVec.ofNat_mul]
      rfl
    · have hpow : 2 ^ (255 - l) = 2 * 2 ^ (255 - (l + 1)) := by
        rw [← Nat.pow_succ', show (255 - (l + 1)).succ = 255 - l by omega]
      rw [Nat.mul_succ, sharesBelow_within_length lt hl le_rfl, ← hn, ← lengthCount_eq_card,
        ← Nat.add_mul, hpow]
      ring

/-- A present symbol's code, before its reduction mod 2^64, is the sum of the shares before it in
units of its own share. -/
theorem exists_exact_code {lt : Table Byte} {a : Byte} (h : tget lt a ≠ 0) :
    ∃ n, (canonicalEntry lt a).code = BitVec.ofNat 64 n ∧
      n * 2 ^ (255 - (tget lt a).toNat) = sharesBelow lt (orderKey lt a) := by
  have hpos : 1 ≤ (tget lt a).toNat :=
    Nat.one_le_iff_ne_zero.mpr fun h0 => h (BitVec.eq_of_toNat_eq h0)
  have hlen := (tget lt a).isLt
  obtain ⟨n, hfirst, hn⟩ := exists_exact_firstCode lt hpos (by omega)
  refine ⟨n + rankAmongEqual lt a, ?_, ?_⟩
  · rw [canonicalEntry_of_present h, hfirst, BitVec.ofNat_add]
  · rw [orderKey, sharesBelow_within_length lt hpos a.isLt.le, ← hn, Nat.add_mul,
      rankAmongEqual_eq_card]
    simp only [BitVec.toNat_inj]

/-- Under the Kraft premise a present symbol's code fits its length, so its reduction mod 2^64
changes nothing, and scaled to units of `2^(−255)` it is the sum of the shares before it. -/
theorem code_fits_and_scales {lt : Table Byte} (hkraft : kraftSum lt ≤ 2 ^ 255) {a : Byte}
    (hle : (tget lt a).toNat ≤ 64) (h : tget lt a ≠ 0) :
    (canonicalEntry lt a).code.toNat < 2 ^ (tget lt a).toNat ∧
      (canonicalEntry lt a).code.toNat * 2 ^ (255 - (tget lt a).toNat) =
        sharesBelow lt (orderKey lt a) := by
  obtain ⟨n, hcode, hn⟩ := exists_exact_code h
  have hend := (sharesBelow_add_share_le_kraftSum lt a).trans hkraft
  have hsplit : 2 ^ 255 = 2 ^ (tget lt a).toNat * 2 ^ (255 - (tget lt a).toNat) := by
    rw [← Nat.pow_add, Nat.add_sub_cancel' (by omega)]
  rw [kraftShare, if_neg h, ← hn, ← Nat.succ_mul, hsplit] at hend
  have hfits : n < 2 ^ (tget lt a).toNat := Nat.le_of_mul_le_mul_right hend (Nat.two_pow_pos _)
  have hexact : (canonicalEntry lt a).code.toNat = n := by
    rw [hcode, BitVec.toNat_ofNat]
    exact Nat.mod_eq_of_lt (hfits.trans_le (Nat.pow_le_pow_right Nat.two_pos hle))
  rw [hexact]
  exact ⟨hfits, hn⟩

/-- A bit string that begins another holds the high bits of the other's value. -/
theorem mod_eq_of_bitsMsb_prefix {v w : Word} {m d : Nat} (h : bitsMsb v m <+: bitsMsb w (m + d)) :
    v.toNat % 2 ^ m = w.toNat / 2 ^ d % 2 ^ m := by
  refine Nat.eq_of_testBit_eq fun k => ?_
  rw [Nat.testBit_mod_two_pow, Nat.testBit_mod_two_pow, Nat.testBit_div_two_pow]
  by_cases hk : k < m
  · have hbit := h.getElem (i := m - 1 - k) (by rw [bitsMsb_length]; omega)
    rw [bitsMsb_getElem, bitsMsb_getElem, show m - 1 - (m - 1 - k) = k by omega,
      show m + d - 1 - (m - 1 - k) = k + d by omega] at hbit
    exact congrArg _ hbit
  · rw [decide_eq_false hk, Bool.false_and, Bool.false_and]

/-- The scaled value of a code whose bits another's begin with lies in its interval. -/
theorem scaled_bounds_of_prefix {v w : Word} {m n : Nat} (hn : n ≤ 255) (hv : v.toNat < 2 ^ m)
    (hw : w.toNat < 2 ^ n) (h : bitsMsb v m <+: bitsMsb w n) :
    v.toNat * 2 ^ (255 - m) ≤ w.toNat * 2 ^ (255 - n) ∧
      w.toNat * 2 ^ (255 - n) < v.toNat * 2 ^ (255 - m) + 2 ^ (255 - m) := by
  have hmn : m ≤ n := by simpa using h.length_le
  obtain ⟨d, rfl⟩ := Nat.exists_eq_add_of_le hmn
  have hdiv : v.toNat = w.toNat / 2 ^ d := by
    have hhigh : w.toNat / 2 ^ d < 2 ^ m :=
      Nat.div_lt_of_lt_mul (by rwa [← Nat.pow_add, Nat.add_comm])
    rw [← Nat.mod_eq_of_lt hv, mod_eq_of_bitsMsb_prefix h, Nat.mod_eq_of_lt hhigh]
  have hscale : 2 ^ (255 - m) = 2 ^ d * 2 ^ (255 - (m + d)) := by
    rw [← Nat.pow_add, show d + (255 - (m + d)) = 255 - m by omega]
  rw [← Nat.succ_mul, hscale, ← Nat.mul_assoc, ← Nat.mul_assoc, hdiv]
  have hbelow : w.toNat < (w.toNat / 2 ^ d).succ * 2 ^ d :=
    (Nat.lt_mul_div_succ _ (Nat.two_pow_pos d)).trans_eq (Nat.mul_comm _ _)
  exact ⟨Nat.mul_le_mul_right _ (Nat.div_mul_le_self _ _),
    Nat.mul_lt_mul_of_pos_right hbelow (Nat.two_pow_pos _)⟩

/-- Settles O32: if the bits of `a`'s code began `b`'s, then `b`'s scaled code would lie in the
interval of `a`'s code, but the intervals of two symbols follow one another in the order of R161.
-/
theorem canonicalCodesPrefixFree : Obligations.CanonicalCodesPrefixFree := by
  intro lt c hc hkraft
  obtain ⟨hle, rfl⟩ := canonical_ok hc
  refine ⟨fun a ha => ?_, fun a b hab ha hb hprefix => ?_⟩
  · rw [tget_tbuild] at ha ⊢
    rw [canonicalEntry_len]
    exact (code_fits_and_scales hkraft (hle a) ((canonicalEntry_present_iff lt a).mp ha)).1
  · rw [tget_tbuild, canonicalEntry_present_iff] at ha hb
    obtain ⟨hfitsA, hscaledA⟩ := code_fits_and_scales hkraft (hle a) ha
    obtain ⟨hfitsB, hscaledB⟩ := code_fits_and_scales hkraft (hle b) hb
    rw [tget_tbuild, tget_tbuild, meaningfulBits, meaningfulBits, canonicalEntry_len,
      canonicalEntry_len] at hprefix
    obtain ⟨hlow, hhigh⟩ :=
      scaled_bounds_of_prefix (by have := hle b; omega) hfitsA hfitsB hprefix
    rw [hscaledA, hscaledB] at hlow hhigh
    rcases Nat.lt_or_gt_of_ne (mt orderKey_inj hab) with hbefore | hafter
    · have hnext := sharesBelow_add_share_le hbefore
      rw [kraftShare, if_neg ha] at hnext
      omega
    · have hnext := sharesBelow_add_share_le hafter
      have hpos := Nat.two_pow_pos (255 - (tget lt b).toNat)
      rw [kraftShare, if_neg hb] at hnext
      omega

end Sys2Proof.Machine
end

section
/-! PROOFS. The entry list: EN_PUSH, RD_ENTRY and CA_FROM_ENTRIES (44_canonical.md R163 to R165). -/

namespace Sys2Proof.Machine

theorem pushEntry_of_room {es : List Entry} (e : Entry) (h : es.length < 256) :
    pushEntry e es = .ok (es ++ [e]) := if_neg h.ne

theorem pushEntry_of_full {es : List Entry} (e : Entry) (h : es.length = 256) :
    pushEntry e es = .error .malformedHeader := if_pos h

/-- The upper of two fields side by side at the bottom of a 64-bit result register. -/
theorem extractLsb'_high_of_append {m n : Nat} (hi : BitVec m) (lo : BitVec n) (h : m + n ≤ 64) :
    ((hi ++ lo).setWidth 64).extractLsb' n m = hi := by
  refine BitVec.eq_of_getLsbD_eq fun k hk => ?_
  have hk64 : n + k < 64 := by omega
  simp [BitVec.getLsbD_append, hk, hk64]

/-- Settles O34: the two cases of the list's room, and of the index's. -/
theorem entryListPushAndRead : Obligations.EntryListPushAndRead := by
  intro s
  refine ⟨fun a l hroom => exec_of_result ?push,
    fun a l hfull => exec_of_fault (k := .malformedHeader) ?full,
    fun i hi => ⟨_, exec_of_result ?read, extractLsb'_low_of_append _ _ (by decide),
      extractLsb'_high_of_append _ _ (by decide), extractLsb'_above_append _ _ (by decide)⟩,
    fun i hi => exec_of_fault (k := .commandError) ?beyond⟩
  case push => rw [commandResult, pushEntry_of_room _ hroom, map_ok]
  case full => rw [commandResult, pushEntry_of_full _ hfull, map_error]
  case read => rw [commandResult, entryOperand_ok hi, map_ok]
  case beyond => rw [commandResult, entryOperand_error hi, map_error]

/-! The length table of an entry list. -/

theorem entryLengths_concat (es : List Entry) (e : Entry) :
    entryLengths (es ++ [e]) = tset (entryLengths es) e.sym e.len :=
  List.foldl_append

theorem entryLengths_of_not_mem {es : List Entry} {a : Byte} (h : a ∉ es.map Entry.sym) :
    tget (entryLengths es) a = 0 := by
  induction es using List.reverseRecOn with
  | nil => exact tget_fill 0 a
  | append_singleton es e ih =>
    rw [List.map_append, List.mem_append, not_or] at h
    obtain ⟨hes, he⟩ := h
    rw [entryLengths_concat, tget_tset_ne _ _ (List.ne_of_not_mem_cons he), ih hes]

theorem entryLengths_of_mem {es : List Entry} (hnodup : (es.map Entry.sym).Nodup) {e : Entry}
    (h : e ∈ es) : tget (entryLengths es) e.sym = e.len := by
  induction es using List.reverseRecOn with
  | nil => cases h
  | append_singleton es f ih =>
    rw [List.map_append, List.nodup_append'] at hnodup
    obtain ⟨hes, -, hdisjoint⟩ := hnodup
    rw [entryLengths_concat]
    rcases List.mem_append.mp h with hold | hnew
    · have hne : e.sym ≠ f.sym := fun heq =>
        hdisjoint (List.mem_map_of_mem hold) (heq ▸ List.mem_singleton_self _)
      rw [tget_tset_ne _ _ hne, ih hes hold]
    · rw [List.mem_singleton.mp hnew, tget_tset_self]

theorem entryLengths_le {es : List Entry} (hnodup : (es.map Entry.sym).Nodup)
    (hlen : ∀ e ∈ es, e.len.toNat ≤ 64) (a : Byte) : (tget (entryLengths es) a).toNat ≤ 64 := by
  by_cases ha : a ∈ es.map Entry.sym
  · obtain ⟨e, he, rfl⟩ := List.mem_map.mp ha
    rw [entryLengths_of_mem hnodup he]
    exact hlen e he
  · rw [entryLengths_of_not_mem ha]
    exact Nat.zero_le 64

theorem entryLengths_perm {es es' : List Entry} (hperm : es.Perm es')
    (hnodup : (es.map Entry.sym).Nodup) : entryLengths es = entryLengths es' := by
  have hsyms := hperm.map Entry.sym
  refine table_ext fun a => ?_
  by_cases ha : a ∈ es.map Entry.sym
  · obtain ⟨e, he, rfl⟩ := List.mem_map.mp ha
    rw [entryLengths_of_mem hnodup he,
      entryLengths_of_mem (hsyms.nodup_iff.mp hnodup) (hperm.mem_iff.mp he)]
  · rw [entryLengths_of_not_mem ha, entryLengths_of_not_mem (mt hsyms.mem_iff.mpr ha)]

/-! CA_FROM_ENTRIES. -/

/-- What R165 checks of the entries: every length in 1..64, and no symbol twice. -/
abbrev EntriesLegal (es : List Entry) : Prop :=
  (∀ e ∈ es, 1 ≤ e.len.toNat ∧ e.len.toNat ≤ 64) ∧ (es.map Entry.sym).Nodup

theorem any_length_illegal_iff (es : List Entry) :
    es.any (fun e => e.len = 0 ∨ 64 < e.len.toNat) = true ↔
      ¬ ∀ e ∈ es, 1 ≤ e.len.toNat ∧ e.len.toNat ≤ 64 := by
  have hzero : ∀ l : Byte, l = 0 ↔ l.toNat = 0 := fun l => BitVec.toNat_inj.symm
  simp only [List.any_eq_true, decide_eq_true_eq, not_forall, exists_prop, hzero]
  refine exists_congr fun e => and_congr_right fun _ => ?_
  omega

theorem canonicalOfEntries_eq (es : List Entry) : canonicalOfEntries es =
    if EntriesLegal es then canonical (entryLengths es) else .error .invalidCanonicalTable := by
  rw [canonicalOfEntries]
  by_cases hlen : ∀ e ∈ es, 1 ≤ e.len.toNat ∧ e.len.toNat ≤ 64
  · rw [if_neg fun h => (any_length_illegal_iff es).mp h hlen]
    by_cases hnodup : (es.map Entry.sym).Nodup
    · rw [if_neg (not_not.mpr hnodup), if_pos ⟨hlen, hnodup⟩]
    · rw [if_pos hnodup, if_neg fun h => hnodup h.2]
  · rw [if_pos ((any_length_illegal_iff es).mpr hlen), if_neg fun h => hlen h.1]

/-- Settles O35: legal entries make a length table without a length above 64, which `canonical`
accepts. -/
theorem caFromEntriesAssignsCodes : Obligations.CaFromEntriesAssignsCodes := by
  intro s
  refine ⟨fun hlen hnodup => ?_, fun hillegal =>
    exec_of_fault (k := .invalidCanonicalTable) ?fault⟩
  · have hc := canonical_of_le (entryLengths_le hnodup fun e he => (hlen e he).2)
    refine ⟨entryLengths s.entries, _, exec_of_result ?_, fun e => entryLengths_of_mem hnodup,
      fun a => entryLengths_of_not_mem, hc⟩
    rw [commandResult, canonicalOfEntries_eq, if_pos ⟨hlen, hnodup⟩, hc, map_ok, State.enCount]
  case fault =>
    rw [commandResult, canonicalOfEntries_eq, if_neg (not_and_or.mpr hillegal), map_error]

/-- Settles O36: both checks, and the length table of legal entries, are the same for every order of
the entries. -/
theorem arrivalOrderIrrelevant : Obligations.ArrivalOrderIrrelevant := by
  intro es es' hperm
  have hlegal : EntriesLegal es ↔ EntriesLegal es' :=
    and_congr (forall_congr' fun e => by rw [hperm.mem_iff]) (hperm.map Entry.sym).nodup_iff
  rw [canonicalOfEntries_eq, canonicalOfEntries_eq]
  by_cases h : EntriesLegal es
  · rw [if_pos h, if_pos (hlegal.mp h), entryLengths_perm hperm h.2]
  · rw [if_neg h, if_neg (mt hlegal.mpr h)]

end Sys2Proof.Machine
end

section
/-! PROOFS. The packer's commands: the bits each writes, how PK_FINISH completes the last byte, and the
payload of a whole run (45_bit_packer.md R182 to R186). -/

namespace Sys2Proof.Machine

/-! The three commands that write bits. -/

theorem writeBitList_singleton (b : Bool) (p : Packer) : writeBitList [b] p = writeBit b p := by
  rw [writeBitList]
  cases writeBit b p <;> rfl

/-- A command whose rule writes a list of bits appends them all, or finds no room (R181). -/
theorem exec_of_writeBitList {i : Instr} {s : State} {bits : List Bool} (hp : PackerOk s.pk)
    (h : commandResult i s = (writeBitList bits s.pk).map fun p => { s with pk := p }) :
    (RoomFor s.pk bits.length → ∃ q, exec i s = .next { s with pk := q } ∧ Appended s.pk q bits) ∧
    (¬ RoomFor s.pk bits.length → exec i s = .next (s.raise .countOverflow i.opcode)) := by
  obtain ⟨hroom, hfull⟩ := writeBitList_spec bits s.pk hp
  constructor
  · intro hr
    obtain ⟨q, hq, happended⟩ := hroom hr
    exact ⟨q, exec_of_result (by rw [h, hq, map_ok]), happended⟩
  · intro hr
    exact exec_of_fault (by rw [h, hfull hr, map_error])

theorem pkWbit_of_legal {a : Byte} {p : Packer} (ha : a.toNat ≤ 1) (hfin : p.fin = false) :
    pkWbit a p = writeBitList [a.toNat == 1] p := by
  simp [pkWbit, bitOperand_ok ha, hfin, writeBitList_singleton]

theorem pkWbit_of_illegal {a : Byte} {p : Packer} (h : 1 < a.toNat ∨ p.fin = true) :
    pkWbit a p = .error .commandError := by
  rcases Nat.lt_or_ge 1 a.toNat with ha | ha
  · simp [pkWbit, bitOperand_error ha]
  · simp [pkWbit, bitOperand_ok ha, h.resolve_left (Nat.not_lt.mpr ha)]

/-- Settles O37: a legal PK_WBIT writes a list of one bit. -/
theorem pkWbitWritesOneBit : Obligations.PkWbitWritesOneBit := by
  intro s a hp
  have hwrite (ha : a.toNat ≤ 1) (hfin : s.pk.fin = false) :=
    exec_of_writeBitList (i := .pkWbit a) hp (by rw [commandResult, pkWbit_of_legal ha hfin])
  refine ⟨fun ha hfin => (hwrite ha hfin).1, fun h => exec_of_fault (k := .commandError) ?illegal,
    fun ha hfin => (hwrite ha hfin).2⟩
  case illegal => rw [commandResult, pkWbit_of_illegal h, map_error]

theorem pkWbits_of_legal {n : Byte} {v : Word} {p : Packer} (hn : n.toNat ≤ 64)
    (hfin : p.fin = false) : pkWbits n v p = writeBitList (bitsMsb v n.toNat) p := by
  simp [pkWbits, countOperand_ok hn, hfin, writeBits]

theorem pkWbits_of_illegal {n : Byte} {v : Word} {p : Packer} (h : 64 < n.toNat ∨ p.fin = true) :
    pkWbits n v p = .error .commandError := by
  rcases Nat.lt_or_ge 64 n.toNat with hn | hn
  · simp [pkWbits, countOperand_error hn]
  · simp [pkWbits, countOperand_ok hn, h.resolve_left (Nat.not_lt.mpr hn)]

/-- Settles O38: a legal PK_WBITS writes ARG's low bits, in the order of R67. -/
theorem pkWbitsWritesLowBitsOfArg : Obligations.PkWbitsWritesLowBitsOfArg := by
  intro s n hp
  have hwrite (hn : n.toNat ≤ 64) (hfin : s.pk.fin = false) :=
    exec_of_writeBitList (i := .pkWbits n) hp (by rw [commandResult, pkWbits_of_legal hn hfin])
  rw [bitsMsb_length, bitsMsb_eq, argOperand] at hwrite
  refine ⟨fun hn hfin => (hwrite hn hfin).1, fun h => exec_of_fault (k := .commandError) ?illegal,
    fun hn hfin => (hwrite hn hfin).2⟩
  case illegal => rw [commandResult, pkWbits_of_illegal h, map_error]

theorem encodeSymbol_of_finished {c : CodeEntry} {p : Packer} (hfin : p.fin = true) :
    encodeSymbol c p = .error .commandError := if_pos hfin

theorem encodeSymbol_of_absent {c : CodeEntry} {p : Packer} (hfin : p.fin = false)
    (habsent : c.present = false) : encodeSymbol c p = .error .unencodableByte := by
  simp [encodeSymbol, hfin, habsent]

theorem encodeSymbol_of_present {c : CodeEntry} {p : Packer} (hfin : p.fin = false)
    (hpresent : c.present = true) : encodeSymbol c p = writeBitList (meaningfulBits c) p := by
  simp [encodeSymbol, hfin, hpresent, writeBits, meaningfulBits]

/-- Settles O39: ENC_BYTE of a byte with a code writes the code's meaningful bits. -/
theorem encByteWritesCode : Obligations.EncByteWritesCode := by
  intro s b hp
  have hwrite (hfin : s.pk.fin = false) (hpresent : (tget s.code b).present = true) :=
    exec_of_writeBitList (i := .encByte b) hp
      (by rw [commandResult, encodeSymbol_of_present hfin hpresent])
  rw [meaningfulBits, bitsMsb_length, bitsMsb_eq] at hwrite
  refine ⟨fun hfin hpresent => (hwrite hfin hpresent).1,
    fun hcode hpresent => (((codeOk_iff s.code).mp hcode b).1 hpresent).1,
    fun hfin => exec_of_fault (k := .commandError) ?finished,
    fun hfin habsent => exec_of_fault (k := .unencodableByte) ?absent,
    fun hfin hpresent => (hwrite hfin hpresent).2⟩
  case finished => rw [commandResult, encodeSymbol_of_finished hfin, map_error]
  case absent => rw [commandResult, encodeSymbol_of_absent hfin habsent, map_error]

/-! PK_FINISH. -/

/-- A left shift by `8 - n` leaves the low `n` bits of a byte first, and zeros after them. -/
theorem byteBits_shiftLeft (b : Byte) {n : Nat} (hn : n ≤ 8) :
    byteBits (b <<< (8 - n)) = bitsMsb (b.setWidth 64) n ++ List.replicate (8 - n) false := by
  refine List.ext_getElem (by simp [hn]) fun i hi _ => ?_
  have hi8 : i < 8 := by simpa using hi
  rw [byteBits_getElem, BitVec.getLsbD_shiftLeft, List.getElem_append]
  split
  · next hbits =>
    rw [bitsMsb_length] at hbits
    have hplace : 7 - i - (8 - n) = n - 1 - i := by omega
    have hin : 7 - i < 8 ∧ ¬ 7 - i < 8 - n ∧ n - 1 - i < 64 := by omega
    simp [bitsMsb_getElem, hplace, hin]
  · next hzeros =>
    rw [bitsMsb_length] at hzeros
    have hlow : 7 - i < 8 - n := by omega
    simp [hlow]

/-- `q` is `p` with its payload finished (R185). -/
structure Completed (p q : Packer) : Prop where
  padBits : q.padBits.toNat = (8 - p.nbits.toNat) % 8
  bits : packedBits q = packedBits p ++ List.replicate q.padBits.toNat false
  acc : q.acc = 0
  nbits : q.nbits = 0
  fin : q.fin = true
  count : q.byteCount.toNat = q.out.length

theorem packedBits_of_nbits_zero {p : Packer} (h : p.nbits = 0) :
    packedBits p = p.out.flatMap byteBits := by
  simp [packedBits, h, bitsMsb]

/-- The bits held once the padded last byte is out (R185). -/
theorem packedBits_padded (p : Packer) :
    (p.out ++ [paddedByte p]).flatMap byteBits =
      packedBits p ++ List.replicate (8 - p.nbits.toNat) false := by
  have hn : p.nbits.toNat ≤ 8 := by have := p.nbits.isLt; omega
  rw [List.flatMap_append, List.flatMap_singleton, paddedByte, byteBits_shiftLeft _ hn, packedBits,
    List.append_assoc]

theorem finishPacker_of_full {p : Packer} (hn : p.nbits ≠ 0) (hfull : p.byteCount = maxCount) :
    finishPacker p = .error .countOverflow := by
  rw [finishPacker, if_neg hn, emitPk_full _ _ hfull, map_error]

theorem finishPacker_of_room {p : Packer} (hp : PackerOk p)
    (hroom : p.nbits = 0 ∨ p.byteCount ≠ maxCount) :
    ∃ q, finishPacker p = .ok q ∧ Completed p q := by
  obtain ⟨hcount, -⟩ := hp
  by_cases hn : p.nbits = 0
  · refine ⟨_, if_pos hn, by simp [hn], ?bits, rfl, rfl, rfl, hcount⟩
    case bits =>
      rw [packedBits_of_nbits_zero hn, packedBits_of_nbits_zero rfl]
      exact (List.append_nil _).symm
  · have hne := hroom.resolve_left hn
    refine ⟨_, by rw [finishPacker, if_neg hn, emitPk_ok _ _ hne, map_ok], ?pad, ?bits, rfl, rfl,
      rfl, ?count⟩
    case pad => exact BitVec.toNat_ofNat _ _
    case bits =>
      have hpos : p.nbits.toNat ≠ 0 := fun h => hn (BitVec.eq_of_toNat_eq h)
      have hpad : (BitVec.ofNat 3 (8 - p.nbits.toNat)).toNat = 8 - p.nbits.toNat :=
        (BitVec.toNat_ofNat _ _).trans (Nat.mod_eq_of_lt (by omega))
      rw [packedBits_of_nbits_zero rfl, packedBits_padded, hpad]
    case count =>
      rw [toNat_succ_of_ne_max hne, hcount, List.length_append, List.length_singleton]

theorem pkFinish_of_unfinished {p : Packer} (hfin : p.fin = false) :
    pkFinish p = finishPacker p := by
  simp [pkFinish, hfin]

theorem pkFinish_of_finished {p : Packer} (hfin : p.fin = true) :
    pkFinish p = .error .commandError := if_pos hfin

/-- Settles O40: the last byte is complete already, or goes out padded where the count has room. -/
theorem pkFinishPadsWithZeros : Obligations.PkFinishPadsWithZeros := by
  intro s hp
  refine ⟨fun hfin hroom => ?_, fun hfin => exec_of_fault (k := .commandError) ?finished,
    fun hfin hn hfull => exec_of_fault (k := .countOverflow) ?full⟩
  · obtain ⟨q, hq, hpad, hbits, hacc, hnbits, hfinq, hcount⟩ := finishPacker_of_room hp hroom
    refine ⟨q, exec_of_result ?_, hpad, hbits, hacc, hnbits, hfinq, hcount⟩
    rw [commandResult, pkFinish_of_unfinished hfin, hq, map_ok]
  case finished => rw [commandResult, pkFinish_of_finished hfin, map_error]
  case full =>
    rw [commandResult, pkFinish_of_unfinished hfin, finishPacker_of_full hn hfull, map_error]

/-- Settles O41: the bits written and the padding fill whole bytes, whose number is the count. Where the
bits fill all the bytes the count can hold, no partial byte is left for PK_FINISH to emit. -/
theorem finishedPayloadIsTheBits : Obligations.FinishedPayloadIsTheBits := by
  intro bits hlen
  have hroom : RoomFor packerInit bits.length := by
    show 0 + (0 + bits.length) / 8 < 2 ^ 64
    omega
  obtain ⟨p, hp, happended⟩ := (writeBitList_spec bits packerInit packerOk_init).1 hroom
  have hsize : 8 * p.byteCount.toNat + p.nbits.toNat = bits.length :=
    (happended.room packerOk_init).trans (Nat.zero_add _)
  obtain ⟨hwritten, hpok, -, -⟩ := happended
  have hfits : p.nbits = 0 ∨ p.byteCount ≠ maxCount := by
    refine or_iff_not_imp_right.mpr fun hfull => BitVec.eq_of_toNat_eq ?_
    have hmax : p.byteCount.toNat = 2 ^ 64 - 1 := by rw [not_not.mp hfull]; rfl
    show p.nbits.toNat = 0
    omega
  obtain ⟨q, hq, hpad, hbits, -, hnbits, -, hcount⟩ := finishPacker_of_room hpok hfits
  have hout : q.out.flatMap byteBits = bits ++ List.replicate q.padBits.toNat false := by
    rw [← packedBits_of_nbits_zero hnbits, hbits, hwritten]
    rfl
  have hbytes := congrArg List.length hout
  rw [flatMap_byteBits_length, List.length_append, List.length_replicate] at hbytes
  have hnlt := p.nbits.isLt
  refine ⟨p, q, hp, hq, ?_, ?_, hout⟩
  · omega
  · split <;> omega

end Sys2Proof.Machine
end

section
/-! PROOFS. The unpacker's commands: filling and opening the payload, and reading its bits one at
a time and as a number (46_bit_unpacker.md R201 to R205). -/

namespace Sys2Proof.Machine

/-- Settles O42: IN_PUSH has room or not, and UP_OPEN's operand is a pad count or not. -/
theorem payloadPushAndOpen : Obligations.PayloadPushAndOpen := by
  refine fun s => ⟨fun b hroom => exec_of_result ?push,
    fun b hfull => exec_of_fault (k := .commandError) ?full, fun p hp => ?padCount,
    fun p hp => exec_of_fault (k := .malformedHeader) ?malformed⟩
  case push =>
    obtain ⟨-, hb⟩ := (pushByte_cases s.cfg b s.up).resolve_left fun h => hroom h.1
    rw [commandResult, hb, map_ok]
  case full =>
    obtain ⟨-, hb⟩ := (pushByte_cases s.cfg b s.up).resolve_right fun h => h.1 hfull
    rw [commandResult, hb, map_error]
  case padCount =>
    obtain ⟨q, hq, hvalue⟩ := padOperand_ok hp
    exact ⟨q, hvalue, exec_of_result (by rw [commandResult, hq, map_ok])⟩
  case malformed => rw [commandResult, padOperand_error hp, map_error]

/-- Settles O43: `readBit` answers END exactly when no bit is left, and else the next bit. -/
theorem upRbitReadsNextBit : Obligations.UpRbitReadsNextBit := by
  refine fun s => ⟨fun hend => exec_of_result ?atEnd,
    fun b bs hnext => ⟨moved s.up 1, exec_of_result ?bit, rfl, rfl, rfl, ?rest⟩⟩
  case atEnd => rw [commandResult, (readBit_none_iff s.up).mpr hend, Option.map_none, deliver_none]
  case bit =>
    have hvalue : (BitVec.ofBool b).setWidth 64 = if b then (1 : Word) else 0 := by
      cases b <;> rfl
    rw [commandResult, readBit_of_cons hnext, Option.map_some, deliver_some, hvalue]
  case rest => rw [upcomingBits_moved, hnext, List.drop_one, List.tail_cons]

/-! The number that a bit string spells. -/

theorem bitsValue_concat (bs : List Bool) (b : Bool) :
    bitsValue (bs ++ [b]) = 2 * bitsValue bs + b.toNat :=
  List.foldl_append

theorem bitsValue_lt (bs : List Bool) : bitsValue bs < 2 ^ bs.length := by
  induction bs using List.reverseRecOn with
  | nil => exact Nat.one_pos
  | append_singleton bs b ih =>
    have hb := Bool.toNat_le b
    rw [bitsValue_concat, List.length_append, List.length_singleton, Nat.pow_succ]
    omega

/-- One turn of R204's loop, `v := (v << 1) | b`, shifts the bit in at the low end. -/
theorem shift_or_bit_eq_shiftConcat (w : Word) (b : Bool) :
    (w <<< 1) ||| (BitVec.ofBool b).setWidth 64 = w.shiftConcat b := by
  refine BitVec.eq_of_getLsbD_eq fun k hk => ?_
  rw [BitVec.getLsbD_shiftConcat, BitVec.getLsbD_or, BitVec.getLsbD_shiftLeft,
    BitVec.getLsbD_setWidth, BitVec.getLsbD_ofBool]
  cases k <;> simp [hk]

theorem shift_or_bit_ofNat (v : Nat) (b : Bool) :
    (BitVec.ofNat 64 v <<< 1) ||| (BitVec.ofBool b).setWidth 64 =
      BitVec.ofNat 64 (2 * v + b.toNat) := by
  rw [shift_or_bit_eq_shiftConcat]
  refine BitVec.eq_of_toNat_eq ?_
  rw [BitVec.toNat_shiftConcat, BitVec.toNat_ofNat, BitVec.toNat_ofNat, Nat.shiftLeft_eq]
  omega

/-- R204's loop makes the word of the number that the bits spell. -/
theorem foldl_shift_or_eq (bs : List Bool) :
    bs.foldl (fun (w : Word) b => (w <<< 1) ||| (BitVec.ofBool b).setWidth 64) 0 =
      BitVec.ofNat 64 (bitsValue bs) :=
  List.foldl_hom (BitVec.ofNat 64) shift_or_bit_ofNat

theorem readBits_of_enough {n : Nat} {u : Unpacker} (h : n ≤ (upcomingBits u).length) :
    readBits n u =
      some (BitVec.ofNat 64 (bitsValue ((upcomingBits u).take n)), moved u n) := by
  have hloop := accumulateBits_spec ((upcomingBits u).take n) ((upcomingBits u).drop n) 0 u
    (List.take_append_drop n _).symm
  rw [List.length_take_of_le h, foldl_shift_or_eq] at hloop
  rw [readBits, ← upcomingBits_length, if_neg (Nat.not_lt.mpr h), hloop]

theorem readBits_of_short {n : Nat} {u : Unpacker} (h : (upcomingBits u).length < n) :
    readBits n u = none := by
  rw [readBits, ← upcomingBits_length, if_pos h]

/-- Settles O44: the operand is a count or not, and that many bits are left or not. At most 64 bits
spell a number that a word holds. -/
theorem upRbitsReadsNextBits : Obligations.UpRbitsReadsNextBits := by
  refine fun s n => ⟨fun hn hleft =>
      ⟨BitVec.ofNat 64 (bitsValue ((upcomingBits s.up).take n.toNat)),
        exec_of_result ?bits, ?value⟩,
    fun hn hshort => exec_of_result ?atEnd,
    fun hn => exec_of_fault (k := .commandError) ?illegal⟩
  case bits =>
    rw [commandResult, countOperand_ok hn, map_ok, readBits_of_enough hleft, deliver_some, moved]
  case value =>
    have hlt := bitsValue_lt ((upcomingBits s.up).take n.toNat)
    rw [List.length_take_of_le hleft] at hlt
    rw [BitVec.toNat_ofNat]
    exact Nat.mod_eq_of_lt (hlt.trans_le (Nat.pow_le_pow_right Nat.two_pos hn))
  case atEnd =>
    rw [commandResult, countOperand_ok hn, map_ok, readBits_of_short hshort, deliver_none]
  case illegal => rw [commandResult, countOperand_error hn, map_error]

end Sys2Proof.Machine
end

section
/-! PROOFS. The walker's commands: DEC_SYM and DEC_RUN decode the symbols whose paths come next, or
raise their faults (47_decode_trie.md R223 to R225). -/

namespace Sys2Proof.Machine

/-- Bits that end inside the trie decode no symbol (R224). -/
theorem decodeSymbol_of_end {t l r : TrieNode} {u : Unpacker} (d : DecodeOut)
    (hn : nodeAt t (upcomingBits u) = some (.inner l r)) :
    decodeSymbol t u d = .error .truncatedBitstream := by
  have hend : upcomingBits (moved u (upcomingBits u).length) = [] := by
    rw [upcomingBits_moved, List.drop_length]
  rw [decodeSymbol, walk_of_path _ [] u hn (List.append_nil _).symm, walk_inner_of_end hend]

/-- Bits that lead to an Empty place decode no symbol (R224). -/
theorem decodeSymbol_of_empty {t : TrieNode} {bits : List Bool} {u : Unpacker} (d : DecodeOut)
    (hn : nodeAt t bits = some .empty) (hbits : bits <+: upcomingBits u) :
    decodeSymbol t u d = .error .unmappedCode := by
  obtain ⟨rest, hrest⟩ := hbits
  rw [decodeSymbol, walk_of_path bits rest u hn hrest.symm, walk]

/-- Below an Inner, a leaf's path has a bit. -/
theorem length_pos_of_nodeAt_leaf {t : TrieNode} {bits : List Bool} {b : Byte}
    (hroot : ∃ l r, t = .inner l r) (hn : nodeAt t bits = some (.leaf b)) :
    1 ≤ bits.length := by
  obtain ⟨l, r, rfl⟩ := hroot
  refine List.length_pos_iff.mpr ?_
  rintro rfl
  cases hn

/-- Settles O46: the walk follows the coming bits to a leaf, to their end, or to an Empty place. -/
theorem decSymDecodesOneSymbol : Obligations.DecSymDecodesOneSymbol := by
  intro s hroot
  have hleaf {bits : List Bool} {b : Byte} (hn : nodeAt s.trie bits = some (.leaf b))
      (hbits : bits <+: upcomingBits s.up) : decodeSymbol s.trie s.up s.dec =
        (emitDec b s.dec).map fun d => (b, moved s.up bits.length, d) := by
    obtain ⟨rest, hrest⟩ := hbits
    exact decodeSymbol_of_leaf bits rest s.up s.dec hn hrest.symm
  refine ⟨fun bits b hn => ⟨length_pos_of_nodeAt_leaf hroot hn,
      fun ⟨_, _, _, hdepth⟩ => (length_le_trieDepth bits hn).trans hdepth⟩,
    fun bits b hn hbits => ⟨fun hroom => exec_of_result ?emitted,
      fun hfull => exec_of_fault (k := .countOverflow) ?full⟩,
    fun l r hn => exec_of_fault (k := .truncatedBitstream) ?truncated,
    fun bits hn hbits => exec_of_fault (k := .unmappedCode) ?unmapped⟩
  case emitted =>
    obtain ⟨-, he⟩ := (emitDec_cases b s.dec).resolve_left fun h => hroom h.1
    rw [commandResult, hleaf hn hbits, he, map_ok, map_ok, moved]
  case full =>
    obtain ⟨-, he⟩ := (emitDec_cases b s.dec).resolve_right fun h => h.1 hfull
    rw [commandResult, hleaf hn hbits, he, map_error, map_error]
  case truncated => rw [commandResult, decodeSymbol_of_end s.dec hn, map_error]
  case unmapped => rw [commandResult, decodeSymbol_of_empty s.dec hn hbits, map_error]

/-- DEC_RUN's loop ends in the fault of the first symbol that does not decode (R225). -/
theorem decodeSymbols_of_fault {t : TrieNode} {paths : List (List Bool × Byte)} {rest : List Bool}
    {n : Nat} {u : Unpacker} {d : DecodeOut} {k : FaultKind}
    (hpaths : ∀ p ∈ paths, nodeAt t p.1 = some (.leaf p.2))
    (hbits : upcomingBits u = paths.flatMap Prod.fst ++ rest) (hfew : paths.length < n)
    (hcount : d.count.toNat + paths.length < 2 ^ 64)
    (hfault : ∀ u d, upcomingBits u = rest → decodeSymbol t u d = .error k) :
    decodeSymbols t n u d = .error k := by
  obtain ⟨j, rfl⟩ := Nat.exists_eq_add_of_lt hfew
  have hrest : upcomingBits (moved u (paths.flatMap Prod.fst).length) = rest := by
    rw [upcomingBits_moved, hbits, List.drop_left]
  rw [Nat.add_assoc, decodeSymbols_of_paths paths rest (j + 1) u d hpaths hbits hcount,
    decodeSymbols, hfault _ _ hrest]

/-- Settles O47: the loop takes the paths that come, and then has made its turns or goes on to a
symbol that does not decode. -/
theorem decRunDecodesArgSymbols : Obligations.DecRunDecodesArgSymbols := by
  intro s paths rest _ hpaths hbits
  have hcount (hle : paths.length ≤ s.arg.toNat) :
      (0 : Word).toNat + paths.length < 2 ^ 64 :=
    (Nat.zero_add _).trans_lt (hle.trans_lt s.arg.isLt)
  have hrun (k : FaultKind) (hfew : paths.length < s.arg.toNat)
      (hfault : ∀ u d, upcomingBits u = rest → decodeSymbol s.trie u d = .error k) :
      commandResult .decRun s = .error k := by
    rw [commandResult, argOperand,
      decodeSymbols_of_fault hpaths hbits hfew (hcount hfew.le) hfault, map_error]
  refine ⟨fun hall => exec_of_result ?decoded,
    fun hfew l r hn => exec_of_fault (hrun .truncatedBitstream hfew fun u d hu => ?truncated),
    fun hfew bits hn hprefix => exec_of_fault (hrun .unmappedCode hfew fun u d hu => ?unmapped)⟩
  case decoded =>
    have hloop := decodeSymbols_of_paths paths rest 0 s.up { out := [], count := 0 } hpaths hbits
      (hcount hall.ge)
    have harg : BitVec.ofNat 64 paths.length = s.arg := by
      rw [← hall, BitVec.ofNat_toNat, BitVec.setWidth_eq]
    rw [Nat.add_zero, decodeSymbols, harg] at hloop
    rw [commandResult, argOperand, hall, hloop, map_ok]
    simp [moved]
  case truncated => exact decodeSymbol_of_end d (hu ▸ hn)
  case unmapped => exact decodeSymbol_of_empty d hn (hu ▸ hprefix)

end Sys2Proof.Machine
end

section
/-! PROOFS. DT_BUILD: the trie it makes of a CODE table, and that it succeeds exactly where no code
begins another (47_decode_trie.md R220 to R222). -/

namespace Sys2Proof.Machine

/-- `t` is the trie of the codes that the present ones among `syms` have (R220): a leaf for each at
the end of its meaningful bits, and an Inner at the root and on the way to each leaf. -/
structure TrieOf (code : Table CodeEntry) (syms : List Byte) (t : TrieNode) : Prop where
  leaf_iff : ∀ bits b, nodeAt t bits = some (.leaf b) ↔
    b ∈ syms ∧ (tget code b).present = true ∧ bits = meaningfulBits (tget code b)
  inner_iff : ∀ bits, (∃ l r, nodeAt t bits = some (.inner l r)) ↔
    bits = [] ∨ ∃ b ∈ syms, (tget code b).present = true ∧
      bits <+: meaningfulBits (tget code b) ∧ bits ≠ meaningfulBits (tget code b)

theorem TrieOf.root {code : Table CodeEntry} {syms : List Byte} {t : TrieNode}
    (ht : TrieOf code syms t) : ∃ l r, t = .inner l r := by
  simpa [nodeAt] using (ht.inner_iff []).mpr (.inl rfl)

theorem trieOf_emptyTrie (code : Table CodeEntry) : TrieOf code [] emptyTrie where
  leaf_iff bits b := by
    rcases bits with _ | ⟨_ | _, _ | _⟩ <;> simp [emptyTrie, nodeAt]
  inner_iff bits := by
    rcases bits with _ | ⟨_ | _, _ | _⟩ <;> simp [emptyTrie, nodeAt]

theorem TrieOf.concat_absent {code : Table CodeEntry} {syms : List Byte} {t : TrieNode} {a : Byte}
    (ht : TrieOf code syms t) (ha : ¬ (tget code a).present = true) :
    TrieOf code (syms ++ [a]) t where
  leaf_iff bits b := by
    have hb : b = a → ¬ (tget code b).present = true := fun he => he ▸ ha
    rw [ht.leaf_iff, List.mem_append, List.mem_singleton]
    tauto
  inner_iff bits := by
    simp [ht.inner_iff, or_and_right, exists_or, ha]

theorem TrieOf.concat_present {code : Table CodeEntry} {syms : List Byte} {t t' : TrieNode}
    {a : Byte} {k : Nat} (ht : TrieOf code syms t) (ha : (tget code a).present = true)
    (h : insertAt a (meaningfulBits (tget code a)) t = some (t', k)) :
    TrieOf code (syms ++ [a]) t' where
  leaf_iff bits b := by
    obtain ⟨-, -, -, hleaf⟩ := insertAt_spec h
    rw [hleaf, ht.leaf_iff, List.mem_append, List.mem_singleton]
    constructor
    · rintro (⟨rfl, rfl⟩ | ⟨hb, hrest⟩)
      · exact ⟨.inr rfl, ha, rfl⟩
      · exact ⟨.inl hb, hrest⟩
    · rintro ⟨hb | rfl, hpresent, rfl⟩
      · exact .inr ⟨hb, hpresent, rfl⟩
      · exact .inl ⟨rfl, rfl⟩
  inner_iff bits := by
    simp [insertAt_inner h, ht.inner_iff, or_and_right, exists_or, ha, or_left_comm, or_comm]

/-- An insertion fails only where a leaf lies on the way, or an Inner at the end (R221). -/
theorem insertAt_eq_none {s : Byte} {bits : List Bool} {t : TrieNode}
    (h : insertAt s bits t = none) :
    (∃ p b, p <+: bits ∧ nodeAt t p = some (.leaf b)) ∨
      ∃ l r, nodeAt t bits = some (.inner l r) := by
  induction bits generalizing t with
  | nil =>
    cases t with
    | empty => cases h
    | leaf b => exact .inl ⟨[], b, List.nil_prefix, rfl⟩
    | inner l r => exact .inr ⟨l, r, rfl⟩
  | cons x xs ih =>
    cases t with
    | empty =>
      obtain ⟨t, ht, -⟩ := insertAt_empty s (x :: xs)
      cases h.symm.trans ht
    | leaf b => exact .inl ⟨[], b, List.nil_prefix, rfl⟩
    | inner l r =>
      have hchild : insertAt s xs (if x then r else l) = none := by
        cases x <;> simpa [insertAt] using h
      have hstep (p : List Bool) :
          nodeAt (.inner l r) (x :: p) = nodeAt (if x then r else l) p := by
        cases x <;> rfl
      rcases ih hchild with ⟨p, b, hp, hb⟩ | hinner
      · exact .inl ⟨x :: p, b, (List.prefix_cons_inj x).mpr hp, (hstep p).trans hb⟩
      · exact .inr (by rwa [hstep])

/-- A code that finds no place has no bits, or begins or continues the code of a symbol that has one
(R222). -/
theorem TrieOf.collision {code : Table CodeEntry} {syms : List Byte} {t : TrieNode} {a : Byte}
    {bits : List Bool} (ht : TrieOf code syms t) (h : insertAt a bits t = none) :
    bits = [] ∨ ∃ b ∈ syms, (tget code b).present = true ∧
      (bits <+: meaningfulBits (tget code b) ∨ meaningfulBits (tget code b) <+: bits) := by
  rcases insertAt_eq_none h with ⟨p, b, hp, hleaf⟩ | hinner
  · obtain ⟨hb, hpresent, rfl⟩ := (ht.leaf_iff p b).mp hleaf
    exact .inr ⟨b, hb, hpresent, .inr hp⟩
  · exact ((ht.inner_iff bits).mp hinner).imp_right
      fun ⟨b, hb, hpresent, hprefix, _⟩ => ⟨b, hb, hpresent, .inl hprefix⟩

/-- One turn of DT_BUILD's loop (R220): the symbol is absent and adds nothing, has its code
inserted, or ends the loop. -/
theorem insertAll_cons {code : Table CodeEntry} {done : List Byte} {t : TrieNode}
    (ht : TrieOf code done t) (a : Byte) (rest : List Byte) (n : Nat) :
    (∃ u m, insertAll code (a :: rest) (t, n) = insertAll code rest (u, m) ∧
      TrieOf code (done ++ [a]) u) ∨
    (insertAll code (a :: rest) (t, n) = .error .invalidCanonicalTable ∧
      (tget code a).present = true ∧ insertAt a (meaningfulBits (tget code a)) t = none) := by
  rw [insertAll]
  split
  · next hpresent =>
    split
    · next u k hu => exact .inl ⟨u, n + k, rfl, ht.concat_present hpresent hu⟩
    · next hnone => exact .inr ⟨rfl, hpresent, hnone⟩
  · next habsent => exact .inl ⟨t, n, rfl, ht.concat_absent habsent⟩

theorem insertAll_trieOf {code : Table CodeEntry} {done syms : List Byte} {t t' : TrieNode}
    {n n' : Nat} (ht : TrieOf code done t) (h : insertAll code syms (t, n) = .ok (t', n')) :
    TrieOf code (done ++ syms) t' := by
  induction syms generalizing done t n with
  | nil =>
    cases h
    rwa [List.append_nil]
  | cons a rest ih =>
    rcases insertAll_cons ht a rest n with ⟨u, m, hstep, hu⟩ | ⟨hfault, -⟩
    · rw [List.append_cons]
      exact ih hu (hstep ▸ h)
    · cases hfault.symm.trans h

/-- DT_BUILD's loop raises InvalidCanonicalTable alone, and over codes of at least one bit each only
where some code begins another (R222). -/
theorem insertAll_error {code : Table CodeEntry} {done syms : List Byte} {t : TrieNode} {n : Nat}
    {k : FaultKind} (ht : TrieOf code done t) (hnodup : (done ++ syms).Nodup)
    (h : insertAll code syms (t, n) = .error k) :
    k = .invalidCanonicalTable ∧ ((∀ a, (tget code a).present = true →
      meaningfulBits (tget code a) ≠ []) → ¬ CodesPrefixFree code) := by
  induction syms generalizing done t n with
  | nil => cases h
  | cons a rest ih =>
    rcases insertAll_cons ht a rest n with ⟨u, m, hstep, hu⟩ | ⟨hfault, ha, hnone⟩
    · exact ih hu (List.append_cons done a rest ▸ hnodup) (hstep ▸ h)
    · refine ⟨(Except.error.inj (hfault.symm.trans h)).symm, fun hbits hfree => ?_⟩
      obtain ⟨b, hb, hpresent, hprefix⟩ := (ht.collision hnone).resolve_left (hbits a ha)
      have hne : b ≠ a := (List.nodup_append.mp hnodup).2.2 b hb a List.mem_cons_self
      exact hprefix.elim (hfree a b hne.symm ha hpresent) (hfree b a hne hpresent ha)

theorem buildTrie_trieOf {code : Table CodeEntry} {t : TrieNode} {n : Nat}
    (h : buildTrie code = .ok (t, n)) : TrieOf code symbols t :=
  insertAll_trieOf (trieOf_emptyTrie code) h

/-- A leaf's path does not begin another leaf's. -/
theorem eq_of_leaf_prefix {t : TrieNode} {p q : List Bool} {a b : Byte}
    (ha : nodeAt t p = some (.leaf a)) (hb : nodeAt t q = some (.leaf b)) (h : p <+: q) :
    a = b := by
  obtain ⟨rest, rfl⟩ := h
  rw [nodeAt_append, ha, Option.bind_some] at hb
  cases rest <;> simp_all [nodeAt]

theorem TrieOf.codesPrefixFree {code : Table CodeEntry} {t : TrieNode}
    (ht : TrieOf code symbols t) : CodesPrefixFree code := by
  intro a b hab ha hb hprefix
  have hleaf {c : Byte} (hc : (tget code c).present = true) :=
    (ht.leaf_iff (meaningfulBits (tget code c)) c).mpr ⟨mem_symbols c, hc, rfl⟩
  exact hab (eq_of_leaf_prefix (hleaf ha) (hleaf hb) hprefix)

theorem meaningfulBits_ne_nil {code : Table CodeEntry} (hcode : CodeOk code) {a : Byte}
    (ha : (tget code a).present = true) : meaningfulBits (tget code a) ≠ [] := by
  have hlen := (((codeOk_iff code).mp hcode a).1 ha).1
  rw [meaningfulBits, ← List.length_pos_iff, bitsMsb_length]
  exact hlen

theorem buildTrie_of_prefixFree {code : Table CodeEntry} (hcode : CodeOk code)
    (hfree : CodesPrefixFree code) : ∃ t n, buildTrie code = .ok (t, n) := by
  cases h : buildTrie code with
  | ok r => exact ⟨r.1, r.2, rfl⟩
  | error k =>
    obtain ⟨-, hnot⟩ := insertAll_error (trieOf_emptyTrie code) symbols_nodup h
    exact absurd hfree (hnot fun _ => meaningfulBits_ne_nil hcode)

theorem buildTrie_of_not_prefixFree {code : Table CodeEntry} (hnot : ¬ CodesPrefixFree code) :
    buildTrie code = .error .invalidCanonicalTable := by
  cases h : buildTrie code with
  | ok r => exact absurd (buildTrie_trieOf h).codesPrefixFree hnot
  | error k => rw [(insertAll_error (trieOf_emptyTrie code) symbols_nodup h).1]

/-- DT_BUILD on codes of which one begins another (R222). -/
theorem exec_dtBuild_of_not_prefixFree {s : State} (hnot : ¬ CodesPrefixFree s.code) :
    exec .dtBuild s = .next (s.raise .invalidCanonicalTable 0x70) :=
  exec_of_fault (by rw [commandResult, buildTrie_of_not_prefixFree hnot, map_error])

/-- Settles O45: codes of which none begins another never collide, and where a trie holds all the
codes, none begins another, since no leaf of a trie lies on the way to another. -/
theorem dtBuildAcceptsPrefixFreeCodes : Obligations.DtBuildAcceptsPrefixFreeCodes := by
  refine fun s hcode => ⟨fun hfree => ?_, exec_dtBuild_of_not_prefixFree⟩
  obtain ⟨t, n, hbuild⟩ := buildTrie_of_prefixFree hcode hfree
  obtain ⟨-, hcount, hle, -⟩ := insertAll_spec hcode (t := emptyTrie) ⟨_, _, rfl⟩ hbuild
  have ht := buildTrie_trieOf hbuild
  refine ⟨t, n, exec_of_result (by rw [commandResult, hbuild, map_ok]), hcount, ?_,
    fun bits b => ?_, fun bits => ?_⟩
  · rw [hcount]
    exact hle.trans_eq (by rw [symbols_length]; rfl)
  · simpa using ht.leaf_iff bits b
  · simpa using ht.inner_iff bits

end Sys2Proof.Machine
end

section
/-! PROOFS. Oversubscribed lengths (44_canonical.md R167, 47_decode_trie.md R222,
93_implementation_defined.md GK3): codes of which none begins another meet Kraft's inequality. -/

namespace Sys2Proof.Machine

/-- A run of words none of which begins another reads in one way only. -/
theorem uniquelyDecodable_of_prefixFree {S : Set (List Bool)} (hnil : [] ∉ S)
    (hfree : ∀ v ∈ S, ∀ w ∈ S, v <+: w → v = w) :
    InformationTheory.UniquelyDecodable S := by
  intro vs ws hvs hws hsame
  induction vs generalizing ws with
  | nil =>
    cases ws with
    | nil => rfl
    | cons w ws =>
      simp only [List.forall_mem_cons, List.flatten_nil, List.flatten_cons] at hws hsame
      exact absurd ((List.append_eq_nil_iff.mp hsame.symm).1 ▸ hws.1) hnil
  | cons v vs ih =>
    cases ws with
    | nil =>
      simp only [List.forall_mem_cons, List.flatten_nil, List.flatten_cons] at hvs hsame
      exact absurd ((List.append_eq_nil_iff.mp hsame).1 ▸ hvs.1) hnil
    | cons w ws =>
      simp only [List.forall_mem_cons, List.flatten_cons] at hvs hws hsame
      have hvw : v = w := by
        rcases List.prefix_or_prefix_of_prefix (List.prefix_append v vs.flatten)
          (hsame ▸ List.prefix_append w ws.flatten) with h | h
        · exact hfree v hvs.1 w hws.1 h
        · exact (hfree w hws.1 v hvs.1 h).symm
      subst hvw
      rw [ih ws hvs.2 hws.2 (List.append_cancel_left hsame)]

/-- The present symbols of a CODE table. -/
def presentCodes (code : Table CodeEntry) : Finset Byte :=
  Finset.univ.filter fun a => (tget code a).present = true

theorem mem_presentCodes {code : Table CodeEntry} {a : Byte} :
    a ∈ presentCodes code ↔ (tget code a).present = true := by
  simp [presentCodes]

/-- Kraft's inequality for the codes of a CODE table. -/
theorem sum_half_pow_len_le_one {code : Table CodeEntry} (hcode : CodeOk code)
    (hfree : CodesPrefixFree code) :
    ∑ a ∈ presentCodes code, (1 / 2 : ℝ) ^ (tget code a).len.toNat ≤ 1 := by
  have hsame {a b : Byte} (ha : a ∈ presentCodes code) (hb : b ∈ presentCodes code)
      (h : meaningfulBits (tget code a) <+: meaningfulBits (tget code b)) : a = b :=
    not_not.mp fun hne => hfree a b hne (mem_presentCodes.mp ha) (mem_presentCodes.mp hb) h
  have hunique : InformationTheory.UniquelyDecodable
      (((presentCodes code).image fun a => meaningfulBits (tget code a) : Finset (List Bool)) :
        Set (List Bool)) := by
    refine uniquelyDecodable_of_prefixFree ?_ ?_
    · intro hnil
      obtain ⟨a, ha, hbits⟩ := Finset.mem_image.mp hnil
      exact meaningfulBits_ne_nil hcode (mem_presentCodes.mp ha) hbits
    · intro v hv w hw h
      obtain ⟨a, ha, rfl⟩ := Finset.mem_image.mp hv
      obtain ⟨b, hb, rfl⟩ := Finset.mem_image.mp hw
      rw [hsame ha hb h]
  have hkraft := InformationTheory.kraft_mcmillan_inequality hunique
  rw [Finset.sum_image fun a ha b hb (h : meaningfulBits _ = meaningfulBits _) =>
    hsame ha hb (h ▸ List.prefix_rfl)] at hkraft
  simpa [meaningfulBits] using hkraft

/-- In units of `2^(−255)` the shares of `canonical`'s lengths are those of its present codes. -/
theorem kraftSum_eq_sum_presentCodes {lt : Table Byte} {code : Table CodeEntry}
    (h : canonical lt = .ok code) :
    (kraftSum lt : ℝ) =
      2 ^ 255 * ∑ a ∈ presentCodes code, (1 / 2 : ℝ) ^ (tget code a).len.toNat := by
  obtain ⟨hle, rfl⟩ := canonical_ok h
  have hshare (a : Byte) : (kraftShare (tget lt a) : ℝ) =
      if tget lt a ≠ 0 then 2 ^ 255 * (1 / 2 : ℝ) ^ (tget lt a).toNat else 0 := by
    by_cases ha : tget lt a = 0
    · rw [ha, kraftShare_zero, if_neg (not_not.mpr rfl), Nat.cast_zero]
    · have hlen := hle a
      rw [kraftShare, if_neg ha, if_pos ha, Nat.cast_pow, Nat.cast_ofNat,
        pow_sub₀ _ two_ne_zero (by omega), one_div, inv_pow]
  rw [kraftSum_eq_sum symbols_nodup fun a ha => absurd (mem_symbols a) ha,
    ← List.sum_toFinset _ symbols_nodup, toFinset_symbols, Nat.cast_sum, Finset.mul_sum,
    presentCodes, Finset.sum_filter]
  simp [hshare, canonicalEntry_present_iff, canonicalEntry_len]

/-- Settles O33: if no code began another, their shares would add up to 1 at most. -/
theorem oversubscribedTablesNeverBuild : Obligations.OversubscribedTablesNeverBuild := by
  intro s lt hc hover
  have hnot : ¬ CodesPrefixFree s.code := by
    intro hfree
    have hkraft := sum_half_pow_len_le_one (canonical_codeOk hc) hfree
    have hsum : (kraftSum lt : ℝ) ≤ 2 ^ 255 := by
      rw [kraftSum_eq_sum_presentCodes hc]
      exact mul_le_of_le_one_right (by positivity) hkraft
    exact absurd (by exact_mod_cast hsum) (Nat.not_le.mpr hover)
  exact ⟨hnot, exec_dtBuild_of_not_prefixFree hnot⟩

end Sys2Proof.Machine
end

section
/-! PROOFS. Decoding inverts encoding (47_decode_trie.md R226): the payload that ENC_BYTE and
PK_FINISH make opens to the bits written, and these are the paths of the encoded bytes' leaves. -/

namespace Sys2Proof.Machine

theorem writeBitList_appended {bits : List Bool} {p q : Packer} (hp : PackerOk p)
    (h : writeBitList bits p = .ok q) : Appended p q bits := by
  obtain ⟨hroom, hfull⟩ := writeBitList_spec bits p hp
  by_cases hr : RoomFor p bits.length
  · obtain ⟨r, hr, happended⟩ := hroom hr
    exact Except.ok.inj (hr.symm.trans h) ▸ happended
  · cases (hfull hr).symm.trans h

/-- A byte that is encoded has a code, whose meaningful bits are written (R184). -/
theorem encodeSymbol_ok {c : CodeEntry} {p q : Packer} (h : encodeSymbol c p = .ok q) :
    c.present = true ∧ writeBitList (meaningfulBits c) p = .ok q := by
  unfold encodeSymbol at h
  split at h
  · cases h
  · split at h
    · cases h
    · next hpresent => exact ⟨Bool.not_eq_false _ ▸ hpresent, h⟩

/-- Encoded bytes have codes, and the codes' bits are written in their order (R187). -/
theorem encodeBytes_appended {code : Table CodeEntry} {bs : List Byte} {p q : Packer}
    (hp : PackerOk p) (h : encodeBytes code bs p = .ok q) :
    (∀ b ∈ bs, (tget code b).present = true) ∧
      Appended p q (bs.flatMap fun b => meaningfulBits (tget code b)) := by
  induction bs generalizing p with
  | nil =>
    cases h
    exact ⟨List.forall_mem_nil _, Appended.refl hp⟩
  | cons b bs ih =>
    rw [encodeBytes] at h
    split at h
    · next r hr =>
      obtain ⟨hpresent, hwrite⟩ := encodeSymbol_ok hr
      have hfirst := writeBitList_appended hp hwrite
      obtain ⟨hall, hrest⟩ := ih (writeBitList_packerOk hp hwrite) h
      exact ⟨List.forall_mem_cons.mpr ⟨hpresent, hall⟩, hfirst.trans hrest⟩
    · cases h

theorem finishPacker_completed {p q : Packer} (hp : PackerOk p) (h : finishPacker p = .ok q) :
    Completed p q := by
  have hroom : p.nbits = 0 ∨ p.byteCount ≠ maxCount := by
    refine or_iff_not_imp_left.mpr fun hn hfull => ?_
    cases (finishPacker_of_full hn hfull).symm.trans h
  obtain ⟨r, hr, hcompleted⟩ := finishPacker_of_room hp hroom
  exact Except.ok.inj (hr.symm.trans h) ▸ hcompleted

/-- A finished payload, opened with its pad count, gives the bits that were packed (R46, R185). -/
theorem upcomingBits_of_completed {p q : Packer} (h : Completed p q) :
    upcomingBits { buf := q.out, pad := q.padBits, pos := 0 } = packedBits p := by
  obtain ⟨-, hbits, -, hnbits, -, -⟩ := h
  rw [packedBits_of_nbits_zero hnbits] at hbits
  have hsize := congrArg List.length hbits
  rw [flatMap_byteBits_length, List.length_append, List.length_replicate] at hsize
  have hvalid : (Unpacker.mk q.out q.padBits 0).valid = (packedBits p).length := by
    rw [Unpacker.valid, Unpacker.inLen]
    dsimp only
    split <;> omega
  rw [upcomingBits, hvalid, List.drop_zero]
  dsimp only
  rw [hbits, List.take_left]

/-- Settles O48: the coming bits are the paths of the encoded bytes' leaves, one after the other. -/
theorem decodingInvertsEncoding : Obligations.DecodingInvertsEncoding := by
  intro s code bs p q n hencode hfinish hbuild hup harg
  have ht := buildTrie_trieOf hbuild
  obtain ⟨hpresent, hwritten, hpok, -⟩ := encodeBytes_appended packerOk_init hencode
  have hcoming : upcomingBits s.up = bs.flatMap fun b => meaningfulBits (tget code b) := by
    rw [hup, upcomingBits_of_completed (finishPacker_completed hpok hfinish), hwritten]
    rfl
  have hvalid : s.up.valid = (upcomingBits s.up).length := by
    rw [upcomingBits_length, hup]
    rfl
  have hleaves : ∀ path ∈ bs.map fun b => (meaningfulBits (tget code b), b),
      nodeAt s.trie path.1 = some (.leaf path.2) := by
    intro path hpath
    obtain ⟨b, hb, rfl⟩ := List.mem_map.mp hpath
    exact (ht.leaf_iff _ b).mpr ⟨mem_symbols b, hpresent b hb, rfl⟩
  obtain ⟨hdecoded, -⟩ := decRunDecodesArgSymbols s _ [] ht.root hleaves
    (by rw [hcoming, List.append_nil, List.flatMap_map])
  rw [hdecoded (harg.trans (List.length_map _).symm), hvalid, hcoming, List.flatMap_map,
    List.map_map]
  simp [hup, Function.comp_def]

end Sys2Proof.Machine
end

section
/-! PROOFS. The container: the parser accepts exactly what the host writes (48_host_container.md R240
to R243). -/

namespace Sys2Proof.Machine

/-- A computation in two parts succeeds exactly where both do. -/
theorem bind_eq_ok {ε α β : Type} {x : Except ε α} {f : α → Except ε β} {b : β} :
    (x >>= f) = .ok b ↔ ∃ a, x = .ok a ∧ f a = .ok b := by
  cases x with
  | ok a => exact ⟨fun h => ⟨a, rfl, h⟩, fun ⟨_, h, hb⟩ => Except.ok.inj h ▸ hb⟩
  | error e => exact ⟨(nomatch ·), fun ⟨_, h, _⟩ => nomatch h⟩

/-- A computation that has its first part's value goes on with the second. -/
theorem ok_bind {ε α β : Type} (a : α) (f : α → Except ε β) :
    ((Except.ok a : Except ε α) >>= f) = f a := rfl

/-- A field's bytes are those of its value, in as many bytes as the field has (R240). -/
theorem littleEndian_of_length {n v : Nat} {bs : List Byte} (hlen : bs.length = n)
    (hv : littleEndianValue bs = v) : littleEndian n v = bs := by
  rw [← hlen, ← hv, littleEndian_littleEndianValue]

/-- The one byte of a one-byte field is its value (R240). -/
theorem singleton_ofNat_littleEndianValue {bs : List Byte} (h : bs.length = 1) :
    [BitVec.ofNat 8 (littleEndianValue bs)] = bs := by
  obtain ⟨b, rfl⟩ := List.length_eq_one_iff.mp h
  simp [littleEndianValue]

theorem writeContainer_eq_some {c : Container} {bytes : List Byte} :
    writeContainer c = some bytes ↔ c.Wf ∧ bytes = headerBytes c ++ c.payload := by
  rw [writeContainer, Option.ite_none_right_eq_some, Option.some.injEq, eq_comm (b := bytes)]

/-- The parser's run over a container's own bytes: each field stands first when its turn comes, and
has its value back (R243). -/
theorem parseContainer_headerBytes {c : Container} (h : c.Wf) :
    parseContainer (headerBytes c ++ c.payload) = .ok c := by
  obtain ⟨hext, htable, hlens, hpad⟩ := h
  have hsize : littleEndianValue (littleEndian 8 c.originalSize.toNat) = c.originalSize.toNat :=
    littleEndianValue_littleEndian 8 _ c.originalSize.isLt
  have hextLen : littleEndianValue (littleEndian 1 c.extension.length) = c.extension.length :=
    littleEndianValue_littleEndian 1 _ (by omega)
  have hcount : littleEndianValue (littleEndian 2 c.table.length) = c.table.length :=
    littleEndianValue_littleEndian 2 _ (by omega)
  have hpadValue : littleEndianValue [c.padBits] = c.padBits.toNat := rfl
  simp only [parseContainer, headerBytes, List.append_assoc, bind_eq_ok, takeField_eq_ok,
    require_eq_ok, Prod.exists]
  refine ⟨_, _, ⟨rfl, rfl⟩, (), rfl, _, _, ⟨rfl, rfl⟩, (), rfl,
    _, _, ⟨rfl, littleEndian_length 8 _⟩, _, _, ⟨rfl, littleEndian_length 1 _⟩,
    _, _, ⟨rfl, hextLen.symm⟩, _, _, ⟨rfl, littleEndian_length 2 _⟩, (), ?count,
    _, _, ⟨rfl, ?table⟩, (), ?lengths, _, _, ⟨rfl, rfl⟩, (), ?pad, ?fields⟩
  case count => simpa [hcount] using htable
  case table => rw [hcount, tableBytes_length]
  case lengths => simpa using hlens
  case pad => simpa [hpadValue] using hpad
  case fields => simp [hsize, hpadValue]

/-- Whatever the parser accepts is cut into fields that are those of the container it answers, which
keeps the format's limits (R243). -/
theorem eq_headerBytes_of_parseContainer {c : Container} {bytes : List Byte}
    (h : parseContainer bytes = .ok c) : c.Wf ∧ bytes = headerBytes c ++ c.payload := by
  simp only [parseContainer, bind_eq_ok, takeField_eq_ok, require_eq_ok, Prod.exists, beq_iff_eq,
    decide_eq_true_eq, List.all_eq_true, Bool.and_eq_true, Except.ok.injEq] at h
  obtain ⟨_, _, ⟨rfl, -⟩, -, rfl, _, _, ⟨rfl, -⟩, -, rfl, size, _, ⟨rfl, hsize⟩,
    extLen, _, ⟨rfl, hextLen⟩, ext, _, ⟨rfl, hext⟩, count, _, ⟨rfl, hcount⟩, -, hcountLe,
    table, _, ⟨rfl, htable⟩, -, hlens, pad, payload, ⟨rfl, hpad⟩, -, hpadLe, rfl⟩ := h
  have hsizeLt : littleEndianValue size < 256 ^ 8 := hsize ▸ littleEndianValue_lt size
  have hextLe : ext.length ≤ 255 := by
    have := littleEndianValue_lt extLen
    rw [hextLen] at this
    omega
  obtain ⟨hbytes, hpairs⟩ := tableBytes_entriesOfBytes _ table htable
  have hsizeBytes : littleEndian 8 (BitVec.ofNat 64 (littleEndianValue size)).toNat = size :=
    littleEndian_of_length hsize ((Nat.mod_eq_of_lt hsizeLt).symm)
  constructor
  · exact ⟨hextLe, hpairs ▸ hcountLe, hlens, by rw [BitVec.toNat_ofNat]; omega⟩
  · simp only [headerBytes, hsizeBytes, littleEndian_of_length hextLen hext.symm,
      littleEndian_of_length hcount hpairs.symm, hbytes, singleton_ofNat_littleEndianValue hpad,
      List.append_assoc]

/-- Settles O59: writing and parsing are the same relation between a container within the format's
limits and its bytes. -/
theorem parseOfWrittenContainer : Obligations.ParseOfWrittenContainer := by
  intro c bytes
  rw [writeContainer_eq_some]
  constructor
  · rintro ⟨hwf, rfl⟩
    exact parseContainer_headerBytes hwf
  · exact eq_headerBytes_of_parseContainer

end Sys2Proof.Machine
end

section
/-! PROOFS. The fault entry: what a CMD write that faults leaves, and what a latched fault lets pass
(60_exceptions.md R305, R308). -/

namespace Sys2Proof.Machine

/-- A decoded command's opcode is bits [31:24] of the CMD write (R91, R305). -/
theorem opcode_of_decode {x : Word} {i : Instr} (h : decode x = .ok i) : i.opcode = cmdOpc x := by
  rw [← encodeOfDecode x i h, cmdOpc_cmdWord]

/-- What a command can do to the latch: keep it, clear it by RESET, or enter a fault that is not the
host's own (R121, R304, R305). -/
theorem exec_latch_cases {i : Instr} {s t : State} (h : exec i s = .next t) :
    t.latch = s.latch ∨ (i = .reset ∧ t = s.resetBlock) ∨
      ∃ k, k ≠ .ioFailure ∧ t = s.raise k i.opcode := by
  rcases exec_cases h with hok | ⟨k, herr, ht⟩
  · by_cases hi : i = .reset
    · subst hi
      cases hok
      exact .inr (.inl ⟨rfl, rfl⟩)
    · exact .inl (latch_of_command s hi t hok)
  · exact .inr (.inr ⟨k, fun hk => commandResult_ne_ioFailure i s (hk ▸ herr), ht⟩)

/-- Settles O8: of all a CMD write can do with no fault latched, only the decoder's CommandError and a
command's own fault entry latch one. -/
theorem faultsArePrecise : Obligations.FaultsArePrecise := by
  intro s t rest x hf hp hstep ht
  rw [step_writeCmd hp] at hstep
  rcases writeCmd_cases hstep with ⟨hf', -⟩ | ⟨hf', -⟩ | ⟨-, -, rfl⟩ | ⟨-, i, hi, hexec⟩
  · exact absurd (hf.symm.trans hf') Bool.false_ne_true
  · exact absurd (hf.symm.trans hf') Bool.false_ne_true
  · exact ⟨.commandError, by decide, rfl⟩
  · rcases exec_latch_cases hexec with hkeep | ⟨-, rfl⟩ | ⟨k, hk, rfl⟩
    · rw [hkeep, hf] at ht
      cases ht
    · cases ht
    · exact ⟨k, hk, by rw [opcode_of_decode hi]; rfl⟩

/-- While a fault is latched, the gate drops every word but RESET's (R308). -/
theorem writeCmd_of_fault {x : Word} {s : State} (hf : s.latch.fault = true) (hx : x ≠ resetWord) :
    writeCmd x s = .next s := by
  simp [writeCmd, hf, hx]

/-- While a fault is latched, the gate lets the RESET word through (R120). -/
theorem writeCmd_resetWord_of_fault {s : State} (hf : s.latch.fault = true) :
    writeCmd resetWord s = exec .reset s := by
  simp [writeCmd, hf]

/-- Settles O7: the gate acts on CMD writes alone, so ARG writes and reads are as ever. -/
theorem faultedBlockDropsWrites : Obligations.FaultedBlockDropsWrites := by
  intro s rest hf
  refine ⟨fun x hx hp => ?drop, fun hp => ?reset, fun v hp => step_cons hp,
    fun o r hr hp => step_read hr hp⟩
  case drop =>
    rw [step_writeCmd hp]
    exact writeCmd_of_fault hf hx
  case reset =>
    rw [step_writeCmd hp]
    exact writeCmd_resetWord_of_fault hf

end Sys2Proof.Machine
end

section
/-! PROOFS. The commands on the reset state (70_reset_and_hazards.md R331). -/

namespace Sys2Proof.Machine

/-- With no byte counted there is no leaf to begin with (R141). -/
theorem presentLeaves_fill_zero : presentLeaves (Table.fill 0) = [] := by
  simp [presentLeaves]

/-- With no byte counted there is no tree (R141). -/
theorem buildTree_fill_zero : buildTree (Table.fill 0) = none := by
  rw [buildTree, presentLeaves_fill_zero]
  rfl

/-- The largest of all-zero lengths is 0 (R150). -/
theorem maxLength_fill_zero : maxLength (Table.fill 0) = 0 := by
  obtain ⟨a, ha⟩ := exists_tget_eq_maxLength (Table.fill 0)
  rw [← ha, tget_fill]

/-- All-zero lengths give no symbol a code (R161). -/
theorem canonical_fill_zero : canonical (Table.fill 0) = .ok (Table.fill absentCode) := by
  rw [canonical_of_le fun a => by rw [tget_fill]; exact Nat.zero_le 64]
  refine congrArg Except.ok (table_ext fun a => ?_)
  rw [tget_tbuild, tget_fill, canonicalEntry_of_absent (tget_fill 0 a)]

/-- No length of an all-zero table counts as present (R160). -/
theorem countP_ne_zero_fill_zero :
    (Table.fill (0 : Byte)).cells.countP (fun l => l ≠ 0) = 0 := by
  refine List.countP_eq_zero.mpr fun l hl => ?_
  obtain ⟨a, rfl⟩ := (mem_cells _ l).mp hl
  rw [tget_fill]
  decide

/-- DT_BUILD's loop passes over symbols without a code (R220). -/
theorem insertAll_of_absent {code : Table CodeEntry} {syms : List Byte} {acc : TrieNode × Nat}
    (h : ∀ a ∈ syms, (tget code a).present = false) : insertAll code syms acc = .ok acc := by
  induction syms with
  | nil => rfl
  | cons a rest ih =>
    obtain ⟨ha, hrest⟩ := List.forall_mem_cons.mp h
    simp [insertAll, ha, ih hrest]

/-- With no symbol coded the trie is its root alone (R220). -/
theorem buildTrie_of_absent {code : Table CodeEntry} (h : ∀ a, (tget code a).present = false) :
    buildTrie code = .ok (emptyTrie, 1) :=
  insertAll_of_absent fun a _ => h a

/-- Settles O18: at reset nothing is counted, no length is set, no symbol has a code, no bit waits and
ARG is 0. -/
theorem commandsDefinedAtReset : Obligations.CommandsDefinedAtReset := by
  refine ⟨fun i => exec_answers_next i _, ?tbBuild, ?ldDerive, ?caFromLen, ?dtBuild, rfl, rfl⟩
  all_goals simp only [exec_eq_commit, commandResult]
  case tbBuild =>
    simp only [State.reset, buildTree_fill_zero, presentLeaves_fill_zero]
    rfl
  case ldDerive =>
    have hlengths : deriveLengths State.reset.tree = Table.fill 0 := rfl
    rw [hlengths, maxLength_fill_zero]
    rfl
  case caFromLen =>
    simp only [State.reset, canonical_fill_zero, countP_ne_zero_fill_zero]
    rfl
  case dtBuild =>
    rw [buildTrie_of_absent fun a => by rw [State.reset, tget_fill]]
    rfl

end Sys2Proof.Machine
end

section
/-! PROOFS. The header's bytes, and the ends of the host's two operations (48_host_container.md R240
to R246). -/

namespace Sys2Proof.Machine

/-- Byte `k` of a little-endian integer is its digit at 256^k (R240). -/
theorem littleEndian_eq_map (n v : Nat) :
    littleEndian n v = (List.range n).map fun k => BitVec.ofNat 8 (v / 256 ^ k) := by
  induction n generalizing v with
  | zero => rfl
  | succ n ih =>
    simp [littleEndian, ih, List.range_succ_eq_map, Function.comp_def, Nat.div_div_eq_div_mul,
      Nat.pow_succ']

/-- The little-endian bytes of a word are its bits, eight at a time from bit 0 (R240). -/
theorem littleEndian_word (w : Word) :
    littleEndian 8 w.toNat = (List.range 8).map fun k => w.extractLsb' (8 * k) 8 := by
  rw [littleEndian_eq_map]
  refine List.map_congr_left fun k _ => ?_
  rw [BitVec.extractLsb', Nat.shiftRight_eq_div_pow, Nat.pow_mul]

theorem tableBytes_eq_flatMap (es : List Entry) :
    tableBytes es = es.flatMap fun e => [e.sym, e.len] := by
  induction es with
  | nil => rfl
  | cons e es ih => simp [tableBytes, ih]

/-- The header is "17 + E + 2·K bytes long" (R240). -/
theorem headerBytes_length (c : Container) :
    (headerBytes c).length = 17 + c.extension.length + 2 * c.table.length := by
  simp only [headerBytes, magicBytes, List.length_append, List.length_cons, List.length_nil,
    littleEndian_length, tableBytes_length]
  omega

/-- The header, byte by byte (R240). -/
theorem headerBytes_eq (c : Container) :
    headerBytes c = [0x48, 0x5A, 0x49, 0x50] ++ [0x01] ++
      ((List.range 8).map fun k => c.originalSize.extractLsb' (8 * k) 8) ++
      [BitVec.ofNat 8 c.extension.length] ++ c.extension ++
      [BitVec.ofNat 8 c.table.length, BitVec.ofNat 8 (c.table.length / 256)] ++
      (c.table.flatMap fun e => [e.sym, e.len]) ++ [c.padBits] := by
  rw [headerBytes, littleEndian_word, tableBytes_eq_flatMap]
  rfl

/-- An extension longer than 255 bytes is outside the format (R242). -/
theorem writeContainer_of_long_extension {c : Container} (h : 255 < c.extension.length) :
    writeContainer c = none :=
  if_neg fun ⟨hext, _⟩ => absurd hext (Nat.not_le.mpr h)

/-- Every violation is the host's MalformedHeader (R243). -/
theorem parseErrorKind_eq (e : ParseError) : parseErrorKind e = .malformedHeader := by
  cases e <;> rfl

theorem decompressFile_of_parse_error {s : State} {input : List Byte} {output : StreamOutcome}
    {e : ParseError} (h : parseContainer input = .error e) :
    decompressFile s input .delivers output = .error (.host .malformedHeader) := by
  simp only [decompressFile, transfer, ok_bind, h, parseErrorKind_eq]

/-- Decompression of a good container that the block decodes comes to the caller's output (R245). -/
theorem decompressFile_of_goodRun {s t : State} {input : List Byte} {c : Container}
    (hc : parseContainer input = .ok c) (ht : goodRun (decompressAccesses c) s = .ok t)
    (output : StreamOutcome) : decompressFile s input .delivers output =
      (transfer output t.dec.out).map fun decoded => (c.extension, decoded) := by
  simp only [decompressFile, transfer, ok_bind, hc, ht]
  cases output <;> rfl

/-- A decompression that ended well parsed a container and had a good run (R341). -/
theorem decompressFile_eq_ok {s : State} {input : List Byte} {r : List Byte × List Byte}
    (h : decompressFile s input .delivers .delivers = .ok r) :
    ∃ c t, parseContainer input = .ok c ∧ goodRun (decompressAccesses c) s = .ok t := by
  simp only [decompressFile, transfer, ok_bind] at h
  split at h
  · cases h
  · next c hc =>
    obtain ⟨t, ht, -⟩ := bind_eq_ok.mp h
    exact ⟨c, t, hc, ht⟩

/-- The output of a decompression that came to it fails (R246). -/
theorem decompressFile_output_fails {s : State} {input : List Byte} {r : List Byte × List Byte}
    (h : decompressFile s input .delivers .delivers = .ok r) :
    decompressFile s input .delivers .fails = .error (.host .ioFailure) := by
  obtain ⟨c, t, hc, ht⟩ := decompressFile_eq_ok h
  exact decompressFile_of_goodRun hc ht .fails

/-- The second reading of compression's input fails: the counting pass is all that has run (R246). -/
theorem compressFile_second_fails {s t : State} {input extension : List Byte}
    {output : StreamOutcome} (h : goodRun (countingAccesses input) s = .ok t) :
    compressFile s input extension .delivers .fails output = .error (.host .ioFailure) := by
  simp only [compressFile, transfer, ok_bind, h]
  rfl

/-- Compression whose two passes are good runs comes to the caller's output (R241). -/
theorem compressFile_of_goodRuns {s counted packed : State} {input : List Byte}
    (hcounted : goodRun (countingAccesses input) s = .ok counted)
    (hpacked : goodRun (packingAccesses input) counted = .ok packed) (extension : List Byte)
    (output : StreamOutcome) : compressFile s input extension .delivers .delivers output =
      writeToCaller output (compressedContainer packed extension) := by
  simp only [compressFile, transfer, ok_bind, hcounted, hpacked]

/-- A container that one stream of the caller's takes is lost to one that fails (R246). -/
theorem writeToCaller_fails {c : Container} {file : List Byte}
    (h : writeToCaller .delivers c = .ok file) :
    writeToCaller .fails c = .error (.host .ioFailure) := by
  unfold writeToCaller at h ⊢
  split at h
  · cases h
  · rfl

/-- The output of a compression that came to it fails (R246). -/
theorem compressFile_output_fails {s : State} {input extension file : List Byte}
    (h : compressFile s input extension .delivers .delivers .delivers = .ok file) :
    compressFile s input extension .delivers .delivers .fails = .error (.host .ioFailure) := by
  simp only [compressFile, transfer, ok_bind, bind_eq_ok] at h
  obtain ⟨counted, hcounted, packed, hpacked, hwrite⟩ := h
  rw [compressFile_of_goodRuns hcounted hpacked]
  exact writeToCaller_fails hwrite

theorem code_eq_ioFailure_iff {k : FaultKind} :
    k.code = FaultKind.ioFailure.code ↔ k = .ioFailure := by
  cases k <;> decide

/-- No command makes the latch hold the host's own kind (R304). -/
theorem exec_errKind_ne_ioFailure {i : Instr} {s t : State} (h : exec i s = .next t)
    (hs : s.latch.errKind ≠ FaultKind.ioFailure.code) :
    t.latch.errKind ≠ FaultKind.ioFailure.code := by
  rcases exec_latch_cases h with hkeep | ⟨-, rfl⟩ | ⟨k, hk, rfl⟩
  · rwa [hkeep]
  · rw [resetBlock_latch]
    decide
  · exact fun hcode => hk (code_eq_ioFailure_iff.mp hcode)

/-- Settles O60: the header's bytes and length, and each end of the host's operations by its own
lemma. -/
theorem headerLengthAndRefusal : Obligations.HeaderLengthAndRefusal := by
  refine ⟨fun c => ⟨fun hext htable hlens hpad => ?written, writeContainer_of_long_extension⟩,
    fun _ _ _ _ h => decompressFile_of_parse_error h, fun _ _ _ _ _ => rfl,
    fun _ _ _ _ _ h => compressFile_second_fails h, fun _ _ _ _ h => compressFile_output_fails h,
    fun _ _ _ => rfl, fun _ _ _ h => decompressFile_output_fails h,
    fun _ _ _ h hs => exec_errKind_ne_ioFailure h hs⟩
  case written =>
    exact ⟨headerBytes c, writeContainer_eq_some.mpr ⟨⟨hext, htable, hlens, hpad⟩, rfl⟩,
      headerBytes_eq c, headerBytes_length c⟩

end Sys2Proof.Machine
end
